-- ==== Sys2Proof/Word.lean ====
section
/-! DEFINITION. The word types of the block: command and response words (00_scope.md R11 CMD_W, RESP_W),
payload bytes, coefficients and steps (COEF_W, QT_W), dimensions (DIM_W) and probability cells (PROB_W). -/

namespace Sys2Proof

/-- A command word, a response word or a CSR word: 32 bits, moved whole (20_memory.md R64). -/
abbrev Word := BitVec 32

/-- A byte of the payload or of the frame. -/
abbrev Byte := BitVec 8

/-- A 16-bit value: a coefficient, a quantization step or a dimension (00_scope.md R11). -/
abbrev Half := BitVec 16

/-- The content of a probability cell, 11 bits (00_scope.md R11 PROB_W, 40_table_manager.md R102). -/
abbrev Prob := BitVec 11

end Sys2Proof
end

