-- ==== Sys2Proof/Syntax.lean ====
section
/-! DEFINITION. The 18 commands, one constructor for each row of spec/opcode_table.json
(30_encoding.md R84), with the operand fields of the row's format (R82) at the width of their bits (R83). -/

namespace Sys2Proof

/-- A decoded command. Operands hold exactly the bits of their fields, so operands outside their range
(channel 3, position 6 or 7, cell 4627 and above) are terms of this type: they are legal encodings that
fault with BAD_OPERAND when executed (30_encoding.md R84). -/
inductive Instr where
  /-- NOP, 44_pass_control.md R200 -/
  | nop
  /-- PASS_BEGIN W, 44_pass_control.md R202 -/
  | passBegin (warm : Bool)
  /-- PASS_END, 44_pass_control.md R203 -/
  | passEnd
  /-- PASS_ABORT, 44_pass_control.md R205 -/
  | passAbort
  /-- CSR_RD addr, 44_pass_control.md R206 -/
  | csrRd (addr : BitVec 8)
  /-- OUT_POP, 44_pass_control.md R207 -/
  | outPop
  /-- CUR_W ch, imm16, 41_position_selector.md R127 -/
  | curW (ch : BitVec 2) (imm : BitVec 16)
  /-- CUR_H ch, imm16, 41_position_selector.md R128 -/
  | curH (ch : BitVec 2) (imm : BitVec 16)
  /-- SELECT ch, 41_position_selector.md R129 -/
  | select (ch : BitVec 2)
  /-- PT_ADDR ch, pos, cell, 40_table_manager.md R109 -/
  | ptAddr (ch : BitVec 2) (pos : BitVec 3) (cell : BitVec 13)
  /-- PT_WR imm11, 40_table_manager.md R110 -/
  | ptWr (imm : BitVec 11)
  /-- PT_RD, 40_table_manager.md R111 -/
  | ptRd
  /-- PT_INIT ALL, 40_table_manager.md R112 -/
  | ptInit (all : Bool)
  /-- ENC_BIT ch, pos, cell, bit, 42_arithmetic_coder.md R149 -/
  | encBit (ch : BitVec 2) (pos : BitVec 3) (cell : BitVec 13) (bit : Bool)
  /-- QT_WR ch, idx, imm16, 43_token_serializer.md R166 -/
  | qtWr (ch : BitVec 2) (idx : BitVec 6) (imm : BitVec 16)
  /-- BLK_WR idx, imm16, 43_token_serializer.md R167 -/
  | blkWr (idx : BitVec 6) (imm : BitVec 16)
  /-- BLK_CLR, 43_token_serializer.md R168 -/
  | blkClr
  /-- ENC_BLOCK ch, 43_token_serializer.md R169 -/
  | encBlock (ch : BitVec 2)
deriving DecidableEq, Repr

end Sys2Proof
end

