-- ==== Sys2Proof/WellFormed.lean ====
section
/-! DEFINITION. Well-formed commands: every operand in the range 30_encoding.md R83 gives it. An ill-formed
command is still a legal encoding (R84); executing it is what raises BAD_OPERAND (60_exceptions.md R221). -/

namespace Sys2Proof

/-- Channels are 0, 1, 2 (R83: "3 is out of range"). -/
def channelInRange (ch : BitVec 2) : Bool := ch != 3

/-- Position codes are 0..5 (R83: "6 and 7 are out of range"). -/
def positionInRange (pos : BitVec 3) : Bool := pos != 6 && pos != 7

/-- Cell addresses are 0..4626 (R83: "4627 and above are out of range"). -/
def cellInRange (cell : BitVec 13) : Bool := cell.toNat < 4627

/-- Every operand of the command is in its range. -/
def Instr.wellFormed : Instr → Bool
  | .nop => true
  | .passBegin _ => true
  | .passEnd => true
  | .passAbort => true
  | .csrRd _ => true
  | .outPop => true
  | .curW ch _ => channelInRange ch
  | .curH ch _ => channelInRange ch
  | .select ch => channelInRange ch
  | .ptAddr ch pos cell => channelInRange ch && positionInRange pos && cellInRange cell
  | .ptWr _ => true
  | .ptRd => true
  | .ptInit _ => true
  | .encBit ch pos cell _ => channelInRange ch && positionInRange pos && cellInRange cell
  | .qtWr ch _ _ => channelInRange ch
  | .blkWr _ _ => true
  | .blkClr => true
  | .encBlock ch => channelInRange ch

end Sys2Proof
end

