-- ==== Sys2Proof/Decode.lean ====
section
/-! DEFINITION. The decoder, total on every 32-bit word (30_encoding.md R86), and after it the encoder,
both written from the formats of R82 and the opcode map of R84. A word with an unassigned opcode or with a
reserved bit set decodes to no command (R81, R85). -/

namespace Sys2Proof

/-- The field of `n` bits whose lowest bit is bit `lo` (00_scope.md R13: `w[lo+n-1 : lo]`). -/
def field (w : Word) (lo n : Nat) : BitVec n := w.extractLsb' lo n

/-- The bits a format reserves must all be zero (R81): the command if they are, no command if not. -/
def whenZero {n : Nat} (reserved : BitVec n) (i : Instr) : Option Instr :=
  if reserved = 0 then some i else none

/-- The command of a 32-bit word, or none if the word is illegal (R86): the opcode in bits 31..26 selects
the format, the reserved bits of the format must be zero, the rest are the operands (R82, R84). -/
def decode (w : Word) : Option Instr :=
  match (field w 26 6).toNat with
  | 0x00 => whenZero (field w 0 26) .nop
  | 0x01 => whenZero (field w 1 25) (.passBegin (w.getLsbD 0))
  | 0x02 => whenZero (field w 0 26) .passEnd
  | 0x03 => whenZero (field w 0 26) .passAbort
  | 0x04 => whenZero (field w 8 18) (.csrRd (field w 0 8))
  | 0x05 => whenZero (field w 0 26) .outPop
  | 0x08 => whenZero (field w 16 8) (.curW (field w 24 2) (field w 0 16))
  | 0x09 => whenZero (field w 16 8) (.curH (field w 24 2) (field w 0 16))
  | 0x0A => whenZero (field w 0 24) (.select (field w 24 2))
  | 0x10 => whenZero (field w 0 8) (.ptAddr (field w 24 2) (field w 21 3) (field w 8 13))
  | 0x11 => whenZero (field w 11 15) (.ptWr (field w 0 11))
  | 0x12 => whenZero (field w 0 26) .ptRd
  | 0x13 => whenZero (field w 1 25) (.ptInit (w.getLsbD 0))
  | 0x18 => whenZero (field w 1 7)
      (.encBit (field w 24 2) (field w 21 3) (field w 8 13) (w.getLsbD 0))
  | 0x20 => whenZero (field w 22 2) (.qtWr (field w 24 2) (field w 16 6) (field w 0 16))
  | 0x21 => whenZero (field w 22 4) (.blkWr (field w 16 6) (field w 0 16))
  | 0x22 => whenZero (field w 0 26) .blkClr
  | 0x23 => whenZero (field w 0 24) (.encBlock (field w 24 2))
  | _ => none

/-- The instruction this decoder reads from the bits `w` of a table row of `nbits` bits. A command word has
32 bits and is moved whole, without a byte order (R80; 20_memory.md R64); bits above `nbits` are zero. -/
def decodeTableWord (nbits w : Nat) : Option Instr :=
  if nbits ≤ 32 then decode (BitVec.ofNat 32 (w % 2 ^ nbits)) else none

/-- The opcode of a command (R84). -/
def Instr.opcode : Instr → BitVec 6
  | .nop => 0x00
  | .passBegin _ => 0x01
  | .passEnd => 0x02
  | .passAbort => 0x03
  | .csrRd _ => 0x04
  | .outPop => 0x05
  | .curW _ _ => 0x08
  | .curH _ _ => 0x09
  | .select _ => 0x0A
  | .ptAddr _ _ _ => 0x10
  | .ptWr _ => 0x11
  | .ptRd => 0x12
  | .ptInit _ => 0x13
  | .encBit _ _ _ _ => 0x18
  | .qtWr _ _ _ => 0x20
  | .blkWr _ _ => 0x21
  | .blkClr => 0x22
  | .encBlock _ => 0x23

/-- Bits 25..0 of a command's word: its operand fields and zeros where its format says "mbz" (R82). -/
def Instr.operandBits : Instr → BitVec 26
  | .nop => 0
  | .passBegin warm => 0#25 ++ BitVec.ofBool warm
  | .passEnd => 0
  | .passAbort => 0
  | .csrRd addr => 0#18 ++ addr
  | .outPop => 0
  | .curW ch imm => ch ++ 0#8 ++ imm
  | .curH ch imm => ch ++ 0#8 ++ imm
  | .select ch => ch ++ 0#24
  | .ptAddr ch pos cell => ch ++ pos ++ cell ++ 0#8
  | .ptWr imm => 0#15 ++ imm
  | .ptRd => 0
  | .ptInit all => 0#25 ++ BitVec.ofBool all
  | .encBit ch pos cell bit => ch ++ pos ++ cell ++ 0#7 ++ BitVec.ofBool bit
  | .qtWr ch idx imm => ch ++ 0#2 ++ idx ++ imm
  | .blkWr idx imm => 0#4 ++ idx ++ imm
  | .blkClr => 0
  | .encBlock ch => ch ++ 0#24

/-- The 32-bit word of a command: opcode in bits 31..26, then the operand bits (R80, R82). -/
def encode (i : Instr) : Word := i.opcode ++ i.operandBits

end Sys2Proof
end

