-- ==== Sys2Proof/Config.lean ====
section
/-! DEFINITION. The two parameters the spec leaves open (00_scope.md R12, 92_eei_decisions.md D15): MARKER, to
which the spec gives no value, and OUT_CAP, to which it gives a default. -/

namespace Sys2Proof

/-- The parameters of one block. `outCap` is the greatest payload length; its type says that it is at most
2^32 − 1 (00_scope.md R12). -/
structure Params where
  marker : Byte
  outCap : Fin 4294967296
deriving DecidableEq, Repr

/-- MARKER: the spec gives no value (R12). It is opaque: nothing in Lean can evaluate it. DESIGN CHOICE, log
entry 4: left open, safe. -/
opaque Config.marker : Byte

/-- The default of OUT_CAP, 2^32 − 1 (R12; log entry 5). -/
def Config.outCap : Fin 4294967296 := 4294967295

/-- The parameters a machine is wired with unless a state says otherwise. -/
def Config.params : Params := ⟨Config.marker, Config.outCap⟩

end Sys2Proof
end

