-- ==== Sys2Proof/Machine/State.lean ====
section
/-! DEFINITION. The state of the block: one field for each row of 10_state.md R20 and no other field. The
step's state puts beside it what is not state of the block: the wired parameters, which the step has no other
argument for (log entry 5), and what the host is still going to do (log entry 1). Also the reasons a step can
stop, and the state after hardware reset (10_state.md R44, 70_reset_and_hazards.md R250). -/

namespace Sys2Proof.Machine

/-- A channel number, 0..2 (00_scope.md R10, R11 N_CH). -/
abbrev Chan := Fin 3

/-- A zigzag index, 0..63 (00_scope.md R11 N_COEF). -/
abbrev ZIndex := Fin 64

/-- The six structural positions, in the order of their codes 0..5 (41_position_selector.md R121). -/
inductive Position where
  | corner
  | topEdge
  | singleColumn
  | midLeft
  | interiorMiddle
  | midRight
deriving DecidableEq, Repr

/-- The pass state STATE (10_state.md R40). -/
inductive PassState where
  | idle
  | active
  | done
  | fault
deriving DecidableEq, Repr

/-- The content of FCODE: no fault yet, or one of the six fault codes (60_exceptions.md R221). -/
inductive FaultCode where
  | none
  | illegalCommand
  | illegalState
  | badOperand
  | cursorExhausted
  | blockCountMismatch
  | outOverflow
deriving DecidableEq, Repr

/-- A symbol of the sink queue: the "switch to raw" request or a data byte (10_state.md R39). -/
inductive Symbol where
  | raw
  | byte (b : Byte)
deriving DecidableEq, Repr

/-- One probability cell named by channel, position and cell address (10_state.md R26). It is the type of
the table pointer PTR (R28) and of the coder's "probability cursor" (42_arithmetic_coder.md R141). -/
structure CellRef where
  ch : Chan
  pos : Position
  cell : Fin 4627
deriving DecidableEq, Repr

/-- The Probability Table Set PT: pairs (cell number, value), cell numbers strictly rising, no value 1024.
A cell that is not listed holds 1024, its reset value (10_state.md R44; log entry 6). -/
abbrev Memory := List (Nat × Prob)

/-- What the host can do to the block between two commands (60_exceptions.md R236): send a command word,
assert the reset input, take the word at the head of RESPQ. -/
inductive HostEvent where
  | word (w : Word)
  | reset
  | takeResponse
deriving DecidableEq, Repr

/-- The state of the block: "one field for each row and no other field" (10_state.md R20). -/
structure BlockState where
  /-- STATE, R40 -/
  state : PassState
  /-- FCODE, R41 -/
  fcode : FaultCode
  /-- FINFO, R41 -/
  finfo : Word
  /-- BLK, R22 -/
  blk : Vector Half 64
  /-- QT, R24 -/
  qt : Vector (Vector Half 64) 3
  /-- PT, R26 -/
  pt : Memory
  /-- PTR, R28 -/
  ptr : CellRef
  /-- WIDTH, R30 -/
  width : Vector Half 3
  /-- NROWS, R30 -/
  nrows : Vector Half 3
  /-- ROW, R31 -/
  row : Vector Half 3
  /-- COL, R31 -/
  col : Vector Half 3
  /-- BLKPOS, R32 -/
  blkpos : Vector Word 3
  /-- LASTSEL, R34 -/
  lastsel : BitVec 8
  /-- CODED_LEN, R35 -/
  codedLen : BitVec 7
  /-- LOW, R36 -/
  low : BitVec 33
  /-- RANGE, R36 -/
  range : BitVec 32
  /-- CACHE, R37 -/
  cache : Byte
  /-- PEND, R37 -/
  pend : Nat
  /-- OUT, R38, the byte appended first at the head -/
  out : List Byte
  /-- SINKQ, R39, head first -/
  sinkq : List Symbol
  /-- RESPQ, R39, head first -/
  respq : List Word
deriving DecidableEq, Repr

/-- What the step reads: the state of the block, and beside it the two things the block is given from outside.
Neither is state of the block (10_state.md R20), and no command writes either. -/
structure State extends BlockState where
  /-- The MODEL's own field: the parameters MARKER and OUT_CAP, "wired and not affected by reset"
  (70_reset_and_hazards.md R251). No step changes them. A step has no argument but the state, so "parameters
  the model takes as arguments" (00_scope.md R12) stand here (log entry 5: safe, a theorem about every state
  is one about every choice of them). -/
  params : Params
  /-- The MODEL's own field: the host events still to come, the next one at the head (DESIGN CHOICE, log
  entry 1: safe, a theorem about every state is one about every host). -/
  inputs : List HostEvent
deriving DecidableEq, Repr

/-- The block after hardware reset (10_state.md R44, column "hardware reset"). -/
def BlockState.reset : BlockState where
  state := .idle
  fcode := .none
  finfo := 0
  blk := .replicate 64 0
  qt := .replicate 3 (.replicate 64 0)
  pt := []
  ptr := ⟨0, .corner, 0⟩
  width := .replicate 3 0
  nrows := .replicate 3 0
  row := .replicate 3 0
  col := .replicate 3 0
  blkpos := .replicate 3 0
  lastsel := 0
  codedLen := 0
  low := 0
  range := 0xFFFFFFFF
  cache := 0
  pend := 1
  out := []
  sinkq := []
  respq := []

/-- The machine right after reset: the block as hardware reset leaves it, the parameters of the configuration,
and a host that sends nothing. -/
def State.reset : State where
  toBlockState := BlockState.reset
  params := Config.params
  inputs := []

/-- Reasons a step stops with a fault. The faults of the spec are not among them: raising one of those is
a next state (60_exceptions.md R222). -/
inductive Fault where
  /-- Raised by ENC_BIT and ENC_BLOCK when a decision leaves RANGE = 0: the loop `while RANGE < 2^24` of
  42_arithmetic_coder.md R145 then never ends and the spec gives no state after it. No state that keeps the
  invariants of R146 and R107 reaches it. Safe: the model stops (log entry 8). -/
  | coderStuck
deriving DecidableEq, Repr

/-- Reasons a step is refused. -/
inductive Refusal where
  /-- Raised by an arm of `exec` whose instruction has no meaning in the model. Safe. No arm raises it. -/
  | notModelled (mnemonic : String)
deriving DecidableEq, Repr

/-- The three outcomes of a step of this machine. -/
abbrev Outcome := Host.Outcome State Fault Refusal

end Sys2Proof.Machine
end

