-- ==== Sys2Proof/Machine/Operands.lean ====
section
/-! DEFINITION. Operand forms and helper functions: the ranges of channel, position and cell operands
(30_encoding.md R83, 60_exceptions.md R221), the codes of positions, states and faults, and the helper
functions of 00_scope.md R14. -/

namespace Sys2Proof.Machine

/-- The code 0..5 of a structural position (41_position_selector.md R121). -/
def Position.code : Position → Nat
  | .corner => 0
  | .topEdge => 1
  | .singleColumn => 2
  | .midLeft => 3
  | .interiorMiddle => 4
  | .midRight => 5

/-- The two bits of STATE (10_state.md R40). -/
def PassState.code : PassState → BitVec 2
  | .idle => 0
  | .active => 1
  | .done => 2
  | .fault => 3

/-- The four bits of FCODE (60_exceptions.md R221). -/
def FaultCode.code : FaultCode → BitVec 4
  | .none => 0
  | .illegalCommand => 1
  | .illegalState => 2
  | .badOperand => 3
  | .cursorExhausted => 4
  | .blockCountMismatch => 5
  | .outOverflow => 6

/-- A channel operand: none if it is out of range (`ch = 3`, R83). -/
def channel? (ch : BitVec 2) : Option Chan :=
  if h : ch.toNat < 3 then some ⟨ch.toNat, h⟩ else none

/-- A position operand: none if it is out of range (6 and 7, R83). -/
def position? (pos : BitVec 3) : Option Position :=
  match pos.toNat with
  | 0 => some .corner
  | 1 => some .topEdge
  | 2 => some .singleColumn
  | 3 => some .midLeft
  | 4 => some .interiorMiddle
  | 5 => some .midRight
  | _ => none

/-- A cell address operand: none if it is out of range (4627 and above, R83). -/
def cellAddr? (cell : BitVec 13) : Option (Fin 4627) :=
  if h : cell.toNat < 4627 then some ⟨cell.toNat, h⟩ else none

/-- The three operands that name a cell; none if any of them is out of range (40_table_manager.md R109,
42_arithmetic_coder.md R149: `ch = 3 or pos >= 6 or cell >= 4627`). -/
def cellRef? (ch : BitVec 2) (pos : BitVec 3) (cell : BitVec 13) : Option CellRef :=
  match channel? ch, position? pos, cellAddr? cell with
  | some c, some p, some a => some ⟨c, p, a⟩
  | _, _, _ => none

/-- A zigzag index operand: all 64 values are legal (R83). -/
def zigzagIndex (idx : BitVec 6) : ZIndex := idx.toFin

/-- `sext16` of 00_scope.md R14: the signed value of a coefficient. -/
def sext16 (u : Half) : Int := u.toInt

/-- `zext_32` of R14, for a value of `n` bits. -/
def zext32 {n : Nat} (v : BitVec n) : Word := v.setWidth 32

/-- `bitlen` of R14. -/
def bitlen (n : Nat) : Nat := if n = 0 then 0 else Nat.log2 n + 1

/-- `flog2` of R14, defined there for `n ≥ 1`. -/
def flog2 (n : Nat) : Nat := bitlen n - 1

/-- `clamp` of R14, on cell values. -/
def clamp (v lo hi : Prob) : Prob := if v < lo then lo else if v > hi then hi else v

end Sys2Proof.Machine
end

