-- ==== Sys2Proof/Machine/Flags.lean ====
section
/-! DEFINITION. Flags. The block has no condition codes (10_state.md R42); what it has are flag bits inside
words: the position labels L, T, TR and EXH of a SELECT response (41_position_selector.md R121, R129), the
same labels in LASTSEL (10_state.md R34), VALID and CTL of an OUT_POP response (44_pass_control.md R207), and
the fields of STATUS (10_state.md R43). -/

namespace Sys2Proof.Machine

/-- The label of a position's table variant: left, top and top-right neighbour available (R121). -/
structure Label where
  left : Bool
  top : Bool
  topRight : Bool
deriving DecidableEq, Repr

/-- The labels of R121. TOP_EDGE keeps the source's label, which is not the geometry (90_conflicts.md C3). -/
def Position.label : Position → Label
  | .corner => ⟨false, false, false⟩
  | .topEdge => ⟨true, false, true⟩
  | .singleColumn => ⟨false, true, false⟩
  | .midLeft => ⟨false, true, true⟩
  | .interiorMiddle => ⟨true, true, true⟩
  | .midRight => ⟨true, true, false⟩

/-- `pos | (L << 3) | (T << 4) | (TR << 5)`: the six low bits of LASTSEL and of a SELECT response. -/
def selectionBits (p : Position) : BitVec 6 :=
  BitVec.ofBool p.label.topRight ++ BitVec.ofBool p.label.top ++ BitVec.ofBool p.label.left
    ++ BitVec.ofNat 3 p.code

/-- The value of LASTSEL: the selection with the channel in bits 7..6 (10_state.md R34). -/
def lastselWord (ch : Chan) (p : Position) : BitVec 8 := BitVec.ofNat 2 ch.val ++ selectionBits p

/-- The SELECT response for an exhausted channel: EXH (bit 8) set, all other bits 0 (R129). -/
def exhaustedResponse : Word := 0x00000100

/-- The SELECT response for a channel with a next block at position `p`: EXH is 0 (R129). -/
def selectResponse (p : Position) : Word := zext32 (selectionBits p)

/-- The OUT_POP response for an empty SINKQ: VALID = 0 (44_pass_control.md R207). -/
def emptyPopResponse : Word := 0x00000000

/-- The OUT_POP response for a symbol: VALID in bit 9, CTL in bit 8, the data byte in bits 7..0 (R207). -/
def popResponse : Symbol → Word
  | .raw => 0x00000300
  | .byte b => 0x00000200 ||| zext32 b

/-- The word of CSR 0x00, STATUS: STATE in bits 1..0, FCODE in bits 7..4 (10_state.md R43). -/
def statusWord (st : PassState) (f : FaultCode) : Word := 0#24 ++ f.code ++ 0#2 ++ st.code

/-- The word of CSR 0x0C, PTR: ch in bits 25..24, pos in 23..21, cell in 20..8 (10_state.md R43). -/
def ptrWord (p : CellRef) : Word :=
  0#6 ++ BitVec.ofNat 2 p.ch.val ++ BitVec.ofNat 3 p.pos.code ++ BitVec.ofNat 13 p.cell.val ++ 0#8

end Sys2Proof.Machine
end

