-- ==== Sys2Proof/Machine/Ops.lean ====
section
/-! DEFINITION. The named operations over the state: the probability cells, the queues, the channel
registers, raising a fault and the only way out of one, the tests every command makes first, and what the
command port, the reset input and the response port do. -/

namespace Sys2Proof.Machine

/-! The probability cells (40_table_manager.md R100). -/

/-- P_INIT (00_scope.md R11): what a cell holds after reset, and what an unlisted cell reads as. -/
def pInit : Prob := 1024

/-- Cells per table, NCELL (00_scope.md R11). -/
def tableSize : Nat := 4627

/-- Number of all cells: 3 channels × 6 positions × 4627 (R100). -/
def memorySize : Nat := 83286

/-- The number of the first cell of table (ch, pos). -/
def tableBase (ch : Chan) (pos : Position) : Nat := (ch.val * 6 + pos.code) * tableSize

/-- The number of a cell in the whole Probability Table Set. The 18 tables are disjoint (10_state.md R27). -/
def cellNumber (r : CellRef) : Nat := tableBase r.ch r.pos + r.cell.val

/-- The value at a cell number. -/
def Memory.lookup (k : Nat) : Memory → Prob
  | [] => pInit
  | e :: rest => if e.1 = k then e.2 else Memory.lookup k rest

/-- Removes what is listed for a cell number. -/
def Memory.erase (k : Nat) (m : Memory) : Memory := m.filter (fun e => e.1 != k)

/-- Puts an entry before the first one with a greater cell number. -/
def Memory.insert (k : Nat) (v : Prob) : Memory → Memory
  | [] => [(k, v)]
  | e :: rest => if k < e.1 then (k, v) :: e :: rest else e :: Memory.insert k v rest

/-- `PT[ch][pos][c]`. -/
def Memory.read (m : Memory) (r : CellRef) : Prob := Memory.lookup (cellNumber r) m

/-- `PT[ch][pos][c] <- v`. Writing 1024 removes the entry, so equal contents are equal lists. -/
def Memory.write (m : Memory) (r : CellRef) (v : Prob) : Memory :=
  if v = pInit then Memory.erase (cellNumber r) m
  else Memory.insert (cellNumber r) v (Memory.erase (cellNumber r) m)

/-- Sets the 4627 cells of one table to P_INIT (40_table_manager.md R112, ALL = 0). -/
def Memory.initTable (m : Memory) (ch : Chan) (pos : Position) : Memory :=
  m.filter (fun e => !(tableBase ch pos ≤ e.1 && e.1 < tableBase ch pos + tableSize))

/-- All 83286 cells at P_INIT (R112 with ALL = 1, 44_pass_control.md R202 with W = 0). -/
def Memory.initAll : Memory := []

/-- The canonical form: cell numbers strictly rising and in range, no entry equal to what an unlisted cell
reads as. -/
abbrev Memory.wf (m : Memory) : Prop :=
  m.Pairwise (fun a b => a.1 < b.1) ∧ ∀ e ∈ m, e.1 < memorySize ∧ e.2 ≠ pInit

/-- `PTR.cell <- (PTR.cell + 1) mod 4627`: the pointer never moves to another table (R110, R111). -/
def CellRef.stepCell (r : CellRef) : CellRef := { r with cell := Fin.ofNat 4627 (r.cell.val + 1) }

/-! The queues (20_memory.md R65, R66). -/

/-- `Resp(v)`: appends a word at the tail of RESPQ (R65). -/
def resp (v : Word) (s : State) : State := { s with respq := s.respq ++ [v] }

/-- `Sink(s)` for each symbol of a list, in order: appends at the tail of SINKQ (R66). -/
def sinkAll (symbols : List Symbol) (s : State) : State := { s with sinkq := s.sinkq ++ symbols }

/-! The channel registers (10_state.md R30 to R33). -/

/-- `Exhausted(ch)` (10_state.md R33). -/
def exhausted (s : State) (ch : Chan) : Bool :=
  s.width[ch] == 0 || decide (s.nrows[ch] ≤ s.row[ch])

/-- `ROW[ch] <- 0; COL[ch] <- 0; BLKPOS[ch] <- 0` for one channel (41_position_selector.md R127, R128). -/
def homeCursor (ch : Chan) (s : State) : State :=
  { s with row := s.row.set ch 0, col := s.col.set ch 0, blkpos := s.blkpos.set ch 0 }

/-- The same for every channel (44_pass_control.md R202, R205). -/
def homeAllCursors (s : State) : State :=
  { s with row := .replicate 3 0, col := .replicate 3 0, blkpos := .replicate 3 0 }

/-! Faults (60_exceptions.md). -/

/-- `raise Fault(code)` while the command word `w` is executed (R222): FCODE, FINFO and STATE are written and
nothing else; there is no vector and no handler (R227). -/
def raiseFault (code : FaultCode) (w : Word) (s : State) : State :=
  { s with fcode := code, finfo := w, state := .fault }

/-- The only way out of the FAULT state is the reset input (R223, R228; 70_reset_and_hazards.md R250): it puts
every piece of state of the block at its reset value (10_state.md R44). The parameters are wired and not
affected (R251), and what the host does afterwards is not the block's state. -/
def hardwareReset (s : State) : State := { s with toBlockState := BlockState.reset }

/-! The tests every command makes before its own pseudocode (60_exceptions.md R223, R225). -/

/-- Commands that are legal in IDLE, ACTIVE and DONE (44_pass_control.md R201). -/
def anyState : PassState → Bool
  | .idle => true
  | .active => true
  | .done => true
  | .fault => false

/-- Commands that are legal outside a pass only: IDLE and DONE (R201). -/
def outsidePass : PassState → Bool
  | .idle => true
  | .active => false
  | .done => true
  | .fault => false

/-- Commands that are legal inside a pass only: ACTIVE (R201). -/
def insidePass : PassState → Bool
  | .idle => false
  | .active => true
  | .done => false
  | .fault => false

/-- A command other than CSR_RD, with word `w`: dropped without any effect in FAULT (R223), ILLEGAL_STATE where
it is not legal (R225 test 2), else its own pseudocode. -/
def command (legal : PassState → Bool) (w : Word) (body : State → Outcome) (s : State) : Outcome :=
  if s.state = .fault then .next s
  else if legal s.state then body s
  else .next (raiseFault .illegalState w s)

/-- `if ch = 3: raise Fault(BAD_OPERAND)` (R225 test 3), else the rest with the channel. -/
def withChannel (ch : BitVec 2) (w : Word) (body : Chan → State → Outcome) (s : State) : Outcome :=
  match channel? ch with
  | some c => body c s
  | none => .next (raiseFault .badOperand w s)

/-- `if ch = 3 or pos >= 6 or cell >= 4627: raise Fault(BAD_OPERAND)`, else the rest with the cell. -/
def withCell (ch : BitVec 2) (pos : BitVec 3) (cell : BitVec 13) (w : Word)
    (body : CellRef → State → Outcome) (s : State) : Outcome :=
  match cellRef? ch pos cell with
  | some r => body r s
  | none => .next (raiseFault .badOperand w s)

/-! The ports (60_exceptions.md R236). -/

/-- A word that decodes to no command: dropped in FAULT, ILLEGAL_COMMAND in every other state
(30_encoding.md R81, R85; 60_exceptions.md R223). -/
def illegalWord (w : Word) (s : State) : State :=
  if s.state = .fault then s else raiseFault .illegalCommand w s

/-- The host removes the word at the head of RESPQ (20_memory.md R65). Nothing happens if there is none. -/
def takeResponse (s : State) : State := { s with respq := s.respq.tail }

/-- The next host event, and the state in which the block meets it: it no longer waits at the ports. -/
def nextEvent (s : State) : Option (HostEvent × State) :=
  match s.inputs with
  | [] => none
  | e :: rest => some (e, { s with inputs := rest })

/-- A command word placed on the command port, ahead of all that waits there. -/
def offerWord (w : Word) (s : State) : State := { s with inputs := .word w :: s.inputs }

end Sys2Proof.Machine
end

