-- ==== Sys2Proof/Machine/TableManager.lean ====
section
/-! DEFINITION. The probability table manager (PTM): the layout of a table, the adaptation of a cell, and
the commands PT_ADDR, PT_WR, PT_RD and PT_INIT (40_table_manager.md). -/

namespace Sys2Proof.Machine

/-- The 12 classes of a table (R103). -/
inductive TokenClass where
  | zf77
  | dcExp
  | dcRes
  | dcSign
  | exp77
  | tmc77
  | res77
  | sign77
  | zrunE
  | expE
  | resE
  | signE
deriving DecidableEq, Repr

/-- The shape of a class: its columns npos, nbucket, nidx and base in R103. -/
structure ClassShape where
  npos : Nat
  nbucket : Nat
  nidx : Nat
  base : Nat
deriving DecidableEq, Repr

/-- The table of R103. -/
def TokenClass.shape : TokenClass → ClassShape
  | .zf77 => ⟨49, 8, 1, 0⟩
  | .dcExp => ⟨1, 1, 16, 392⟩
  | .dcRes => ⟨1, 1, 15, 408⟩
  | .dcSign => ⟨1, 1, 1, 423⟩
  | .exp77 => ⟨49, 4, 15, 424⟩
  | .tmc77 => ⟨1, 4, 15, 3364⟩
  | .res77 => ⟨1, 1, 4, 3424⟩
  | .sign77 => ⟨1, 9, 1, 3428⟩
  | .zrunE => ⟨14, 7, 1, 3437⟩
  | .expE => ⟨14, 4, 15, 3535⟩
  | .resE => ⟨14, 1, 15, 4375⟩
  | .signE => ⟨14, 3, 1, 4585⟩

/-- `cell(class, p, b, i)` as a number (R104), for `p < npos`, `b < nbucket`, `i < nidx`. -/
def cellIndex (k : TokenClass) (p b i : Nat) : Nat :=
  k.shape.base + (p * k.shape.nbucket + b) * k.shape.nidx + i

/-- `cell(class, p, b, i)` as a cell address. The reduction modulo 4627 acts on no argument of the domain of
R104 (log entry 15). -/
def cellAddr (k : TokenClass) (p b i : Nat) : Fin 4627 := Fin.ofNat 4627 (cellIndex k p b i)

/-- `Adapt(p, bit)` (R106): a 0 raises the cell by (2048 − p) / 32, a 1 lowers it by p / 32. -/
def adapt (p : Prob) (bit : Bool) : Prob :=
  BitVec.ofNat 11 (if bit then p.toNat - p.toNat / 32 else p.toNat + (2048 - p.toNat) / 32)

/-- P_MIN (00_scope.md R11). -/
def pMin : Prob := 31

/-- P_MAX (00_scope.md R11). -/
def pMax : Prob := 2017

/-- PT_ADDR ch, pos, cell (R109): sets the table pointer. -/
def execPtAddr (ch : BitVec 2) (pos : BitVec 3) (cell : BitVec 13) : State → Outcome :=
  command anyState (encode (.ptAddr ch pos cell)) <|
    withCell ch pos cell (encode (.ptAddr ch pos cell)) fun r s => .next { s with ptr := r }

/-- PT_WR imm11 (R110): writes the clamped value at PTR and steps PTR. -/
def execPtWr (imm : BitVec 11) : State → Outcome :=
  command outsidePass (encode (.ptWr imm)) fun s =>
    .next { s with pt := Memory.write s.pt s.ptr (clamp imm pMin pMax), ptr := s.ptr.stepCell }

/-- PT_RD (R111): responds with the cell at PTR and steps PTR. -/
def execPtRd : State → Outcome :=
  command anyState (encode .ptRd) fun s =>
    .next { resp (zext32 (Memory.read s.pt s.ptr)) s with ptr := s.ptr.stepCell }

/-- PT_INIT ALL (R112): sets every cell, or every cell of PTR's table, to P_INIT. PTR stays. -/
def execPtInit (all : Bool) : State → Outcome :=
  command outsidePass (encode (.ptInit all)) fun s =>
    .next { s with
      pt := if all then Memory.initAll else Memory.initTable s.pt s.ptr.ch s.ptr.pos }

end Sys2Proof.Machine
end

