-- ==== Sys2Proof/Machine/ArithmeticCoder.lean ====
section
/-! DEFINITION. The binary arithmetic coder, encoder half (BAC): `Append`, `ShiftLow`, `Encode`, `Finish`, and
the command ENC_BIT (42_arithmetic_coder.md). The operations work on the coder's registers alone, so that
what they leave unchanged is plain from their types. -/

namespace Sys2Proof.Machine

/-- The coder's registers (R141). -/
structure Coder where
  low : BitVec 33
  range : BitVec 32
  cache : Byte
  pend : Nat
  out : List Byte
deriving DecidableEq, Repr

/-- What `Encode` reads and writes: the coder's registers and the cells (R145). -/
structure Encoder where
  coder : Coder
  pt : Memory
deriving DecidableEq, Repr

/-- How an operation that codes decisions ends. `overflow` carries every write made before the `Append` that
raised OUT_OVERFLOW (60_exceptions.md R224). -/
inductive Coded (α : Type) where
  /-- it completes -/
  | done (a : α)
  /-- an `Append` raised OUT_OVERFLOW -/
  | overflow (a : α)
  /-- its loop never ends (RANGE = 0), which no reachable state allows (log entry 8) -/
  | stuck
deriving DecidableEq, Repr

/-- The coder's registers of a state. -/
def State.coder (s : State) : Coder := ⟨s.low, s.range, s.cache, s.pend, s.out⟩

/-- The state with these coder registers. -/
def State.withCoder (s : State) (c : Coder) : State :=
  { s with low := c.low, range := c.range, cache := c.cache, pend := c.pend, out := c.out }

/-- What `Encode` works on, in a state. -/
def State.encoder (s : State) : Encoder := ⟨s.coder, s.pt⟩

/-- The state with what `Encode` left. -/
def State.withEncoder (s : State) (e : Encoder) : State := { s.withCoder e.coder with pt := e.pt }

/-- The coder at pass begin (R141). -/
def Coder.start : Coder := ⟨0, 0xFFFFFFFF, 0, 1, []⟩

/-- `Append(b)` (R143): the byte is taken mod 256; past OUT_CAP bytes it raises OUT_OVERFLOW (`error`). -/
def appendByte (P : Params) (b : Nat) (c : Coder) : Except Coder Coder :=
  if P.outCap.val < c.out.length + 1 then .error c
  else .ok { c with out := c.out ++ [BitVec.ofNat 8 b] }

/-- `repeat n times: Append(b)`. -/
def appendRun (P : Params) (b : Nat) : Nat → Coder → Except Coder Coder
  | 0, c => .ok c
  | n + 1, c =>
    match appendByte P b c with
    | .ok c' => appendRun P b n c'
    | .error c' => .error c'

/-- LOW[32], the pending carry, as a number. -/
def Coder.carry (c : Coder) : Nat := (c.low.getLsbD 32).toNat

/-- `LOW[23:0] << 8`, a 33-bit result whose bits 32 and 7..0 are 0 (R144). -/
def Coder.shiftedLow (c : Coder) : BitVec 33 := 0#1 ++ c.low.extractLsb' 0 24 ++ 0#8

/-- The held-back bytes are final (R144): CACHE and PEND − 1 bytes 0xFF are appended, each with the carry
added. -/
def flushHeld (P : Params) (c : Coder) : Except Coder Coder :=
  match appendByte P (c.cache.toNat + c.carry) c with
  | .ok c' => appendRun P (0xFF + c.carry) (c.pend - 1) c'
  | .error c' => .error c'

/-- `ShiftLow()` (R144). -/
def shiftLow (P : Params) (c : Coder) : Except Coder Coder :=
  if c.low.extractLsb' 0 32 < 0xFF000000#32 ∨ c.low.getLsbD 32 = true then
    match flushHeld P c with
    | .ok c' => .ok { c' with pend := 1, cache := c.low.extractLsb' 24 8, low := c.shiftedLow }
    | .error c' => .error c'
  else .ok { c with pend := c.pend + 1, low := c.shiftedLow }

/-- `repeat n times: ShiftLow()`. -/
def shiftTimes (P : Params) : Nat → Coder → Except Coder Coder
  | 0, c => .ok c
  | n + 1, c =>
    match shiftLow P c with
    | .ok c' => shiftTimes P n c'
    | .error c' => .error c'

/-- `Finish()`: FLUSH_N = 5 shifts (R147). -/
def finish (P : Params) (c : Coder) : Except Coder Coder := shiftTimes P 5 c

/-- `while RANGE < 2^24: RANGE <- RANGE << 8; ShiftLow()` (R145). Three rounds end the loop from every
RANGE > 0; from RANGE = 0 it never ends. -/
def normalise (P : Params) : Nat → Coder → Coded Coder
  | 0, c => if c.range < 0x1000000#32 then .stuck else .done c
  | n + 1, c =>
    if c.range < 0x1000000#32 then
      match shiftLow P { c with range := c.range <<< 8 } with
      | .ok c' => normalise P n c'
      | .error c' => .overflow c'
    else .done c

/-- `(RANGE >> 11) * p`: it fits in 32 bits (R145). -/
def bound (range : BitVec 32) (p : Prob) : BitVec 32 := (range >>> 11) * p.setWidth 32

/-- The narrowing of the interval by one decision coded with probability `p` (R145). -/
def narrow (p : Prob) (bit : Bool) (c : Coder) : Coder :=
  if bit then
    { c with low := c.low + (bound c.range p).setWidth 33, range := c.range - bound c.range p }
  else { c with range := bound c.range p }

/-- `Encode(ch, pos, c, bit)` (R145): the old value of the cell narrows the interval, then the cell adapts,
then bytes move out. -/
def encodeDecision (P : Params) (r : CellRef) (bit : Bool) (e : Encoder) : Coded Encoder :=
  let p := Memory.read e.pt r
  let pt := Memory.write e.pt r (adapt p bit)
  match normalise P 3 (narrow p bit e.coder) with
  | .done c => .done ⟨c, pt⟩
  | .overflow c => .overflow ⟨c, pt⟩
  | .stuck => .stuck

/-- The end of a command that codes decisions: what was written stays in every case, OUT_OVERFLOW is raised
with the command's word (60_exceptions.md R224), and on completion the command goes on. -/
def afterCoding (w : Word) (s : State) (done : State → State) : Coded Encoder → Outcome
  | .done e => .next (done (s.withEncoder e))
  | .overflow e => .next (raiseFault .outOverflow w (s.withEncoder e))
  | .stuck => .fault .coderStuck

/-- ENC_BIT ch, pos, cell, bit (R149): codes one decision against a named cell. -/
def execEncBit (ch : BitVec 2) (pos : BitVec 3) (cell : BitVec 13) (bit : Bool) : State → Outcome :=
  command insidePass (encode (.encBit ch pos cell bit)) <|
    withCell ch pos cell (encode (.encBit ch pos cell bit)) fun r s =>
      afterCoding (encode (.encBit ch pos cell bit)) s id (encodeDecision s.params r bit s.encoder)

end Sys2Proof.Machine
end

