-- ==== Sys2Proof/Machine/PassControl.lean ====
section
/-! DEFINITION. Pass control, status and output (PASS): the frame, the status register map, and the commands
NOP, PASS_BEGIN, PASS_END, PASS_ABORT, CSR_RD and OUT_POP (44_pass_control.md). -/

namespace Sys2Proof.Machine

/-- NOP (R200): no operation. -/
def execNop : State → Outcome := command anyState (encode .nop) fun s => .next s

/-- Cursors homed, coder at its start, SINKQ empty: what PASS_BEGIN and PASS_ABORT share (R202, R205). -/
def clearPass (s : State) : State := { (homeAllCursors s).withCoder Coder.start with sinkq := [] }

/-- PASS_BEGIN W (R202): starts a pass, cold (W = 0, all cells at P_INIT) or warm (W = 1). -/
def execPassBegin (warm : Bool) : State → Outcome :=
  command outsidePass (encode (.passBegin warm)) fun s =>
    .next { clearPass s with pt := if warm then s.pt else Memory.initAll, state := .active }

/-- The four length bytes, most significant first (R203; 20_memory.md R62). -/
def lengthBytes (n : Nat) : List Byte :=
  [(BitVec.ofNat 32 n).extractLsb' 24 8, (BitVec.ofNat 32 n).extractLsb' 16 8,
   (BitVec.ofNat 32 n).extractLsb' 8 8, (BitVec.ofNat 32 n).extractLsb' 0 8]

/-- The symbols PASS_END puts in SINKQ: RAW, the marker, the length, the payload (R203, R204). -/
def frame (P : Params) (out : List Byte) : List Symbol :=
  .raw :: (P.marker :: (lengthBytes out.length ++ out)).map .byte

/-- PASS_END (R203): finishes the coder and emits the frame. -/
def execPassEnd : State → Outcome :=
  command insidePass (encode .passEnd) fun s =>
    if exhausted s 0 && exhausted s 1 && exhausted s 2 then
      match finish s.params s.coder with
      | .ok c => .next { sinkAll (frame s.params c.out) (s.withCoder c) with state := .done }
      | .error c => .next (raiseFault .outOverflow (encode .passEnd) (s.withCoder c))
    else .next (raiseFault .blockCountMismatch (encode .passEnd) s)

/-- PASS_ABORT (R205): throws the pass away. -/
def execPassAbort : State → Outcome :=
  command anyState (encode .passAbort) fun s => .next { clearPass s with state := .idle }

/-- CUR_DIM[ch]: WIDTH in bits 15..0, NROWS in bits 31..16 (10_state.md R43). -/
def curDimWord (s : State) (ch : Chan) : Word := s.nrows[ch] ++ s.width[ch]

/-- CUR_RC[ch]: COL in bits 15..0, ROW in bits 31..16 (10_state.md R43). -/
def curRcWord (s : State) (ch : Chan) : Word := s.row[ch] ++ s.col[ch]

/-- The status register map (10_state.md R43): unassigned addresses read 0. -/
def csrRead (s : State) (addr : BitVec 8) : Word :=
  match addr.toNat with
  | 0x00 => statusWord s.state s.fcode
  | 0x01 => s.finfo
  | 0x02 => zext32 s.lastsel
  | 0x03 => zext32 s.codedLen
  | 0x04 => s.low.extractLsb' 0 32
  | 0x05 => zext32 (s.low.extractLsb' 32 1)
  | 0x06 => s.range
  | 0x07 => zext32 s.cache
  | 0x08 => BitVec.ofNat 32 s.pend
  | 0x09 => BitVec.ofNat 32 s.out.length
  | 0x0A => BitVec.ofNat 32 (min s.sinkq.length (2 ^ 32 - 1))
  | 0x0B => zext32 s.params.marker
  | 0x0C => ptrWord s.ptr
  | 0x10 => curDimWord s 0
  | 0x11 => curRcWord s 0
  | 0x12 => s.blkpos[0]
  | 0x14 => curDimWord s 1
  | 0x15 => curRcWord s 1
  | 0x16 => s.blkpos[1]
  | 0x18 => curDimWord s 2
  | 0x19 => curRcWord s 2
  | 0x1A => s.blkpos[2]
  | _ => 0

/-- CSR_RD addr (R206): reads a status register. It has no state test: it is the one command that acts in
FAULT (60_exceptions.md R223). -/
def execCsrRd (addr : BitVec 8) (s : State) : Outcome := .next (resp (csrRead s addr) s)

/-- OUT_POP (R207): takes one symbol of the frame. -/
def execOutPop : State → Outcome :=
  command anyState (encode .outPop) fun s =>
    match s.sinkq with
    | [] => .next (resp emptyPopResponse s)
    | x :: rest => .next (resp (popResponse x) { s with sinkq := rest })

end Sys2Proof.Machine
end

