-- ==== Sys2Proof/Machine/PositionSelector.lean ====
section
/-! DEFINITION. The row/position selector (SEL): `Select`, `Advance`, and the commands CUR_W, CUR_H and
SELECT (41_position_selector.md). -/

namespace Sys2Proof.Machine

/-- `Select(w, row, col)`, for `w ≥ 1` and `col < w` (R123). The width is tested before the row
(90_conflicts.md C5). -/
def selectPosition (w row col : Nat) : Position :=
  if w = 1 then
    if row = 0 then .corner else .singleColumn
  else if row = 0 then
    if col = 0 then .corner else .topEdge
  else if col = 0 then .midLeft
  else if col = w - 1 then .midRight
  else .interiorMiddle

/-- The position of the next block of a channel, from its cursor as it stands now (R126). -/
def nextPosition (s : State) (ch : Chan) : Position :=
  selectPosition s.width[ch].toNat s.row[ch].toNat s.col[ch].toNat

/-- `Advance(ch)`: BLKPOS counts modulo 2^32; COL runs to the end of the row, then ROW (R125). -/
def advance (ch : Chan) (s : State) : State :=
  let col := s.col[ch] + 1
  let s' := { s with blkpos := s.blkpos.set ch (s.blkpos[ch] + 1) }
  if col = s.width[ch] then
    { s' with col := s.col.set ch 0, row := s.row.set ch (s.row[ch] + 1) }
  else { s' with col := s.col.set ch col }

/-- CUR_W ch, imm16 (R127): sets the row width of a channel and homes its cursor. -/
def execCurW (ch : BitVec 2) (imm : BitVec 16) : State → Outcome :=
  command outsidePass (encode (.curW ch imm)) <|
    withChannel ch (encode (.curW ch imm)) fun c s =>
      .next (homeCursor c { s with width := s.width.set c imm })

/-- CUR_H ch, imm16 (R128): sets the number of block rows of a channel and homes its cursor. -/
def execCurH (ch : BitVec 2) (imm : BitVec 16) : State → Outcome :=
  command outsidePass (encode (.curH ch imm)) <|
    withChannel ch (encode (.curH ch imm)) fun c s =>
      .next (homeCursor c { s with nrows := s.nrows.set c imm })

/-- SELECT ch (R129): reports the position of the channel's next block; it writes RESPQ only. -/
def execSelect (ch : BitVec 2) : State → Outcome :=
  command anyState (encode (.select ch)) <|
    withChannel ch (encode (.select ch)) fun c s =>
      .next (resp (if exhausted s c then exhaustedResponse else selectResponse (nextPosition s c)) s)

end Sys2Proof.Machine
end

