-- ==== Sys2Proof/Machine/TokenSerializer.lean ====
section
/-! DEFINITION. The token serializer (TS): the zigzag map, the four phases, and the commands QT_WR, BLK_WR,
BLK_CLR and ENC_BLOCK (43_token_serializer.md). The decisions of a block are a list computed from BLK and
QT[ch] alone (R161); `Serialize` codes them in order. -/

namespace Sys2Proof.Machine

/-! Coordinates (R162 to R164). -/

/-- The zigzag map ZZ, row by row (R163; the spec marks it as general knowledge, log entry 16). -/
def zigzagTable : List Nat :=
  [ 0,  1,  5,  6, 14, 15, 27, 28,
    2,  4,  7, 13, 16, 26, 29, 42,
    3,  8, 12, 17, 25, 30, 41, 43,
    9, 11, 18, 24, 31, 40, 44, 53,
   10, 19, 23, 32, 39, 45, 52, 54,
   20, 22, 33, 38, 46, 51, 55, 60,
   21, 34, 37, 47, 50, 56, 59, 61,
   35, 36, 48, 49, 57, 58, 62, 63]

/-- `ZZ(r, c)` for `r, c` in 0..7 (R163). -/
def zigzag (r c : Nat) : ZIndex := Fin.ofNat 64 (zigzagTable.getD (8 * r + c) 0)

/-- The inverse map RC, by zigzag index (R163). -/
def rasterTable : List (Nat × Nat) :=
  [(0, 0), (0, 1), (1, 0), (2, 0), (1, 1), (0, 2), (0, 3), (1, 2),
   (2, 1), (3, 0), (4, 0), (3, 1), (2, 2), (1, 3), (0, 4), (0, 5),
   (1, 4), (2, 3), (3, 2), (4, 1), (5, 0), (6, 0), (5, 1), (4, 2),
   (3, 3), (2, 4), (1, 5), (0, 6), (0, 7), (1, 6), (2, 5), (3, 4),
   (4, 3), (5, 2), (6, 1), (7, 0), (7, 1), (6, 2), (5, 3), (4, 4),
   (3, 5), (2, 6), (1, 7), (2, 7), (3, 6), (4, 5), (5, 4), (6, 3),
   (7, 2), (7, 3), (6, 4), (5, 5), (4, 6), (3, 7), (4, 7), (5, 6),
   (6, 5), (7, 4), (7, 5), (6, 6), (5, 7), (6, 7), (7, 6), (7, 7)]

/-- The 7×7 sub-grid as (row, column) pairs, in the order of their zigzag indices (R164). -/
def subgrid : List (Nat × Nat) := rasterTable.filter (fun rc => 1 ≤ rc.1 && 1 ≤ rc.2)

/-- `V(r, c)` (R162). -/
def coef (blk : Vector Half 64) (r c : Nat) : Int := sext16 blk[zigzag r c]

/-- `P77(r, c)` (R164). -/
def p77 (r c : Nat) : Nat := (r - 1) * 7 + (c - 1)

/-- Whether (r, c) lies in the 7×7 sub-grid (R162). -/
def inSubgrid (r c : Nat) : Bool := 1 ≤ r && r ≤ 7 && 1 ≤ c && c ≤ 7

/-! Magnitudes (R165, R171). -/

/-- The exponent class of a coefficient: `bitlen(abs(v))` (R165). -/
def expClass (v : Int) : Nat := bitlen v.natAbs

/-- `THR(q)` (R171). -/
def thr (q : Half) : Nat := 4 - flog2 (max q.toNat 1)

/-! Decisions (R161). -/

/-- One decision of the serializer: the arguments of `E(class, p, b, i, bit)` (R172). -/
structure Token where
  cls : TokenClass
  p : Nat
  b : Nat
  i : Nat
  bit : Bool
deriving DecidableEq, Repr

/-- The cell of a decision in the table of a channel and position (R172). -/
def Token.ref (t : Token) (ch : Chan) (pos : Position) : CellRef :=
  ⟨ch, pos, cellAddr t.cls t.p t.b t.i⟩

/-- A run of `n` ones on indices 0, 1, …, closed by a zero on index `n` if `closed` (R165). -/
def unary (k : TokenClass) (p b n : Nat) (closed : Bool) : List Token :=
  (List.range n).map (fun i => ⟨k, p, b, i, true⟩) ++ if closed then [⟨k, p, b, n, false⟩] else []

/-- The residual bit numbers of exponent class `e`, most significant first: e − 2 down to 0 (R165). -/
def residualBits (e : Nat) : List Nat := (List.range (e - 1)).reverse

/-! Phase 1: zero flags (R173). -/

/-- `NZ77(r, c)`. -/
def nz77 (blk : Vector Half 64) (r c : Nat) : Nat :=
  if inSubgrid r c && coef blk r c != 0 then 1 else 0

/-- The zero flag of (r, c) in the bucket of its left, top and top-left neighbours. -/
def zeroFlag (blk : Vector Half 64) (r c : Nat) : Token :=
  ⟨.zf77, p77 r c, nz77 blk r (c - 1) + 2 * nz77 blk (r - 1) c + 4 * nz77 blk (r - 1) (c - 1), 0,
    coef blk r c == 0⟩

/-- Phase1_ZeroFlags. -/
def phase1 (blk : Vector Half 64) : List Token := subgrid.map fun rc => zeroFlag blk rc.1 rc.2

/-! Phase 2: DC (R174). The sign comes last (90_conflicts.md C1). -/

/-- Phase2_DC. -/
def phase2 (blk : Vector Half 64) : List Token :=
  let v := coef blk 0 0
  let e := expClass v
  unary .dcExp 0 0 e (e < 16) ++ (residualBits e).map (fun k => ⟨.dcRes, 0, 0, k, v.natAbs.testBit k⟩)
    ++ if 1 ≤ e then [⟨.dcSign, 0, 0, 0, v < 0⟩] else []

/-! Phase 3: the nonzero coefficients of the sub-grid (R175, R176). -/

/-- `E77(r, c)`. -/
def e77 (blk : Vector Half 64) (r c : Nat) : Nat :=
  if inSubgrid r c then expClass (coef blk r c) else 0

/-- The sign code of a value: 0 for zero, 1 for positive, 2 for negative (R176, R177). -/
def signCode (v : Int) : Nat := if v = 0 then 0 else if 0 < v then 1 else 2

/-- `S77(r, c)`. -/
def s77 (blk : Vector Half 64) (r c : Nat) : Nat :=
  if inSubgrid r c then signCode (coef blk r c) else 0

/-- One residual bit: at or above the threshold `t` in class TMC77, below it in class RES77 (R175). -/
def residual77 (b t a k : Nat) : Token :=
  if t ≤ k then ⟨.tmc77, 0, b, k - t, a.testBit k⟩ else ⟨.res77, 0, 0, k, a.testBit k⟩

/-- The decisions of the coefficient at (r, c), none if it is zero. -/
def interior (blk qt : Vector Half 64) (r c : Nat) : List Token :=
  let v := coef blk r c
  let e := expClass v
  let b := min 3 (max (e77 blk r (c - 1)) (e77 blk (r - 1) c))
  let t := thr qt[zigzag r c]
  if v = 0 then []
  else unary .exp77 (p77 r c) b (e - 1) (e < 16) ++ (residualBits e).map (residual77 b t v.natAbs)
    ++ [⟨.sign77, 0, s77 blk r (c - 1) + 3 * s77 blk (r - 1) c, 0, v < 0⟩]

/-- Phase3_Interior. -/
def phase3 (blk qt : Vector Half 64) : List Token :=
  subgrid.flatMap fun rc => interior blk qt rc.1 rc.2

/-! Phase 4: the first row and the first column (R177). -/

/-- The decisions of a nonzero strip coefficient `v` at strip position `pe`, after its zero-run flag. -/
def stripNonzero (v : Int) (pe prevE prevS : Nat) : List Token :=
  unary .expE pe (min 3 prevE) (expClass v - 1) (expClass v < 16)
    ++ (residualBits (expClass v)).map (fun k => ⟨.resE, pe, 0, k, v.natAbs.testBit k⟩)
    ++ [⟨.signE, pe, prevS, 0, v < 0⟩]

/-- The decisions of the rest of a strip, from position `pe` on. -/
def strip : List Int → (pe run prevE prevS : Nat) → List Token
  | [], _, _, _, _ => []
  | v :: rest, pe, run, prevE, prevS =>
    if v = 0 then ⟨.zrunE, pe, run, 0, true⟩ :: strip rest (pe + 1) (run + 1) 0 0
    else ⟨.zrunE, pe, run, 0, false⟩ :: (stripNonzero v pe prevE prevS
      ++ strip rest (pe + 1) 0 (expClass v) (signCode v))

/-- The row strip's coefficients `(0, 1..7)` (R162). -/
def rowStrip (blk : Vector Half 64) : List Int := [1, 2, 3, 4, 5, 6, 7].map fun i => coef blk 0 i

/-- The column strip's coefficients `(1..7, 0)` (R162). -/
def colStrip (blk : Vector Half 64) : List Int := [1, 2, 3, 4, 5, 6, 7].map fun i => coef blk i 0

/-- Phase4_Strips. -/
def phase4 (blk : Vector Half 64) : List Token :=
  strip (rowStrip blk) 0 0 0 0 ++ strip (colStrip blk) 7 0 0 0

/-! Serialize (R172). -/

/-- The decisions of a block, in order (R161, R172). -/
def tokens (blk qt : Vector Half 64) : List Token :=
  phase1 blk ++ phase2 blk ++ phase3 blk qt ++ phase4 blk

/-- Codes a list of decisions in order against the table (ch, pos). -/
def encodeAll (P : Params) (ch : Chan) (pos : Position) : List Token → Encoder → Coded Encoder
  | [], e => .done e
  | t :: rest, e =>
    match encodeDecision P (t.ref ch pos) t.bit e with
    | .done e' => encodeAll P ch pos rest e'
    | .overflow e' => .overflow e'
    | .stuck => .stuck

/-- `Serialize(ch, pos)` on the block and the steps of a state. -/
def serialize (ch : Chan) (pos : Position) (s : State) : Coded Encoder :=
  encodeAll s.params ch pos (tokens s.blk s.qt[ch]) s.encoder

/-- CODED_LEN of a block: 0 if it is all zero, else 1 + the greatest index of a nonzero element (10_state.md
R35). -/
def codedLength (blk : Vector Half 64) : Nat :=
  (List.finRange 64).foldl (fun n z => if blk[z] = 0 then n else z.val + 1) 0

/-! Commands. -/

/-- QT_WR ch, idx, imm16 (R166): writes one quantization step. -/
def execQtWr (ch : BitVec 2) (idx : BitVec 6) (imm : BitVec 16) : State → Outcome :=
  command outsidePass (encode (.qtWr ch idx imm)) <|
    withChannel ch (encode (.qtWr ch idx imm)) fun c s =>
      .next { s with qt := s.qt.set c (s.qt[c].set (zigzagIndex idx) imm) }

/-- BLK_WR idx, imm16 (R167): writes one coefficient. -/
def execBlkWr (idx : BitVec 6) (imm : BitVec 16) : State → Outcome :=
  command anyState (encode (.blkWr idx imm)) fun s =>
    .next { s with blk := s.blk.set (zigzagIndex idx) imm }

/-- BLK_CLR (R168): sets all 64 coefficients to zero. -/
def execBlkClr : State → Outcome :=
  command anyState (encode .blkClr) fun s => .next { s with blk := .replicate 64 0 }

/-- LASTSEL and CODED_LEN, which ENC_BLOCK writes before it serializes (R169). -/
def recordBlock (ch : Chan) (s : State) : State :=
  { s with
    lastsel := lastselWord ch (nextPosition s ch)
    codedLen := BitVec.ofNat 7 (codedLength s.blk) }

/-- ENC_BLOCK ch (R169): encodes BLK as the next block of the channel. -/
def execEncBlock (ch : BitVec 2) : State → Outcome :=
  command insidePass (encode (.encBlock ch)) <|
    withChannel ch (encode (.encBlock ch)) fun c s =>
      if exhausted s c then .next (raiseFault .cursorExhausted (encode (.encBlock ch)) s)
      else afterCoding (encode (.encBlock ch)) (recordBlock c s) (advance c)
        (serialize c (nextPosition s c) s)

end Sys2Proof.Machine
end

