-- ==== Sys2Proof/Machine/Dispatch.lean ====
section
/-! DEFINITION. One arm for each command (30_encoding.md R84), each a direct call of its meaning. -/

namespace Sys2Proof.Machine

def exec (i : Instr) (s : State) : Host.Outcome State Fault Refusal :=
  match i with
  | .nop => Sys2Proof.Machine.execNop s
  | .passBegin warm => Sys2Proof.Machine.execPassBegin warm s
  | .passEnd => Sys2Proof.Machine.execPassEnd s
  | .passAbort => Sys2Proof.Machine.execPassAbort s
  | .csrRd addr => Sys2Proof.Machine.execCsrRd addr s
  | .outPop => Sys2Proof.Machine.execOutPop s
  | .curW ch imm => Sys2Proof.Machine.execCurW ch imm s
  | .curH ch imm => Sys2Proof.Machine.execCurH ch imm s
  | .select ch => Sys2Proof.Machine.execSelect ch s
  | .ptAddr ch pos cell => Sys2Proof.Machine.execPtAddr ch pos cell s
  | .ptWr imm => Sys2Proof.Machine.execPtWr imm s
  | .ptRd => Sys2Proof.Machine.execPtRd s
  | .ptInit all => Sys2Proof.Machine.execPtInit all s
  | .encBit ch pos cell bit => Sys2Proof.Machine.execEncBit ch pos cell bit s
  | .qtWr ch idx imm => Sys2Proof.Machine.execQtWr ch idx imm s
  | .blkWr idx imm => Sys2Proof.Machine.execBlkWr idx imm s
  | .blkClr => Sys2Proof.Machine.execBlkClr s
  | .encBlock ch => Sys2Proof.Machine.execEncBlock ch s

end Sys2Proof.Machine
end

