-- ==== Sys2Proof/Machine/Step.lean ====
section
/-! DEFINITION. One step: the block meets the next host event (00_scope.md R17, 20_memory.md R70). A command
word is decoded and executed, or is illegal; the reset input replaces the state; the host may take a
response. While the host does nothing the block waits, unchanged (70_reset_and_hazards.md R251; log entry 2). -/

namespace Sys2Proof.Machine

/-- What the block does when it meets a host event. -/
def meetEvent (e : HostEvent) (s : State) : Host.Outcome State Fault Refusal :=
  match e with
  | .word w =>
    match decode w with
    | some i => exec i s
    | none => .next (illegalWord w s)
  | .reset => .next (hardwareReset s)
  | .takeResponse => .next (takeResponse s)

/-- One step of the machine. -/
def step (s : State) : Host.Outcome State Fault Refusal :=
  match nextEvent s with
  | none => .next s
  | some (e, s') => meetEvent e s'

/-- `s` with the command word `w` (the low `nbits` bits, zeros above) next on the command port. -/
def State.withFetchWord (s : State) (nbits w : Nat) : State :=
  offerWord (BitVec.ofNat 32 (w % 2 ^ nbits)) s

end Sys2Proof.Machine
end

