-- ==== Sys2Proof/Safety.lean ====
section
/-! DEFINITION. What counts as a safe state: the invariants the spec states of its registers, in the terms the
statements use. Nothing here is part of the machine. -/

namespace Sys2Proof.Machine

/-- A legal cell value: P_MIN..P_MAX = 31..2017 (10_state.md R26, 40_table_manager.md R107). -/
abbrev Prob.legal (p : Prob) : Prop := 31 ≤ p.toNat ∧ p.toNat ≤ 2017

/-- Every cell of every table holds a legal value (40_table_manager.md R107). -/
def Memory.legal (m : Memory) : Prop := ∀ r : CellRef, Prob.legal (Memory.read m r)

/-- The coder's invariants between decisions: `2^24 ≤ RANGE`, `LOW + RANGE < 2^33` (42_arithmetic_coder.md R146
(a), (b)), and PEND at least 1 (10_state.md R37). -/
structure Coder.Legal (c : Coder) : Prop where
  range_ge : 2 ^ 24 ≤ c.range.toNat
  sum_lt : c.low.toNat + c.range.toNat < 2 ^ 33
  pend_pos : 1 ≤ c.pend

/-- The cursor of a channel: `COL < WIDTH` unless the channel has width 0, `ROW ≤ NROWS` (10_state.md R31); a
finished channel stands at column 0; BLKPOS counts the blocks consumed (R32), which in raster order is
ROW · WIDTH + COL (41_position_selector.md R125). -/
structure CursorLegal (s : State) (ch : Chan) : Prop where
  col_lt : s.col[ch].toNat < s.width[ch].toNat ∨ s.width[ch] = 0 ∧ s.col[ch] = 0
  row_le : s.row[ch].toNat ≤ s.nrows[ch].toNat
  col_zero : s.row[ch] = s.nrows[ch] → s.col[ch] = 0
  blkpos_eq : s.blkpos[ch].toNat = s.row[ch].toNat * s.width[ch].toNat + s.col[ch].toNat

/-- The invariant of the machine. -/
structure StateInv (s : State) : Prop where
  /-- PT is in its canonical form. -/
  memory_wf : Memory.wf s.pt
  /-- Every cell is in 31..2017 (R107). -/
  memory_legal : Memory.legal s.pt
  /-- Unless a fault stopped the block, the coder's invariants hold (R146). -/
  coder_legal : s.state ≠ .fault → s.coder.Legal
  /-- The payload fits (10_state.md R38). -/
  out_le : s.out.length ≤ s.params.outCap.val
  /-- The cursors are legal (R31, R32). -/
  cursor_legal : ∀ ch, CursorLegal s ch
  /-- FCODE is 0 exactly while no fault has been raised (R41). -/
  fcode_none : s.fcode = .none ↔ s.state ≠ .fault
  /-- No frame waits in IDLE and ACTIVE (10_state.md R40). -/
  sinkq_empty : s.state = .idle ∨ s.state = .active → s.sinkq = []
  /-- In DONE, SINKQ is what is left of the one frame (44_pass_control.md R204, R209). -/
  sinkq_frame : s.state = .done → s.sinkq <:+ frame s.params s.out
  /-- CODED_LEN is a value in 0..64 (10_state.md R35). -/
  codedLen_le : s.codedLen.toNat ≤ 64

/-- A pass whose payload is empty so far has had no carry, and the first byte of a payload that is not empty is
0x00 (42_arithmetic_coder.md R148). -/
def PayloadStart (c : Coder) : Prop :=
  (c.out = [] ∧ c.cache = 0 ∧ c.low.toNat + c.range.toNat < 2 ^ 32) ∨ c.out.head? = some 0

end Sys2Proof.Machine
end

