-- ==== Sys2Proof/Certificates/Slice0/Obligations.lean ====
section
/-! DEFINITION. The statements about the machine, and the few definitions that only they use: the tables of the
spec that a statement compares the machine with, and the mirror decoder of 42_arithmetic_coder.md R151. -/

namespace Sys2Proof.Statements

open Sys2Proof.Machine

/-! Tables of the spec -/

/-- The opcode map of 30_encoding.md R84: opcode, match, mask. -/
def opcodeMap : List (BitVec 6 × Word × Word) :=
  [(0x00, 0x00000000, 0xFFFFFFFF), (0x01, 0x04000000, 0xFFFFFFFE), (0x02, 0x08000000, 0xFFFFFFFF),
   (0x03, 0x0C000000, 0xFFFFFFFF), (0x04, 0x10000000, 0xFFFFFF00), (0x05, 0x14000000, 0xFFFFFFFF),
   (0x08, 0x20000000, 0xFCFF0000), (0x09, 0x24000000, 0xFCFF0000), (0x0A, 0x28000000, 0xFCFFFFFF),
   (0x10, 0x40000000, 0xFC0000FF), (0x11, 0x44000000, 0xFFFFF800), (0x12, 0x48000000, 0xFFFFFFFF),
   (0x13, 0x4C000000, 0xFFFFFFFE), (0x18, 0x60000000, 0xFC0000FE), (0x20, 0x80000000, 0xFCC00000),
   (0x21, 0x84000000, 0xFFC00000), (0x22, 0x88000000, 0xFFFFFFFF), (0x23, 0x8C000000, 0xFCFFFFFF)]

/-- The operand fields of a command by the formats of 30_encoding.md R82: lowest bit, number of bits, value. -/
def operandFields : Instr → List (Nat × Nat × Nat)
  | .nop | .passEnd | .passAbort | .outPop | .ptRd | .blkClr => []
  | .passBegin f | .ptInit f => [(0, 1, f.toNat)]
  | .csrRd addr => [(0, 8, addr.toNat)]
  | .curW ch imm | .curH ch imm => [(24, 2, ch.toNat), (0, 16, imm.toNat)]
  | .select ch | .encBlock ch => [(24, 2, ch.toNat)]
  | .ptAddr ch pos cell => [(24, 2, ch.toNat), (21, 3, pos.toNat), (8, 13, cell.toNat)]
  | .ptWr imm => [(0, 11, imm.toNat)]
  | .encBit ch pos cell bit =>
    [(24, 2, ch.toNat), (21, 3, pos.toNat), (8, 13, cell.toNat), (0, 1, bit.toNat)]
  | .qtWr ch idx imm => [(24, 2, ch.toNat), (16, 6, idx.toNat), (0, 16, imm.toNat)]
  | .blkWr idx imm => [(16, 6, idx.toNat), (0, 16, imm.toNat)]

/-- The opcodes 30_encoding.md R85 lists as unassigned. -/
def unassigned : List Nat :=
  [0x06, 0x07, 0x0B, 0x0C, 0x0D, 0x0E, 0x0F, 0x14, 0x15, 0x16, 0x17, 0x19, 0x1A, 0x1B, 0x1C, 0x1D, 0x1E,
   0x1F, 0x24, 0x25, 0x26, 0x27, 0x28, 0x29, 0x2A, 0x2B, 0x2C, 0x2D, 0x2E, 0x2F, 0x30, 0x31, 0x32, 0x33,
   0x34, 0x35, 0x36, 0x37, 0x38, 0x39, 0x3A, 0x3B, 0x3C, 0x3D, 0x3E, 0x3F]

/-- Whether the legality table of 44_pass_control.md R201 says "ok" for a command in IDLE, ACTIVE or DONE. -/
def legalIn : Instr → PassState → Bool
  | .passBegin _, st | .curW _ _, st | .curH _ _, st | .ptWr _, st | .ptInit _, st | .qtWr _ _ _, st =>
    st != .active
  | .passEnd, st | .encBit _ _ _ _, st | .encBlock _, st => st == .active
  | .nop, _ | .passAbort, _ | .csrRd _, _ | .outPop, _ | .select _, _ | .ptAddr _ _ _, _ | .ptRd, _
  | .blkWr _ _, _ | .blkClr, _ => true

/-- CSR_RD, the one command that acts in FAULT (60_exceptions.md R223). -/
def isCsrRd : Instr → Bool
  | .csrRd _ => true
  | _ => false

/-- The four commands that answer with a word (20_memory.md R65). -/
def responds : Instr → Bool
  | .select _ | .ptRd | .csrRd _ | .outPop => true
  | _ => false

/-- The commands that empty OUT and SINKQ (10_state.md R38, 44_pass_control.md R202, R205). -/
def emptiesOut : Instr → Bool
  | .passBegin _ | .passAbort => true
  | _ => false

/-- The one table whose cells a command may change: that of PTR for PT_WR and PT_INIT 0 (40_table_manager.md R110,
R112), that of the operands for ENC_BIT (42_arithmetic_coder.md R149), and for ENC_BLOCK that of its channel and
of the position of the channel's next block (43_token_serializer.md R169). None for a channel, position or cell
out of range, nor for any other command. PT_INIT 1 and a cold PASS_BEGIN write every table. -/
def tableOf (s : State) : Instr → Option (Chan × Position)
  | .ptWr _ | .ptInit _ => some (s.ptr.ch, s.ptr.pos)
  | .encBit ch pos cell _ => (cellRef? ch pos cell).map fun r => (r.ch, r.pos)
  | .encBlock ch => (channel? ch).map fun c => (c, nextPosition s c)
  | .nop | .passBegin _ | .passEnd | .passAbort | .csrRd _ | .outPop | .curW _ _ | .curH _ _ | .select _
  | .ptAddr _ _ _ | .ptRd | .qtWr _ _ _ | .blkWr _ _ | .blkClr => none

/-- The status register map of 10_state.md R43 as numbers: each field at its bit place. -/
def csrValue (s : State) (addr : Nat) : Nat :=
  if addr = 0x00 then s.state.code.toNat + 2 ^ 4 * s.fcode.code.toNat
  else if addr = 0x01 then s.finfo.toNat
  else if addr = 0x02 then s.lastsel.toNat
  else if addr = 0x03 then s.codedLen.toNat
  else if addr = 0x04 then s.low.toNat % 2 ^ 32
  else if addr = 0x05 then s.low.toNat / 2 ^ 32
  else if addr = 0x06 then s.range.toNat
  else if addr = 0x07 then s.cache.toNat
  else if addr = 0x08 then s.pend % 2 ^ 32
  else if addr = 0x09 then s.out.length % 2 ^ 32
  else if addr = 0x0A then min s.sinkq.length (2 ^ 32 - 1)
  else if addr = 0x0B then s.params.marker.toNat
  else if addr = 0x0C then 2 ^ 24 * s.ptr.ch.val + 2 ^ 21 * s.ptr.pos.code + 2 ^ 8 * s.ptr.cell.val
  else if addr = 0x10 then s.width[0].toNat + 2 ^ 16 * s.nrows[0].toNat
  else if addr = 0x11 then s.col[0].toNat + 2 ^ 16 * s.row[0].toNat
  else if addr = 0x12 then s.blkpos[0].toNat
  else if addr = 0x14 then s.width[1].toNat + 2 ^ 16 * s.nrows[1].toNat
  else if addr = 0x15 then s.col[1].toNat + 2 ^ 16 * s.row[1].toNat
  else if addr = 0x16 then s.blkpos[1].toNat
  else if addr = 0x18 then s.width[2].toNat + 2 ^ 16 * s.nrows[2].toNat
  else if addr = 0x19 then s.col[2].toNat + 2 ^ 16 * s.row[2].toNat
  else if addr = 0x1A then s.blkpos[2].toNat
  else 0

/-- `Exhausted(ch)` (10_state.md R33), as a proposition. -/
def Finished (s : State) (ch : Chan) : Prop := s.width[ch] = 0 ∨ s.nrows[ch].toNat ≤ s.row[ch].toNat

/-- Not in FAULT, and neither in a pass: the states in which a pass is configured (44_pass_control.md R201). -/
def Outside (s : State) : Prop := s.state = .idle ∨ s.state = .done

/-- The pass-begin columns of 10_state.md R44 that cold and warm start share, and 44_pass_control.md R205. -/
def Cleared (t : State) : Prop :=
  (∀ c : Chan, t.row[c] = 0 ∧ t.col[c] = 0 ∧ t.blkpos[c] = 0) ∧ t.low = 0 ∧ t.range = 0xFFFFFFFF ∧
    t.cache = 0 ∧ t.pend = 1 ∧ t.out = [] ∧ t.sinkq = []

/-- `s` with the registers that PASS_BEGIN and PASS_ABORT write taken from `t`. -/
def onlyPass (s t : State) : State :=
  { s with
    state := t.state, row := t.row, col := t.col, blkpos := t.blkpos, low := t.low, range := t.range
    cache := t.cache, pend := t.pend, out := t.out, sinkq := t.sinkq }

/-- Two states with the same pass: everything but the fault registers, LASTSEL, CODED_LEN and RESPQ. -/
def SamePass (s t : State) : Prop :=
  s.state = t.state ∧ s.blk = t.blk ∧ s.qt = t.qt ∧ s.pt = t.pt ∧ s.ptr = t.ptr ∧ s.width = t.width ∧
    s.nrows = t.nrows ∧ s.row = t.row ∧ s.col = t.col ∧ s.blkpos = t.blkpos ∧ s.coder = t.coder ∧
    s.sinkq = t.sinkq ∧ s.params = t.params ∧ s.inputs = t.inputs

/-! The mirror decoder (42_arithmetic_coder.md R151) -/

/-- `Encode` applied to a list of decisions. -/
def codeList (P : Params) : List (CellRef × Bool) → Encoder → Coded Encoder
  | [], e => .done e
  | d :: rest, e =>
    match encodeDecision P d.1 d.2 e with
    | .done e' => codeList P rest e'
    | .overflow e' => .overflow e'
    | .stuck => .stuck

/-- The decisions of the block in BLK as the next block of a channel, each with its cell in the table of a
position (43_token_serializer.md R161, R172). -/
def decisions (s : State) (c : Chan) (pos : Position) : List (CellRef × Bool) :=
  (tokens s.blk s.qt[c]).map fun k => (k.ref c pos, k.bit)

/-- The decoder's registers: the code value relative to the interval, the interval's width, the cells, and
the bytes not read yet. -/
structure Mirror where
  code : Nat
  range : Nat
  pt : Memory
  rest : List Byte

/-- The value of a byte string as a big-endian number (20_memory.md R63). -/
def bigEndian (l : List Byte) : Nat := l.foldl (fun n b => 256 * n + b.toNat) 0

/-- The decoder at the start of a payload: five bytes read, the whole interval (R141, R147). -/
def Mirror.start (pt : Memory) (payload : List Byte) : Mirror :=
  ⟨bigEndian (payload.take 5), 0xFFFFFFFF, pt, payload.drop 5⟩

/-- One decision: the same `bound` as `Encode`; it is 0 when the code value is below `bound`. -/
def Mirror.bit (m : Mirror) (r : CellRef) : Bool :=
  decide (m.range / 2048 * (Memory.read m.pt r).toNat ≤ m.code)

/-- The interval after a decision, before normalisation. -/
def Mirror.narrow (m : Mirror) (r : CellRef) : Mirror :=
  let bound := m.range / 2048 * (Memory.read m.pt r).toNat
  let pt := Memory.write m.pt r (adapt (Memory.read m.pt r) (m.bit r))
  if m.bit r then ⟨m.code - bound, m.range - bound, pt, m.rest⟩ else ⟨m.code, bound, pt, m.rest⟩

/-- One more byte enters while the interval is narrower than 2^24 (at most once, R146 (c)). -/
def Mirror.pull (m : Mirror) : Mirror :=
  if m.range < 2 ^ 24 then
    ⟨256 * m.code + (m.rest.headD 0).toNat, 256 * m.range, m.pt, m.rest.tail⟩
  else m

/-- The decisions read from a payload, given the cells they were coded against. -/
def Mirror.decode : List CellRef → Mirror → List Bool
  | [], _ => []
  | r :: rest, m => m.bit r :: Mirror.decode rest (m.narrow r).pull

/-! Decisions of a block -/

/-- What a decoder must know before it reads a decision: its class, position, bucket and index. -/
def context (t : Token) : TokenClass × Nat × Nat × Nat := (t.cls, t.p, t.b, t.i)

/-- The columns npos, nbucket, nidx, base of the class table 40_table_manager.md R103. -/
def classTable : List (TokenClass × Nat × Nat × Nat × Nat) :=
  [(.zf77, 49, 8, 1, 0), (.dcExp, 1, 1, 16, 392), (.dcRes, 1, 1, 15, 408), (.dcSign, 1, 1, 1, 423),
   (.exp77, 49, 4, 15, 424), (.tmc77, 1, 4, 15, 3364), (.res77, 1, 1, 4, 3424), (.sign77, 1, 9, 1, 3428),
   (.zrunE, 14, 7, 1, 3437), (.expE, 14, 4, 15, 3535), (.resE, 14, 1, 15, 4375), (.signE, 14, 3, 1, 4585)]

/-- A class, position, bucket and index in the domain of `cell` (40_table_manager.md R104). -/
def InDomain (k : TokenClass) (p b i : Nat) : Prop :=
  ∃ npos nbucket nidx base, (k, npos, nbucket, nidx, base) ∈ classTable ∧ p < npos ∧ b < nbucket ∧ i < nidx

end Sys2Proof.Statements

open Sys2Proof Sys2Proof.Machine Sys2Proof.Statements

/-! ## Encoding -/

/-- Decoding the word of a command gives the command back, for every value of every operand field
(30_encoding.md R82, R83, R84). -/
def Obligations.DecodeOfEncodeIsTheCommand : Prop :=
  ∀ i : Instr, decode (encode i) = some i

/-- Only the word of a command decodes to it, so FINFO, which records the encoded command, records the word
the host sent (30_encoding.md R86; log entry 7). -/
def Obligations.EncodeOfDecodeIsTheWord : Prop :=
  ∀ (w : Word) (i : Instr), decode w = some i → encode i = w

/-- R86: every word is exactly one of the 18 commands, with the fields of its format, or illegal, by the test
"opcode in the table and `w & mask = match` for that row". -/
def Obligations.DecodingIsTheMaskMatchTest : Prop :=
  ∀ w : Word,
    (∀ i, decode w = some i →
      ∃ row ∈ opcodeMap, row.1 = i.opcode ∧ row.1 = w.extractLsb' 26 6 ∧ w &&& row.2.2 = row.2.1 ∧
        (∀ other ∈ opcodeMap, w &&& other.2.2 = other.2.1 → other = row) ∧
        ∀ f ∈ operandFields i, w.toNat / 2 ^ f.1 % 2 ^ f.2.1 = f.2.2) ∧
    (decode w = none → ∀ row ∈ opcodeMap, w &&& row.2.2 ≠ row.2.1)

/-- Words written out from the encoding tables decode to the commands they stand for (30_encoding.md R87). -/
def Obligations.SpecWordsDecode : Prop :=
  decode 0x04000001 = some (.passBegin true) ∧ decode 0x1000001A = some (.csrRd 0x1A) ∧
  decode 0x2200FFFF = some (.curW 2 65535) ∧ decode 0x42B21200 = some (.ptAddr 2 5 4626) ∧
  decode 0x440003E8 = some (.ptWr 1000) ∧ decode 0x616D6401 = some (.encBit 1 3 3428 true) ∧
  decode 0x823FFFFF = some (.qtWr 2 63 65535) ∧ decode 0x8404FFFA = some (.blkWr 4 0xFFFA) ∧
  decode 0x8E000000 = some (.encBlock 2)

/-! ## Steps -/

/-- A step with a command word at the head of the port runs the decoded command; the word leaves the port. -/
def Obligations.StepRunsTheDecodedCommand : Prop :=
  ∀ (s : State) (w : Word) (rest : List HostEvent) (i : Instr), s.inputs = .word w :: rest →
    decode w = some i → step s = exec i { s with inputs := rest }

/-- R85: unassigned opcodes raise ILLEGAL_COMMAND in every state but FAULT, where they are dropped; the all-zero
word is NOP; the all-ones word is illegal, with opcode 0x3F. -/
def Obligations.UnassignedOpcodesAreIllegal : Prop :=
  (∀ (s : State) (w : Word) (rest : List HostEvent), s.inputs = .word w :: rest →
    (w.extractLsb' 26 6).toNat ∈ unassigned →
      (s.state ≠ .fault → step s =
        .next { s with inputs := rest, state := .fault, fcode := .illegalCommand, finfo := w }) ∧
      (s.state = .fault → step s = .next { s with inputs := rest })) ∧
  decode 0 = some .nop ∧ decode 0xFFFFFFFF = none ∧ ((0xFFFFFFFF : Word).extractLsb' 26 6).toNat = 0x3F

/-- R81: a reserved bit that is set makes the word illegal exactly like an unassigned opcode: whatever the
reason the word decodes to no command, the step is the same. -/
def Obligations.IllegalWordsFaultOrAreDropped : Prop :=
  ∀ (s : State) (w : Word) (rest : List HostEvent), s.inputs = .word w :: rest →
    (∀ row ∈ opcodeMap, w &&& row.2.2 ≠ row.2.1) →
      step s = .next (if s.state = .fault then { s with inputs := rest } else
        { s with inputs := rest, state := .fault, fcode := .illegalCommand, finfo := w })

/-- R44: what hardware reset leaves in every register, and what PASS_BEGIN, cold or warm, writes and does not
write. -/
def Obligations.ResetAndPassBeginColumns : Prop :=
  (∀ (s : State) (rest : List HostEvent), s.inputs = .reset :: rest → ∃ t, step s = .next t ∧
    t.state = .idle ∧ t.fcode = .none ∧ t.finfo = 0 ∧ (∀ z : ZIndex, t.blk[z] = 0) ∧
    (∀ (c : Chan) (z : ZIndex), t.qt[c][z] = 0) ∧ (∀ r, Memory.read t.pt r = 1024) ∧
    t.ptr = ⟨0, .corner, 0⟩ ∧ (∀ c : Chan, t.width[c] = 0 ∧ t.nrows[c] = 0) ∧
    t.lastsel = 0 ∧ t.codedLen = 0 ∧ Cleared t ∧ t.respq = [] ∧ t.params = s.params ∧ t.inputs = rest) ∧
  (∀ (s : State) (warm : Bool), Outside s → ∃ t, exec (.passBegin warm) s = .next t ∧
    t.state = .active ∧ Cleared t ∧
    (∀ r, Memory.read t.pt r = if warm then Memory.read s.pt r else 1024) ∧
    t = { onlyPass s t with pt := t.pt } ∧ (warm = true → t.pt = s.pt))

/-- R223: in FAULT every word but a well-formed CSR_RD (opcode 0x04 with bits 25..8 zero) is dropped, CSR_RD
works, and only hardware reset leaves FAULT. -/
def Obligations.FaultStateOnlyAnswersCsrRd : Prop :=
  ∀ (s : State) (rest : List HostEvent), s.state = .fault →
    (∀ w, s.inputs = .word w :: rest →
      (w.extractLsb' 8 24 ≠ 0x100000 → step s = .next { s with inputs := rest }) ∧
      (w.extractLsb' 8 24 = 0x100000 → ∃ v, v.toNat = csrValue s (w.toNat % 256) ∧
        step s = .next { s with inputs := rest, respq := s.respq ++ [v] })) ∧
    (s.inputs = .reset :: rest → ∃ t, step s = .next t ∧ t.state = .idle) ∧
    (∀ t, step s = .next t → s.inputs ≠ .reset :: rest → (∃ e, s.inputs = e :: rest) →
      t.state = .fault ∧ t.fcode = s.fcode ∧ t.finfo = s.finfo)

/-- A host that sends nothing leaves the block as it is: the MODEL's choice (log entry 2), from "the block waits
in IDLE for the first command". -/
def Obligations.SilentHostChangesNothing : Prop :=
  ∀ s : State, s.inputs = [] → step s = .next s

/-! ## Faults -/

/-- The legality table of R201: where the table says IS, a command raises ILLEGAL_STATE whatever its operands
and writes nothing else; and a command raises ILLEGAL_STATE nowhere else. -/
def Obligations.IllegalStateExactlyWhereTheTableSays : Prop :=
  ∀ (i : Instr) (s : State), s.state ≠ .fault →
    (legalIn i s.state = false →
      exec i s = .next { s with state := .fault, fcode := .illegalState, finfo := encode i }) ∧
    (∀ t, legalIn i s.state = true → s.fcode ≠ .illegalState → exec i s = .next t →
      t.fcode ≠ .illegalState)

/-- BAD_OPERAND (R221): raised, before any test of the cursors and with no other write, by exactly the
commands whose operands are out of range, where the command is legal. -/
def Obligations.BadOperandExactlyForIllFormed : Prop :=
  ∀ (i : Instr) (s : State), s.state ≠ .fault → legalIn i s.state = true →
    (i.wellFormed = false →
      exec i s = .next { s with state := .fault, fcode := .badOperand, finfo := encode i }) ∧
    (∀ t, i.wellFormed = true → s.fcode ≠ .badOperand → exec i s = .next t → t.fcode ≠ .badOperand)

/-- CURSOR_EXHAUSTED and BLOCK_COUNT_MISMATCH (R221 codes 4, 5): ENC_BLOCK of a finished channel, and PASS_END
with an unfinished one, write nothing but the fault. -/
def Obligations.CursorFaults : Prop :=
  ∀ s : State, s.state = .active →
    (∀ (ch : BitVec 2) (c : Chan), ch.toNat = c.val → Finished s c → exec (.encBlock ch) s =
      .next { s with state := .fault, fcode := .cursorExhausted, finfo := encode (.encBlock ch) }) ∧
    (∀ c : Chan, ¬ Finished s c → exec .passEnd s =
      .next { s with state := .fault, fcode := .blockCountMismatch, finfo := encode .passEnd })

/-- A fault that a command raises records its code and the command's word (60_exceptions.md R222); one other
than OUT_OVERFLOW writes nothing else, and OUT_OVERFLOW leaves the cursors, SINKQ, RESPQ, BLK, QT and PTR alone
and only appends to OUT. -/
def Obligations.WhatAFaultLeaves : Prop :=
  ∀ (i : Instr) (s t : State), s.state ≠ .fault → exec i s = .next t → t.state = .fault →
    t.fcode ≠ .none ∧ t.finfo = encode i ∧
    (t.fcode ≠ .outOverflow →
      t = { s with state := .fault, fcode := t.fcode, finfo := encode i }) ∧
    (t.fcode = .outOverflow →
      t = { s with
        state := .fault, fcode := .outOverflow, finfo := encode i, pt := t.pt, low := t.low
        range := t.range, cache := t.cache, pend := t.pend, out := t.out, lastsel := t.lastsel
        codedLen := t.codedLen } ∧
      s.out <+: t.out)

/-- The transitions of R201 are the only ones a command makes. -/
def Obligations.CommandsMakeOnlyTheListedTransitions : Prop :=
  ∀ (i : Instr) (s t : State), exec i s = .next t →
    t.state = s.state ∨
    (s.state ≠ .fault ∧ t.state = .fault) ∨
    (∃ warm, i = .passBegin warm ∧ Outside s ∧ t.state = .active) ∨
    (i = .passEnd ∧ s.state = .active ∧ t.state = .done) ∨
    (i = .passAbort ∧ s.state ≠ .fault ∧ t.state = .idle)

/-- R65: each of the four answering commands produces exactly one word when it completes without a fault, no
other command and no command that faults produces any, in FAULT only CSR_RD does, and the host removes the word
at the head of a RESPQ that holds one (what it finds in an empty RESPQ, the spec does not say and this does not
state). -/
def Obligations.ResponsesComeOneByOneInOrder : Prop :=
  (∀ (i : Instr) (s t : State), exec i s = .next t →
    (responds i = true → t.state ≠ .fault → ∃ v, t.respq = s.respq ++ [v]) ∧
    (isCsrRd i = true → ∃ v, t.respq = s.respq ++ [v]) ∧
    (responds i = false → t.respq = s.respq) ∧
    (isCsrRd i = false → t.state = .fault → t.respq = s.respq)) ∧
  (∀ (s : State) (rest : List HostEvent) (v : Word) (words : List Word),
    s.inputs = .takeResponse :: rest → s.respq = v :: words →
    step s = .next { s with inputs := rest, respq := words })

/-! ## Pass control -/

/-- NOP outside FAULT changes nothing (44_pass_control.md R200). -/
def Obligations.NopChangesNothing : Prop :=
  ∀ s : State, s.state ≠ .fault → exec .nop s = .next s

/-- PASS_END of a complete pass, with room for its flush (44_pass_control.md R203, R204; 42_arithmetic_coder.md
R147): `Finish` leaves the coder, the payload is PEND + 4 bytes longer, and SINKQ gets RAW, the marker, the
big-endian length and the payload. -/
def Obligations.PassEndEmitsTheFrame : Prop :=
  ∀ s : State, s.state = .active → (∀ c, Finished s c) → 1 ≤ s.pend →
    s.out.length + s.pend + 4 ≤ s.params.outCap.val →
    ∃ (t : State) (b3 b2 b1 b0 : Byte), exec .passEnd s = .next t ∧ t.state = .done ∧ s.out <+: t.out ∧
      finish s.params s.coder = .ok t.coder ∧
      t.out.length = s.out.length + s.pend + 4 ∧ t.low = 0 ∧ t.cache = 0 ∧ t.pend = 1 ∧
      t.out.length = 2 ^ 24 * b3.toNat + 2 ^ 16 * b2.toNat + 2 ^ 8 * b1.toNat + b0.toNat ∧
      t.sinkq = s.sinkq ++ [.raw, .byte s.params.marker, .byte b3, .byte b2, .byte b1, .byte b0] ++
        t.out.map .byte ∧
      t = { s with state := .done, low := 0, cache := 0, pend := 1, out := t.out, sinkq := t.sinkq }

/-- PASS_END without room raises OUT_OVERFLOW and puts nothing in SINKQ (R203). -/
def Obligations.PassEndWithoutRoomOverflows : Prop :=
  ∀ s : State, s.state = .active → (∀ c, Finished s c) → 1 ≤ s.pend →
    s.params.outCap.val < s.out.length + s.pend + 4 →
    ∃ t, exec .passEnd s = .next t ∧ t.state = .fault ∧ t.fcode = .outOverflow ∧
      t.finfo = 0x08000000 ∧ t.sinkq = s.sinkq ∧ t.pt = s.pt ∧ t.row = s.row ∧ t.col = s.col

/-- PASS_ABORT (44_pass_control.md R205) discards the pass and keeps the tables, BLK, QT, WIDTH, NROWS, PTR,
LASTSEL, CODED_LEN, RESPQ, FCODE and FINFO. -/
def Obligations.PassAbortDiscardsThePass : Prop :=
  ∀ s : State, s.state ≠ .fault →
    ∃ t, exec .passAbort s = .next t ∧ t.state = .idle ∧ Cleared t ∧ t = onlyPass s t

/-- CSR_RD in every state appends the word of the status register map and changes nothing else (R43). -/
def Obligations.CsrRdReadsTheMap : Prop :=
  ∀ (s : State) (addr : BitVec 8), ∃ v : Word, v.toNat = csrValue s addr.toNat ∧
    exec (.csrRd addr) s = .next { s with respq := s.respq ++ [v] }

/-- OUT_POP takes the head of SINKQ, or answers 0 (44_pass_control.md R207). -/
def Obligations.OutPopTakesOneSymbol : Prop :=
  ∀ s : State, s.state ≠ .fault →
    (s.sinkq = [] → exec .outPop s = .next { s with respq := s.respq ++ [0] }) ∧
    (∀ rest, s.sinkq = .raw :: rest →
      exec .outPop s = .next { s with sinkq := rest, respq := s.respq ++ [0x300] }) ∧
    (∀ b rest, s.sinkq = .byte b :: rest →
      ∃ v : Word, v.toNat = 0x200 + b.toNat ∧
        exec .outPop s = .next { s with sinkq := rest, respq := s.respq ++ [v] })

/-! ## Selector -/

/-- CUR_W and CUR_H set the dimension and home the channel's cursor; every other register and the registers
of the other channels stay (41_position_selector.md R127, R128). -/
def Obligations.CursorCommandsSetAndHome : Prop :=
  ∀ (s : State) (ch : BitVec 2) (c : Chan) (imm : BitVec 16), Outside s → ch.toNat = c.val →
    (∃ t, exec (.curW ch imm) s = .next t ∧
      t = { s with width := t.width, row := t.row, col := t.col, blkpos := t.blkpos } ∧
      ∀ d : Chan, t.width[d] = (if d = c then imm else s.width[d]) ∧
        t.row[d] = (if d = c then 0 else s.row[d]) ∧ t.col[d] = (if d = c then 0 else s.col[d]) ∧
        t.blkpos[d] = if d = c then 0 else s.blkpos[d]) ∧
    (∃ t, exec (.curH ch imm) s = .next t ∧
      t = { s with nrows := t.nrows, row := t.row, col := t.col, blkpos := t.blkpos } ∧
      ∀ d : Chan, t.nrows[d] = (if d = c then imm else s.nrows[d]) ∧
        t.row[d] = (if d = c then 0 else s.row[d]) ∧ t.col[d] = (if d = c then 0 else s.col[d]) ∧
        t.blkpos[d] = if d = c then 0 else s.blkpos[d])

/-- SELECT answers 0x100 for a finished channel and else one of the six words of R129, and changes RESPQ only. -/
def Obligations.SelectReportsThePosition : Prop :=
  ∀ (s : State) (ch : BitVec 2) (c : Chan), s.state ≠ .fault → ch.toNat = c.val →
    ∃ v : Word, exec (.select ch) s = .next { s with respq := s.respq ++ [v] } ∧
      (Finished s c → v = 0x100) ∧
      (¬ Finished s c →
        (s.row[c] = 0 → s.col[c] = 0 → v = 0x00) ∧
        (s.width[c] ≠ 1 → s.row[c] = 0 → s.col[c] ≠ 0 → v = 0x29) ∧
        (s.width[c] = 1 → s.row[c] ≠ 0 → v = 0x12) ∧
        (s.width[c] ≠ 1 → s.row[c] ≠ 0 → s.col[c] = 0 → v = 0x33) ∧
        (s.width[c] ≠ 1 → s.row[c] ≠ 0 → s.col[c] ≠ 0 →
          s.col[c].toNat + 1 = s.width[c].toNat → v = 0x1D) ∧
        (s.width[c] ≠ 1 → s.row[c] ≠ 0 → s.col[c] ≠ 0 →
          s.col[c].toNat + 1 ≠ s.width[c].toNat → v = 0x3C))

/-- R124: for every width at least 1, row and column, the selector answers one of the six positions; for width 1
never mid-left, interior-middle or mid-right; SINGLE_COLUMN only for width 1, INTERIOR_MIDDLE only from width 3
on, MID_RIGHT only from width 2 on. -/
def Obligations.SelectorIsTotal : Prop :=
  ∀ w row col : Nat, 1 ≤ w → col < w →
    (∃ p, selectPosition w row col = p) ∧
    (w = 1 → selectPosition w row col = .corner ∨ selectPosition w row col = .singleColumn) ∧
    (selectPosition w row col = .singleColumn → w = 1) ∧
    (selectPosition w row col = .interiorMiddle → 3 ≤ w) ∧
    (selectPosition w row col = .midRight → 2 ≤ w)

/-- The source's rule for each position, and its label (R121): L, T, TR are the geometry of the block, but for
TOP_EDGE. -/
def Obligations.PositionsFollowTheGeometry : Prop :=
  ∀ w row col : Nat, 1 ≤ w → col < w →
    (selectPosition w row col = .corner ↔ row = 0 ∧ col = 0) ∧
    (selectPosition w row col = .topEdge ↔ row = 0 ∧ col ≠ 0) ∧
    (selectPosition w row col = .singleColumn ↔ w = 1 ∧ 0 < row) ∧
    (selectPosition w row col = .midLeft ↔ 0 < row ∧ col = 0 ∧ 1 < w) ∧
    (selectPosition w row col = .interiorMiddle ↔ 0 < row ∧ 0 < col ∧ col + 1 < w) ∧
    (selectPosition w row col = .midRight ↔ 0 < row ∧ col + 1 = w ∧ 1 < w) ∧
    (selectPosition w row col ≠ .topEdge →
      (selectPosition w row col).label = ⟨decide (0 < col), decide (0 < row), decide (0 < row ∧ col + 1 < w)⟩) ∧
    Position.topEdge.label = ⟨true, false, true⟩

/-- `Advance` walks a channel in raster order, one block at a time, and touches no other channel and no other
register (R125). -/
def Obligations.AdvanceWalksTheRaster : Prop :=
  ∀ (s : State) (c : Chan), s.col[c].toNat < s.width[c].toNat → s.row[c].toNat < s.nrows[c].toNat →
    (advance c s).row[c].toNat * s.width[c].toNat + (advance c s).col[c].toNat =
      s.row[c].toNat * s.width[c].toNat + s.col[c].toNat + 1 ∧
    (advance c s).col[c].toNat < s.width[c].toNat ∧
    (advance c s).row[c].toNat ≤ s.nrows[c].toNat ∧
    (advance c s).blkpos[c].toNat = (s.blkpos[c].toNat + 1) % 2 ^ 32 ∧
    (∀ d : Chan, d ≠ c → (advance c s).row[d] = s.row[d] ∧ (advance c s).col[d] = s.col[d] ∧
      (advance c s).blkpos[d] = s.blkpos[d]) ∧
    advance c s = { s with
      row := (advance c s).row, col := (advance c s).col, blkpos := (advance c s).blkpos }

/-- A channel is finished exactly when WIDTH · NROWS blocks of it were consumed (R33, R203), in every state
with the invariant. -/
def Obligations.FinishedMeansEveryBlockConsumed : Prop :=
  ∀ (s : State) (c : Chan), StateInv s →
    (Finished s c ↔ s.blkpos[c].toNat = s.width[c].toNat * s.nrows[c].toNat)

/-! ## Table manager -/

/-- PT_ADDR sets the pointer and nothing else (40_table_manager.md R109). -/
def Obligations.PtAddrSetsThePointer : Prop :=
  ∀ (s : State) (ch : BitVec 2) (pos : BitVec 3) (cell : BitVec 13) (r : CellRef), s.state ≠ .fault →
    ch.toNat = r.ch.val → pos.toNat = r.pos.code → cell.toNat = r.cell.val →
    exec (.ptAddr ch pos cell) s = .next { s with ptr := r }

/-- PT_WR writes the clamped value at PTR, leaves every other cell, and steps PTR within its table (R110). -/
def Obligations.PtWrWritesOneCell : Prop :=
  ∀ (s : State) (imm : BitVec 11), Outside s →
    ∃ t, exec (.ptWr imm) s = .next t ∧ t = { s with pt := t.pt, ptr := t.ptr } ∧
      (Memory.read t.pt s.ptr).toNat = min 2017 (max 31 imm.toNat) ∧
      (∀ r, r ≠ s.ptr → Memory.read t.pt r = Memory.read s.pt r) ∧
      t.ptr.ch = s.ptr.ch ∧ t.ptr.pos = s.ptr.pos ∧ t.ptr.cell.val = (s.ptr.cell.val + 1) % 4627

/-- PT_RD answers the cell at PTR, zero-extended, changes no cell, and steps PTR within its table (R111). -/
def Obligations.PtRdReadsOneCell : Prop :=
  ∀ s : State, s.state ≠ .fault →
    ∃ (t : State) (v : Word), exec .ptRd s = .next t ∧
      t = { s with ptr := t.ptr, respq := s.respq ++ [v] } ∧
      v.toNat = (Memory.read s.pt s.ptr).toNat ∧
      t.ptr.ch = s.ptr.ch ∧ t.ptr.pos = s.ptr.pos ∧ t.ptr.cell.val = (s.ptr.cell.val + 1) % 4627

/-- PT_INIT sets all cells, or those of PTR's table, to 1024, and changes nothing else (R112). -/
def Obligations.PtInitSetsCellsToTheInitialValue : Prop :=
  ∀ (s : State) (all : Bool), Outside s →
    ∃ t, exec (.ptInit all) s = .next t ∧ t = { s with pt := t.pt } ∧
      ∀ r, Memory.read t.pt r =
        if all = true ∨ (r.ch = s.ptr.ch ∧ r.pos = s.ptr.pos) then 1024 else Memory.read s.pt r

/-- What PT_WR writes at an address, PT_RD reads back, clamped (R109, R110, R111). -/
def Obligations.PtWrThenPtRdReturnsTheClampedValue : Prop :=
  ∀ (s : State) (ch : BitVec 2) (pos : BitVec 3) (cell : BitVec 13) (imm : BitVec 11), Outside s →
    (Instr.ptAddr ch pos cell).wellFormed = true →
    ∃ a b c d, exec (.ptAddr ch pos cell) s = .next a ∧ exec (.ptWr imm) a = .next b ∧
      exec (.ptAddr ch pos cell) b = .next c ∧ exec .ptRd c = .next d ∧
      ∃ v : Word, d.respq = s.respq ++ [v] ∧ v.toNat = min 2017 (max 31 imm.toNat)

/-- R104: on its domain `cell` is `base + (p · nbucket + b) · nidx + i`, and it is a bijection onto 0..4626. -/
def Obligations.CellAddressesAreABijection : Prop :=
  (∀ k p b i npos nbucket nidx base, (k, npos, nbucket, nidx, base) ∈ classTable →
    p < npos → b < nbucket → i < nidx → (cellAddr k p b i).val = base + (p * nbucket + b) * nidx + i) ∧
  (∀ k p b i k' p' b' i', InDomain k p b i → InDomain k' p' b' i' →
    cellAddr k p b i = cellAddr k' p' b' i' → k = k' ∧ p = p' ∧ b = b' ∧ i = i') ∧
  (∀ a : Fin 4627, ∃ k p b i, InDomain k p b i ∧ cellAddr k p b i = a) ∧
  (cellAddr .zf77 1 1 0 = 9 ∧ cellAddr .dcExp 0 0 3 = 395 ∧ cellAddr .exp77 48 0 0 = 3304 ∧
    cellAddr .zrunE 13 6 0 = 3534 ∧ cellAddr .signE 7 0 0 = 4606)

/-- R107: the bounds of adaptation (by the formula of R106), its two fixed points, the 127 decisions that reach
them from P_INIT, and that every cell is always in 31..2017: it is so at reset, and no step changes it. -/
def Obligations.AdaptationIsBounded : Prop :=
  (∀ p : Prob, (adapt p false).toNat = p.toNat + (2048 - p.toNat) / 32 ∧
    (adapt p true).toNat = p.toNat - p.toNat / 32) ∧
  (∀ (p : Prob) (bit : Bool), Prob.legal p → Prob.legal (adapt p bit)) ∧
  adapt 2017 false = 2017 ∧ adapt 31 true = 31 ∧
  (fun p => adapt p false)^[127] 1024 = 2017 ∧ (fun p => adapt p false)^[126] 1024 ≠ 2017 ∧
  (fun p => adapt p true)^[127] 1024 = 31 ∧ (fun p => adapt p true)^[126] 1024 ≠ 31 ∧
  Memory.legal State.reset.pt ∧
  ∀ s t : State, Memory.legal s.pt → step s = .next t → Memory.legal t.pt

/-- Two canonical Probability Table Sets with the same cells are the same data (the model's choice of form, log
entry 6). -/
def Obligations.EqualCellsAreEqualMemories : Prop :=
  ∀ m n : Memory, Memory.wf m → Memory.wf n → (∀ r, Memory.read m r = Memory.read n r) → m = n

/-! ## Coder -/

/-- ENC_BIT codes one decision (42_arithmetic_coder.md R144, R145, R149): the old value of the cell splits the
interval, the cell adapts, every other cell stays, and at most one byte leaves LOW. Room is asked for only where
the bytes held back are appended: without a shift, and with a shift that holds one more 0xFF back, the command
completes however full OUT is. -/
def Obligations.EncBitCodesOneDecision : Prop :=
  ∀ (s : State) (ch : BitVec 2) (pos : BitVec 3) (cell : BitVec 13) (bit : Bool) (r : CellRef),
    s.state = .active → ch.toNat = r.ch.val → pos.toNat = r.pos.code → cell.toNat = r.cell.val →
    s.coder.Legal → Prob.legal (Memory.read s.pt r) →
    let bound := s.range.toNat / 2048 * (Memory.read s.pt r).toNat
    let low := if bit then s.low.toNat + bound else s.low.toNat
    let range := if bit then s.range.toNat - bound else bound
    let carry := low / 2 ^ 32
    (range < 2 ^ 24 → low % 2 ^ 32 < 0xFF000000 ∨ carry = 1 →
      s.out.length + s.pend ≤ s.params.outCap.val) →
    ∃ t, exec (.encBit ch pos cell bit) s = .next t ∧
      t = { s with
        pt := t.pt, low := t.low, range := t.range, cache := t.cache, pend := t.pend, out := t.out } ∧
      (Memory.read t.pt r).toNat = (let p := (Memory.read s.pt r).toNat
        if bit then p - p / 32 else p + (2048 - p) / 32) ∧
      (∀ q, q ≠ r → Memory.read t.pt q = Memory.read s.pt q) ∧
      (2 ^ 24 ≤ range → t.low.toNat = low ∧ t.range.toNat = range ∧ t.cache = s.cache ∧
        t.pend = s.pend ∧ t.out = s.out) ∧
      (range < 2 ^ 24 → t.low.toNat = low % 2 ^ 24 * 2 ^ 8 ∧ t.range.toNat = range * 2 ^ 8 ∧
        (low % 2 ^ 32 < 0xFF000000 ∨ carry = 1 →
          t.out = s.out ++ BitVec.ofNat 8 (s.cache.toNat + carry) ::
            List.replicate (s.pend - 1) (BitVec.ofNat 8 (0xFF + carry)) ∧
          t.cache.toNat = low / 2 ^ 24 % 2 ^ 8 ∧ t.pend = 1) ∧
        (¬ (low % 2 ^ 32 < 0xFF000000 ∨ carry = 1) →
          t.out = s.out ∧ t.cache = s.cache ∧ t.pend = s.pend + 1))

/-- ENC_BIT that has to append more bytes than fit (R143, R145, R149; 60_exceptions.md R224): OUT_OVERFLOW, and
the writes made before the `Append` stay: the cell is adapted, the interval narrowed, RANGE shifted, the bytes
that fit appended; LOW is not shifted, CACHE and PEND are as before. -/
def Obligations.EncBitWithoutRoomOverflows : Prop :=
  ∀ (s : State) (ch : BitVec 2) (pos : BitVec 3) (cell : BitVec 13) (bit : Bool) (r : CellRef),
    s.state = .active → ch.toNat = r.ch.val → pos.toNat = r.pos.code → cell.toNat = r.cell.val →
    s.coder.Legal → Prob.legal (Memory.read s.pt r) →
    let bound := s.range.toNat / 2048 * (Memory.read s.pt r).toNat
    let low := if bit then s.low.toNat + bound else s.low.toNat
    let range := if bit then s.range.toNat - bound else bound
    let carry := low / 2 ^ 32
    range < 2 ^ 24 → low % 2 ^ 32 < 0xFF000000 ∨ carry = 1 →
    s.params.outCap.val < s.out.length + s.pend →
    ∃ t, exec (.encBit ch pos cell bit) s = .next t ∧
      t = { s with
        state := .fault, fcode := .outOverflow, finfo := encode (.encBit ch pos cell bit)
        pt := t.pt, low := t.low, range := t.range, out := t.out } ∧
      (Memory.read t.pt r).toNat = (let p := (Memory.read s.pt r).toNat
        if bit then p - p / 32 else p + (2048 - p) / 32) ∧
      (∀ q, q ≠ r → Memory.read t.pt q = Memory.read s.pt q) ∧
      t.low.toNat = low ∧ t.range.toNat = range * 2 ^ 8 ∧
      t.out.length = max s.out.length s.params.outCap.val ∧
      t.out <+: s.out ++ BitVec.ofNat 8 (s.cache.toNat + carry) ::
        List.replicate (s.pend - 1) (BitVec.ofNat 8 (0xFF + carry))

/-- The invariants of `Encode`, R146 (a) to (f): RANGE stays at least 2^24, LOW + RANGE below 2^33 and is never
raised by the narrowing, the loop runs at most once, both parts of the split are nonempty, and each shift makes
exactly one byte. -/
def Obligations.EncodeKeepsTheCoderInvariants : Prop :=
  ∀ (P : Params) (c : Coder) (p : Prob) (bit : Bool), c.Legal → Prob.legal p →
    0 < (bound c.range p).toNat ∧ (bound c.range p).toNat < c.range.toNat ∧
    (narrow p bit c).low.toNat + (narrow p bit c).range.toNat ≤ c.low.toNat + c.range.toNat ∧
    2 ^ 16 < (narrow p bit c).range.toNat ∧
    (∀ n, normalise P (n + 1) (narrow p bit c) = normalise P 1 (narrow p bit c)) ∧
    normalise P 1 (narrow p bit c) ≠ .stuck ∧
    (∀ d, normalise P 1 (narrow p bit c) = .done d → d.Legal ∧ c.out <+: d.out ∧
      d.out.length + d.pend = c.out.length + c.pend +
        (if (narrow p bit c).range.toNat < 2 ^ 24 then 1 else 0) ∧
      d.out.length ≤ c.out.length + c.pend)

/-- `ShiftLow` moves the top byte out of LOW without losing value (R144): the bytes appended so far, the bytes
held back and LOW, read as one big-endian number with its carry, grow by the factor 2^8 only. -/
def Obligations.ShiftLowKeepsTheCodeValue : Prop :=
  let value : Coder → Nat := fun c =>
    bigEndian (c.out ++ c.cache :: List.replicate (c.pend - 1) 0xFF) * 2 ^ 32 + c.low.toNat
  ∀ (P : Params) (c d : Coder), 1 ≤ c.pend → shiftLow P c = .ok d →
    (c.low.toNat < 2 ^ 32 ∨ c.cache.toNat ≠ 255) → value d = value c * 2 ^ 8

/-- After `Finish` LOW = 0, CACHE = 0, PEND = 1, RANGE is unchanged, the payload has grown by PEND + 4 bytes, and
read as a big-endian number it is the code value: the bytes held back followed by LOW, carry added (R147). -/
def Obligations.FinishFlushesTheCoder : Prop :=
  ∀ (P : Params) (c d : Coder), 1 ≤ c.pend → finish P c = .ok d →
    d.low = 0 ∧ d.cache = 0 ∧ d.pend = 1 ∧ d.range = c.range ∧ c.out <+: d.out ∧
      d.out.length = c.out.length + c.pend + 4 ∧
      (c.low.toNat < 2 ^ 32 ∨ c.cache.toNat ≠ 255 → bigEndian d.out =
        bigEndian (c.out ++ c.cache :: List.replicate (c.pend - 1) 0xFF) * 2 ^ 32 + c.low.toNat)

/-- R151: a decoder that starts from the same cells and mirrors `Encode` recovers every decision from the
payload. -/
def Obligations.PayloadDecodesToTheDecisions : Prop :=
  ∀ (P : Params) (pt : Memory) (ds : List (CellRef × Bool)) (e : Encoder) (c : Coder), Memory.legal pt →
    codeList P ds ⟨Coder.start, pt⟩ = .done e → finish P e.coder = .ok c →
    Mirror.decode (ds.map Prod.fst) (Mirror.start pt c.out) = ds.map Prod.snd

/-- OUT is append-only, and unchanged outside ACTIVE; PASS_BEGIN, PASS_ABORT and reset empty it; a length that
does not exceed OUT_CAP never does after a command (10_state.md R38). -/
def Obligations.OutIsAppendOnly : Prop :=
  (∀ (i : Instr) (s t : State), exec i s = .next t →
    (emptiesOut i = false → s.out <+: t.out) ∧
    (emptiesOut i = false → s.state ≠ .active → t.out = s.out) ∧
    (emptiesOut i = true → t.state ≠ .fault → t.out = []) ∧
    (s.out.length ≤ s.params.outCap.val → t.out.length ≤ t.params.outCap.val)) ∧
  (∀ (s : State) (rest : List HostEvent), s.inputs = .reset :: rest →
    ∃ t, step s = .next t ∧ t.out = [])

/-! ## Serializer -/

/-- QT_WR writes one step and nothing else (43_token_serializer.md R166). -/
def Obligations.QtWrWritesOneStep : Prop :=
  ∀ (s : State) (ch : BitVec 2) (c : Chan) (idx : BitVec 6) (imm : BitVec 16), Outside s →
    ch.toNat = c.val →
    ∃ t, exec (.qtWr ch idx imm) s = .next t ∧ t = { s with qt := t.qt } ∧
      ∀ (d : Chan) (z : ZIndex),
        t.qt[d][z] = if d = c ∧ z.val = idx.toNat then imm else s.qt[d][z]

/-- BLK_WR writes one coefficient and BLK_CLR clears all 64; nothing else changes (R167, R168). -/
def Obligations.BlockBufferCommands : Prop :=
  ∀ (s : State) (idx : BitVec 6) (imm : BitVec 16), s.state ≠ .fault →
    (∃ t, exec (.blkWr idx imm) s = .next t ∧ t = { s with blk := t.blk } ∧
      ∀ z : ZIndex, t.blk[z] = if z.val = idx.toNat then imm else s.blk[z]) ∧
    (∃ t, exec .blkClr s = .next t ∧ t = { s with blk := t.blk } ∧ ∀ z : ZIndex, t.blk[z] = 0)

/-- ENC_BLOCK of a channel that has a block left (43_token_serializer.md R169). LASTSEL and CODED_LEN take their
new values whatever follows. If all the decisions of the block are coded, in order, the command completes with
the cursor advanced. If an `Append` finds no room, OUT_OVERFLOW is raised inside one decision `d`: the decisions
before it are coded, of `d` itself stays what was written before that `Append`, OUT is full, and the cursor
stands where it was (60_exceptions.md R224). There is no third outcome; 2048 bytes beside those held back are
always room enough (R180); cells of no other table change (40_table_manager.md R101), and nothing else does. -/
def Obligations.EncBlockEncodesTheBlock : Prop :=
  ∀ (s : State) (ch : BitVec 2) (c : Chan), s.state = .active → ch.toNat = c.val → ¬ Finished s c →
    s.coder.Legal → Memory.legal s.pt →
    let pos := selectPosition s.width[c].toNat s.row[c].toNat s.col[c].toNat
    let ds := decisions s c pos
    ∃ (sel : BitVec 8) (len : BitVec 7),
      sel.toNat = pos.code + 8 * pos.label.left.toNat + 16 * pos.label.top.toNat +
        32 * pos.label.topRight.toNat + 64 * c.val ∧
      len.toNat = codedLength s.blk ∧
      (∀ e, codeList s.params ds s.encoder = .done e →
        exec (.encBlock ch) s = .next { s with
          lastsel := sel, codedLen := len, pt := e.pt, low := e.coder.low, range := e.coder.range
          cache := e.coder.cache, pend := e.coder.pend, out := e.coder.out
          row := (advance c s).row, col := (advance c s).col, blkpos := (advance c s).blkpos }) ∧
      (∀ e, codeList s.params ds s.encoder = .overflow e →
        exec (.encBlock ch) s = .next { s with
          state := .fault, fcode := .outOverflow, finfo := encode (.encBlock ch)
          lastsel := sel, codedLen := len, pt := e.pt, low := e.coder.low, range := e.coder.range
          cache := e.coder.cache, pend := e.coder.pend, out := e.coder.out } ∧
        (∃ coded d rest e', ds = coded ++ d :: rest ∧ codeList s.params coded s.encoder = .done e' ∧
          encodeDecision s.params d.1 d.2 e' = .overflow e) ∧
        e.coder.out.length = max s.out.length s.params.outCap.val) ∧
      (∃ e, (codeList s.params ds s.encoder = .done e ∨ codeList s.params ds s.encoder = .overflow e) ∧
        s.out <+: e.coder.out ∧
        ∀ r, ¬ (r.ch = c ∧ r.pos = pos) → Memory.read e.pt r = Memory.read s.pt r) ∧
      (s.out.length + s.pend + 2048 ≤ s.params.outCap.val →
        ∃ e, codeList s.params ds s.encoder = .done e)

/-- The coded length is 0 for an all-zero block, else one plus the greatest index of a nonzero
coefficient, and at most 64 (10_state.md R35). -/
def Obligations.CodedLengthIsTheLastNonzero : Prop :=
  ∀ blk : Vector Half 64,
    ((∀ z : ZIndex, blk[z] = 0) → codedLength blk = 0) ∧
    (∀ z : ZIndex, blk[z] ≠ 0 → (∀ y : ZIndex, z < y → blk[y] = 0) → codedLength blk = z.val + 1) ∧
    codedLength blk ≤ 64

/-- The values of THR that R171 lists for every step. -/
def Obligations.ThresholdsOfAllSteps : Prop :=
  ∀ q : Half,
    (q.toNat ≤ 1 → thr q = 4) ∧ (2 ≤ q.toNat → q.toNat ≤ 3 → thr q = 3) ∧
    (4 ≤ q.toNat → q.toNat ≤ 7 → thr q = 2) ∧ (8 ≤ q.toNat → q.toNat ≤ 15 → thr q = 1) ∧
    (16 ≤ q.toNat → thr q = 0)

/-- Every decision of every block uses a cell in the domain of `cell` (40_table_manager.md R104;
43_token_serializer.md R173 to R177). -/
def Obligations.DecisionsUseLegalCells : Prop :=
  ∀ (blk qt : Vector Half 64) (t : Token), t ∈ tokens blk qt → InDomain t.cls t.p t.b t.i

/-- A block makes at least 64 decisions and at most 2048; 64 if it is all zero, 2048 if all its coefficients are
−32768 (43_token_serializer.md R180). -/
def Obligations.BlocksMake64To2048Decisions : Prop :=
  (∀ blk qt : Vector Half 64, 64 ≤ (tokens blk qt).length ∧ (tokens blk qt).length ≤ 2048) ∧
  (∀ (blk qt : Vector Half 64), (∀ z : ZIndex, blk[z] = 0) → (tokens blk qt).length = 64) ∧
  (∀ (blk qt : Vector Half 64), (∀ z : ZIndex, blk[z] = 0x8000) → (tokens blk qt).length = 2048)

/-- Causality (43_token_serializer.md R178). Under the same steps, as long as the decisions of two blocks agree,
the next decision of both is coded in the same class, position, bucket and index: a decoder knows every context before it reads the
decision. -/
def Obligations.ContextsAreCausal : Prop :=
  ∀ (blk blk' qt : Vector Half 64) (n : Nat),
    ((tokens blk qt).take n).map Token.bit = ((tokens blk' qt).take n).map Token.bit →
    ((tokens blk qt).take (n + 1)).map context = ((tokens blk' qt).take (n + 1)).map context

/-- The decisions losslessly describe all 64 coefficients (43_token_serializer.md R179): two blocks with the
same decisions are the same block, whatever the steps. -/
def Obligations.DecisionsDetermineTheBlock : Prop :=
  ∀ (blk blk' qt qt' : Vector Half 64),
    (tokens blk qt).map Token.bit = (tokens blk' qt').map Token.bit → blk = blk'

/-! ## Whole machine -/

/-- The reset state has the invariant. -/
def Obligations.ResetHasTheInvariant : Prop := StateInv State.reset

/-- Every step keeps the invariant, from every state that has it: PT canonical and every cell in 31..2017, the
coder's invariants outside FAULT, OUT within OUT_CAP, the cursors legal and BLKPOS the count of blocks, FCODE
nonzero exactly in FAULT, no frame waiting in IDLE and ACTIVE, SINKQ the rest of the one frame in DONE,
CODED_LEN at most 64 (10_state.md R26, R31, R32, R35 to R38, R40, R41; 42_arithmetic_coder.md R146). -/
def Obligations.StepKeepsTheInvariant : Prop :=
  ∀ s t : State, StateInv s → step s = .next t → StateInv t

/-- From a state with the invariant a step always completes: the coder is total (R150) and every command
terminates (R268). -/
def Obligations.StepAlwaysCompletes : Prop :=
  ∀ s : State, StateInv s → ∃ t, step s = .next t

/-- No step changes the parameters MARKER and OUT_CAP (00_scope.md R12; 70_reset_and_hazards.md R251). -/
def Obligations.NoStepChangesTheParameters : Prop :=
  ∀ s t : State, step s = .next t → t.params = s.params

/-- Which commands may change what: BLK by BLK_WR and BLK_CLR only (10_state.md R23), QT by QT_WR only (R24), cells
by PT_WR, PT_INIT, cold PASS_BEGIN, ENC_BIT and ENC_BLOCK only (R27), PTR by PT_ADDR, PT_WR and PT_RD only (R28),
LASTSEL and CODED_LEN by ENC_BLOCK only (R34, R35), WIDTH and NROWS by CUR_W and CUR_H only (R30). -/
def Obligations.OnlyTheNamedCommandsWrite : Prop :=
  ∀ (i : Instr) (s t : State), exec i s = .next t →
    (t.blk ≠ s.blk → (∃ z v, i = .blkWr z v) ∨ i = .blkClr) ∧
    (t.qt ≠ s.qt → ∃ c z v, i = .qtWr c z v) ∧
    (t.pt ≠ s.pt → (∃ v, i = .ptWr v) ∨ (∃ all, i = .ptInit all) ∨ i = .passBegin false ∨
      (∃ c p a b, i = .encBit c p a b) ∨ ∃ c, i = .encBlock c) ∧
    (t.ptr ≠ s.ptr → (∃ c p a, i = .ptAddr c p a) ∨ (∃ v, i = .ptWr v) ∨ i = .ptRd) ∧
    (t.lastsel ≠ s.lastsel ∨ t.codedLen ≠ s.codedLen → ∃ c, i = .encBlock c) ∧
    (t.width ≠ s.width → ∃ c v, i = .curW c v) ∧ (t.nrows ≠ s.nrows → ∃ c v, i = .curH c v)

/-- Adaptive isolation (40_table_manager.md R108): beside PT_INIT 1 and a cold PASS_BEGIN, which write every
table, a command changes cells of the table it names only (`tableOf`), OUT_OVERFLOW included, and a command that
names none changes no cell. -/
def Obligations.CodingTouchesOneTable : Prop :=
  ∀ (i : Instr) (s t : State), exec i s = .next t → i ≠ .ptInit true → i ≠ .passBegin false →
    ∀ r : CellRef, tableOf s i ≠ some (r.ch, r.pos) → Memory.read t.pt r = Memory.read s.pt r

/-- The first payload byte of every pass is 0x00 (42_arithmetic_coder.md R148): the property that carries it is
kept by every step, and it says so of the finished payload. -/
def Obligations.FirstPayloadByteStaysZero : Prop :=
  ∀ s t : State, StateInv s → (s.state = .active → PayloadStart s.coder) →
    (s.state = .done → s.out.head? = some 0) → step s = .next t →
    (t.state = .active → PayloadStart t.coder) ∧ (t.state = .done → t.out.head? = some 0)

/-- Determinism of cold passes (40_table_manager.md R113): a run that starts with a cold PASS_BEGIN depends on
the geometry, the steps, the block buffer and the table pointer as they stand, and on the host's events; not
on what earlier passes left in the tables, the coder, the queues or the fault registers. The spec's sentence
names the first two only; a host may let ENC_BLOCK code a stale BLK (R260) and PT_WR use a stale PTR (R266),
so the model's statement names those too (log entry 17). -/
def Obligations.ColdPassesAreDeterministic : Prop :=
  ∀ (s t : State) (rest : List HostEvent) (k : Nat) (s' : State), Outside s → Outside t →
    s.inputs = .word 0x04000000 :: rest → t.inputs = s.inputs → s.blk = t.blk → s.qt = t.qt →
    s.ptr = t.ptr → s.width = t.width → s.nrows = t.nrows → s.params = t.params →
    Host.Core.run Sys2Proof.core (k + 1) s = .next s' →
    ∃ t', Host.Core.run Sys2Proof.core (k + 1) t = .next t' ∧ SamePass s' t'
end

