-- ==== Sys2Proof/Laws/State.lean ====
section
/-! SUPPORT. What each named update of the state does to each field: one lemma per field per update, true by
rfl, so that no proof unfolds a record update. -/

namespace Sys2Proof.Machine

variable (s : State)

/-! resp -/

section
variable (v : Word)

@[simp] theorem resp_state : (resp v s).state = s.state := rfl
@[simp] theorem resp_fcode : (resp v s).fcode = s.fcode := rfl
@[simp] theorem resp_finfo : (resp v s).finfo = s.finfo := rfl
@[simp] theorem resp_blk : (resp v s).blk = s.blk := rfl
@[simp] theorem resp_qt : (resp v s).qt = s.qt := rfl
@[simp] theorem resp_pt : (resp v s).pt = s.pt := rfl
@[simp] theorem resp_ptr : (resp v s).ptr = s.ptr := rfl
@[simp] theorem resp_width : (resp v s).width = s.width := rfl
@[simp] theorem resp_nrows : (resp v s).nrows = s.nrows := rfl
@[simp] theorem resp_row : (resp v s).row = s.row := rfl
@[simp] theorem resp_col : (resp v s).col = s.col := rfl
@[simp] theorem resp_blkpos : (resp v s).blkpos = s.blkpos := rfl
@[simp] theorem resp_lastsel : (resp v s).lastsel = s.lastsel := rfl
@[simp] theorem resp_codedLen : (resp v s).codedLen = s.codedLen := rfl
@[simp] theorem resp_low : (resp v s).low = s.low := rfl
@[simp] theorem resp_range : (resp v s).range = s.range := rfl
@[simp] theorem resp_cache : (resp v s).cache = s.cache := rfl
@[simp] theorem resp_pend : (resp v s).pend = s.pend := rfl
@[simp] theorem resp_out : (resp v s).out = s.out := rfl
@[simp] theorem resp_sinkq : (resp v s).sinkq = s.sinkq := rfl
@[simp] theorem resp_respq : (resp v s).respq = s.respq ++ [v] := rfl
@[simp] theorem resp_params : (resp v s).params = s.params := rfl
@[simp] theorem resp_inputs : (resp v s).inputs = s.inputs := rfl
@[simp] theorem resp_coder : (resp v s).coder = s.coder := rfl

end

/-! sinkAll -/

section
variable (l : List Symbol)

@[simp] theorem sinkAll_state : (sinkAll l s).state = s.state := rfl
@[simp] theorem sinkAll_fcode : (sinkAll l s).fcode = s.fcode := rfl
@[simp] theorem sinkAll_finfo : (sinkAll l s).finfo = s.finfo := rfl
@[simp] theorem sinkAll_blk : (sinkAll l s).blk = s.blk := rfl
@[simp] theorem sinkAll_qt : (sinkAll l s).qt = s.qt := rfl
@[simp] theorem sinkAll_pt : (sinkAll l s).pt = s.pt := rfl
@[simp] theorem sinkAll_ptr : (sinkAll l s).ptr = s.ptr := rfl
@[simp] theorem sinkAll_width : (sinkAll l s).width = s.width := rfl
@[simp] theorem sinkAll_nrows : (sinkAll l s).nrows = s.nrows := rfl
@[simp] theorem sinkAll_row : (sinkAll l s).row = s.row := rfl
@[simp] theorem sinkAll_col : (sinkAll l s).col = s.col := rfl
@[simp] theorem sinkAll_blkpos : (sinkAll l s).blkpos = s.blkpos := rfl
@[simp] theorem sinkAll_lastsel : (sinkAll l s).lastsel = s.lastsel := rfl
@[simp] theorem sinkAll_codedLen : (sinkAll l s).codedLen = s.codedLen := rfl
@[simp] theorem sinkAll_low : (sinkAll l s).low = s.low := rfl
@[simp] theorem sinkAll_range : (sinkAll l s).range = s.range := rfl
@[simp] theorem sinkAll_cache : (sinkAll l s).cache = s.cache := rfl
@[simp] theorem sinkAll_pend : (sinkAll l s).pend = s.pend := rfl
@[simp] theorem sinkAll_out : (sinkAll l s).out = s.out := rfl
@[simp] theorem sinkAll_sinkq : (sinkAll l s).sinkq = s.sinkq ++ l := rfl
@[simp] theorem sinkAll_respq : (sinkAll l s).respq = s.respq := rfl
@[simp] theorem sinkAll_params : (sinkAll l s).params = s.params := rfl
@[simp] theorem sinkAll_inputs : (sinkAll l s).inputs = s.inputs := rfl
@[simp] theorem sinkAll_coder : (sinkAll l s).coder = s.coder := rfl

end

/-! homeCursor -/

section
variable (ch : Chan)

@[simp] theorem homeCursor_state : (homeCursor ch s).state = s.state := rfl
@[simp] theorem homeCursor_fcode : (homeCursor ch s).fcode = s.fcode := rfl
@[simp] theorem homeCursor_finfo : (homeCursor ch s).finfo = s.finfo := rfl
@[simp] theorem homeCursor_blk : (homeCursor ch s).blk = s.blk := rfl
@[simp] theorem homeCursor_qt : (homeCursor ch s).qt = s.qt := rfl
@[simp] theorem homeCursor_pt : (homeCursor ch s).pt = s.pt := rfl
@[simp] theorem homeCursor_ptr : (homeCursor ch s).ptr = s.ptr := rfl
@[simp] theorem homeCursor_width : (homeCursor ch s).width = s.width := rfl
@[simp] theorem homeCursor_nrows : (homeCursor ch s).nrows = s.nrows := rfl
@[simp] theorem homeCursor_row : (homeCursor ch s).row = s.row.set ch 0 := rfl
@[simp] theorem homeCursor_col : (homeCursor ch s).col = s.col.set ch 0 := rfl
@[simp] theorem homeCursor_blkpos : (homeCursor ch s).blkpos = s.blkpos.set ch 0 := rfl
@[simp] theorem homeCursor_lastsel : (homeCursor ch s).lastsel = s.lastsel := rfl
@[simp] theorem homeCursor_codedLen : (homeCursor ch s).codedLen = s.codedLen := rfl
@[simp] theorem homeCursor_low : (homeCursor ch s).low = s.low := rfl
@[simp] theorem homeCursor_range : (homeCursor ch s).range = s.range := rfl
@[simp] theorem homeCursor_cache : (homeCursor ch s).cache = s.cache := rfl
@[simp] theorem homeCursor_pend : (homeCursor ch s).pend = s.pend := rfl
@[simp] theorem homeCursor_out : (homeCursor ch s).out = s.out := rfl
@[simp] theorem homeCursor_sinkq : (homeCursor ch s).sinkq = s.sinkq := rfl
@[simp] theorem homeCursor_respq : (homeCursor ch s).respq = s.respq := rfl
@[simp] theorem homeCursor_params : (homeCursor ch s).params = s.params := rfl
@[simp] theorem homeCursor_inputs : (homeCursor ch s).inputs = s.inputs := rfl
@[simp] theorem homeCursor_coder : (homeCursor ch s).coder = s.coder := rfl

end

/-! homeAllCursors -/

@[simp] theorem homeAllCursors_state : (homeAllCursors s).state = s.state := rfl
@[simp] theorem homeAllCursors_fcode : (homeAllCursors s).fcode = s.fcode := rfl
@[simp] theorem homeAllCursors_finfo : (homeAllCursors s).finfo = s.finfo := rfl
@[simp] theorem homeAllCursors_blk : (homeAllCursors s).blk = s.blk := rfl
@[simp] theorem homeAllCursors_qt : (homeAllCursors s).qt = s.qt := rfl
@[simp] theorem homeAllCursors_pt : (homeAllCursors s).pt = s.pt := rfl
@[simp] theorem homeAllCursors_ptr : (homeAllCursors s).ptr = s.ptr := rfl
@[simp] theorem homeAllCursors_width : (homeAllCursors s).width = s.width := rfl
@[simp] theorem homeAllCursors_nrows : (homeAllCursors s).nrows = s.nrows := rfl
@[simp] theorem homeAllCursors_row : (homeAllCursors s).row = .replicate 3 0 := rfl
@[simp] theorem homeAllCursors_col : (homeAllCursors s).col = .replicate 3 0 := rfl
@[simp] theorem homeAllCursors_blkpos : (homeAllCursors s).blkpos = .replicate 3 0 := rfl
@[simp] theorem homeAllCursors_lastsel : (homeAllCursors s).lastsel = s.lastsel := rfl
@[simp] theorem homeAllCursors_codedLen : (homeAllCursors s).codedLen = s.codedLen := rfl
@[simp] theorem homeAllCursors_low : (homeAllCursors s).low = s.low := rfl
@[simp] theorem homeAllCursors_range : (homeAllCursors s).range = s.range := rfl
@[simp] theorem homeAllCursors_cache : (homeAllCursors s).cache = s.cache := rfl
@[simp] theorem homeAllCursors_pend : (homeAllCursors s).pend = s.pend := rfl
@[simp] theorem homeAllCursors_out : (homeAllCursors s).out = s.out := rfl
@[simp] theorem homeAllCursors_sinkq : (homeAllCursors s).sinkq = s.sinkq := rfl
@[simp] theorem homeAllCursors_respq : (homeAllCursors s).respq = s.respq := rfl
@[simp] theorem homeAllCursors_params : (homeAllCursors s).params = s.params := rfl
@[simp] theorem homeAllCursors_inputs : (homeAllCursors s).inputs = s.inputs := rfl
@[simp] theorem homeAllCursors_coder : (homeAllCursors s).coder = s.coder := rfl

/-! raiseFault -/

section
variable (f : FaultCode) (w : Word)

@[simp] theorem raiseFault_state : (raiseFault f w s).state = .fault := rfl
@[simp] theorem raiseFault_fcode : (raiseFault f w s).fcode = f := rfl
@[simp] theorem raiseFault_finfo : (raiseFault f w s).finfo = w := rfl
@[simp] theorem raiseFault_blk : (raiseFault f w s).blk = s.blk := rfl
@[simp] theorem raiseFault_qt : (raiseFault f w s).qt = s.qt := rfl
@[simp] theorem raiseFault_pt : (raiseFault f w s).pt = s.pt := rfl
@[simp] theorem raiseFault_ptr : (raiseFault f w s).ptr = s.ptr := rfl
@[simp] theorem raiseFault_width : (raiseFault f w s).width = s.width := rfl
@[simp] theorem raiseFault_nrows : (raiseFault f w s).nrows = s.nrows := rfl
@[simp] theorem raiseFault_row : (raiseFault f w s).row = s.row := rfl
@[simp] theorem raiseFault_col : (raiseFault f w s).col = s.col := rfl
@[simp] theorem raiseFault_blkpos : (raiseFault f w s).blkpos = s.blkpos := rfl
@[simp] theorem raiseFault_lastsel : (raiseFault f w s).lastsel = s.lastsel := rfl
@[simp] theorem raiseFault_codedLen : (raiseFault f w s).codedLen = s.codedLen := rfl
@[simp] theorem raiseFault_low : (raiseFault f w s).low = s.low := rfl
@[simp] theorem raiseFault_range : (raiseFault f w s).range = s.range := rfl
@[simp] theorem raiseFault_cache : (raiseFault f w s).cache = s.cache := rfl
@[simp] theorem raiseFault_pend : (raiseFault f w s).pend = s.pend := rfl
@[simp] theorem raiseFault_out : (raiseFault f w s).out = s.out := rfl
@[simp] theorem raiseFault_sinkq : (raiseFault f w s).sinkq = s.sinkq := rfl
@[simp] theorem raiseFault_respq : (raiseFault f w s).respq = s.respq := rfl
@[simp] theorem raiseFault_params : (raiseFault f w s).params = s.params := rfl
@[simp] theorem raiseFault_inputs : (raiseFault f w s).inputs = s.inputs := rfl
@[simp] theorem raiseFault_coder : (raiseFault f w s).coder = s.coder := rfl

end

/-! takeResponse -/

@[simp] theorem takeResponse_state : (takeResponse s).state = s.state := rfl
@[simp] theorem takeResponse_fcode : (takeResponse s).fcode = s.fcode := rfl
@[simp] theorem takeResponse_finfo : (takeResponse s).finfo = s.finfo := rfl
@[simp] theorem takeResponse_blk : (takeResponse s).blk = s.blk := rfl
@[simp] theorem takeResponse_qt : (takeResponse s).qt = s.qt := rfl
@[simp] theorem takeResponse_pt : (takeResponse s).pt = s.pt := rfl
@[simp] theorem takeResponse_ptr : (takeResponse s).ptr = s.ptr := rfl
@[simp] theorem takeResponse_width : (takeResponse s).width = s.width := rfl
@[simp] theorem takeResponse_nrows : (takeResponse s).nrows = s.nrows := rfl
@[simp] theorem takeResponse_row : (takeResponse s).row = s.row := rfl
@[simp] theorem takeResponse_col : (takeResponse s).col = s.col := rfl
@[simp] theorem takeResponse_blkpos : (takeResponse s).blkpos = s.blkpos := rfl
@[simp] theorem takeResponse_lastsel : (takeResponse s).lastsel = s.lastsel := rfl
@[simp] theorem takeResponse_codedLen : (takeResponse s).codedLen = s.codedLen := rfl
@[simp] theorem takeResponse_low : (takeResponse s).low = s.low := rfl
@[simp] theorem takeResponse_range : (takeResponse s).range = s.range := rfl
@[simp] theorem takeResponse_cache : (takeResponse s).cache = s.cache := rfl
@[simp] theorem takeResponse_pend : (takeResponse s).pend = s.pend := rfl
@[simp] theorem takeResponse_out : (takeResponse s).out = s.out := rfl
@[simp] theorem takeResponse_sinkq : (takeResponse s).sinkq = s.sinkq := rfl
@[simp] theorem takeResponse_respq : (takeResponse s).respq = s.respq.tail := rfl
@[simp] theorem takeResponse_params : (takeResponse s).params = s.params := rfl
@[simp] theorem takeResponse_inputs : (takeResponse s).inputs = s.inputs := rfl
@[simp] theorem takeResponse_coder : (takeResponse s).coder = s.coder := rfl

/-! offerWord -/

section
variable (w : Word)

@[simp] theorem offerWord_state : (offerWord w s).state = s.state := rfl
@[simp] theorem offerWord_fcode : (offerWord w s).fcode = s.fcode := rfl
@[simp] theorem offerWord_finfo : (offerWord w s).finfo = s.finfo := rfl
@[simp] theorem offerWord_blk : (offerWord w s).blk = s.blk := rfl
@[simp] theorem offerWord_qt : (offerWord w s).qt = s.qt := rfl
@[simp] theorem offerWord_pt : (offerWord w s).pt = s.pt := rfl
@[simp] theorem offerWord_ptr : (offerWord w s).ptr = s.ptr := rfl
@[simp] theorem offerWord_width : (offerWord w s).width = s.width := rfl
@[simp] theorem offerWord_nrows : (offerWord w s).nrows = s.nrows := rfl
@[simp] theorem offerWord_row : (offerWord w s).row = s.row := rfl
@[simp] theorem offerWord_col : (offerWord w s).col = s.col := rfl
@[simp] theorem offerWord_blkpos : (offerWord w s).blkpos = s.blkpos := rfl
@[simp] theorem offerWord_lastsel : (offerWord w s).lastsel = s.lastsel := rfl
@[simp] theorem offerWord_codedLen : (offerWord w s).codedLen = s.codedLen := rfl
@[simp] theorem offerWord_low : (offerWord w s).low = s.low := rfl
@[simp] theorem offerWord_range : (offerWord w s).range = s.range := rfl
@[simp] theorem offerWord_cache : (offerWord w s).cache = s.cache := rfl
@[simp] theorem offerWord_pend : (offerWord w s).pend = s.pend := rfl
@[simp] theorem offerWord_out : (offerWord w s).out = s.out := rfl
@[simp] theorem offerWord_sinkq : (offerWord w s).sinkq = s.sinkq := rfl
@[simp] theorem offerWord_respq : (offerWord w s).respq = s.respq := rfl
@[simp] theorem offerWord_params : (offerWord w s).params = s.params := rfl
@[simp] theorem offerWord_inputs : (offerWord w s).inputs = .word w :: s.inputs := rfl
@[simp] theorem offerWord_coder : (offerWord w s).coder = s.coder := rfl

end

/-! withCoder -/

section
variable (c : Coder)

@[simp] theorem withCoder_state : (s.withCoder c).state = s.state := rfl
@[simp] theorem withCoder_fcode : (s.withCoder c).fcode = s.fcode := rfl
@[simp] theorem withCoder_finfo : (s.withCoder c).finfo = s.finfo := rfl
@[simp] theorem withCoder_blk : (s.withCoder c).blk = s.blk := rfl
@[simp] theorem withCoder_qt : (s.withCoder c).qt = s.qt := rfl
@[simp] theorem withCoder_pt : (s.withCoder c).pt = s.pt := rfl
@[simp] theorem withCoder_ptr : (s.withCoder c).ptr = s.ptr := rfl
@[simp] theorem withCoder_width : (s.withCoder c).width = s.width := rfl
@[simp] theorem withCoder_nrows : (s.withCoder c).nrows = s.nrows := rfl
@[simp] theorem withCoder_row : (s.withCoder c).row = s.row := rfl
@[simp] theorem withCoder_col : (s.withCoder c).col = s.col := rfl
@[simp] theorem withCoder_blkpos : (s.withCoder c).blkpos = s.blkpos := rfl
@[simp] theorem withCoder_lastsel : (s.withCoder c).lastsel = s.lastsel := rfl
@[simp] theorem withCoder_codedLen : (s.withCoder c).codedLen = s.codedLen := rfl
@[simp] theorem withCoder_low : (s.withCoder c).low = c.low := rfl
@[simp] theorem withCoder_range : (s.withCoder c).range = c.range := rfl
@[simp] theorem withCoder_cache : (s.withCoder c).cache = c.cache := rfl
@[simp] theorem withCoder_pend : (s.withCoder c).pend = c.pend := rfl
@[simp] theorem withCoder_out : (s.withCoder c).out = c.out := rfl
@[simp] theorem withCoder_sinkq : (s.withCoder c).sinkq = s.sinkq := rfl
@[simp] theorem withCoder_respq : (s.withCoder c).respq = s.respq := rfl
@[simp] theorem withCoder_params : (s.withCoder c).params = s.params := rfl
@[simp] theorem withCoder_inputs : (s.withCoder c).inputs = s.inputs := rfl
@[simp] theorem withCoder_coder : (s.withCoder c).coder = c := rfl

end

/-! withEncoder -/

section
variable (e : Encoder)

@[simp] theorem withEncoder_state : (s.withEncoder e).state = s.state := rfl
@[simp] theorem withEncoder_fcode : (s.withEncoder e).fcode = s.fcode := rfl
@[simp] theorem withEncoder_finfo : (s.withEncoder e).finfo = s.finfo := rfl
@[simp] theorem withEncoder_blk : (s.withEncoder e).blk = s.blk := rfl
@[simp] theorem withEncoder_qt : (s.withEncoder e).qt = s.qt := rfl
@[simp] theorem withEncoder_pt : (s.withEncoder e).pt = e.pt := rfl
@[simp] theorem withEncoder_ptr : (s.withEncoder e).ptr = s.ptr := rfl
@[simp] theorem withEncoder_width : (s.withEncoder e).width = s.width := rfl
@[simp] theorem withEncoder_nrows : (s.withEncoder e).nrows = s.nrows := rfl
@[simp] theorem withEncoder_row : (s.withEncoder e).row = s.row := rfl
@[simp] theorem withEncoder_col : (s.withEncoder e).col = s.col := rfl
@[simp] theorem withEncoder_blkpos : (s.withEncoder e).blkpos = s.blkpos := rfl
@[simp] theorem withEncoder_lastsel : (s.withEncoder e).lastsel = s.lastsel := rfl
@[simp] theorem withEncoder_codedLen : (s.withEncoder e).codedLen = s.codedLen := rfl
@[simp] theorem withEncoder_low : (s.withEncoder e).low = e.coder.low := rfl
@[simp] theorem withEncoder_range : (s.withEncoder e).range = e.coder.range := rfl
@[simp] theorem withEncoder_cache : (s.withEncoder e).cache = e.coder.cache := rfl
@[simp] theorem withEncoder_pend : (s.withEncoder e).pend = e.coder.pend := rfl
@[simp] theorem withEncoder_out : (s.withEncoder e).out = e.coder.out := rfl
@[simp] theorem withEncoder_sinkq : (s.withEncoder e).sinkq = s.sinkq := rfl
@[simp] theorem withEncoder_respq : (s.withEncoder e).respq = s.respq := rfl
@[simp] theorem withEncoder_params : (s.withEncoder e).params = s.params := rfl
@[simp] theorem withEncoder_inputs : (s.withEncoder e).inputs = s.inputs := rfl
@[simp] theorem withEncoder_coder : (s.withEncoder e).coder = e.coder := rfl
@[simp] theorem withEncoder_encoder : (s.withEncoder e).encoder = e := rfl

end

/-! clearPass -/

@[simp] theorem clearPass_state : (clearPass s).state = s.state := rfl
@[simp] theorem clearPass_fcode : (clearPass s).fcode = s.fcode := rfl
@[simp] theorem clearPass_finfo : (clearPass s).finfo = s.finfo := rfl
@[simp] theorem clearPass_blk : (clearPass s).blk = s.blk := rfl
@[simp] theorem clearPass_qt : (clearPass s).qt = s.qt := rfl
@[simp] theorem clearPass_pt : (clearPass s).pt = s.pt := rfl
@[simp] theorem clearPass_ptr : (clearPass s).ptr = s.ptr := rfl
@[simp] theorem clearPass_width : (clearPass s).width = s.width := rfl
@[simp] theorem clearPass_nrows : (clearPass s).nrows = s.nrows := rfl
@[simp] theorem clearPass_row : (clearPass s).row = .replicate 3 0 := rfl
@[simp] theorem clearPass_col : (clearPass s).col = .replicate 3 0 := rfl
@[simp] theorem clearPass_blkpos : (clearPass s).blkpos = .replicate 3 0 := rfl
@[simp] theorem clearPass_lastsel : (clearPass s).lastsel = s.lastsel := rfl
@[simp] theorem clearPass_codedLen : (clearPass s).codedLen = s.codedLen := rfl
@[simp] theorem clearPass_low : (clearPass s).low = 0 := rfl
@[simp] theorem clearPass_range : (clearPass s).range = 0xFFFFFFFF := rfl
@[simp] theorem clearPass_cache : (clearPass s).cache = 0 := rfl
@[simp] theorem clearPass_pend : (clearPass s).pend = 1 := rfl
@[simp] theorem clearPass_out : (clearPass s).out = [] := rfl
@[simp] theorem clearPass_sinkq : (clearPass s).sinkq = [] := rfl
@[simp] theorem clearPass_respq : (clearPass s).respq = s.respq := rfl
@[simp] theorem clearPass_params : (clearPass s).params = s.params := rfl
@[simp] theorem clearPass_inputs : (clearPass s).inputs = s.inputs := rfl
@[simp] theorem clearPass_coder : (clearPass s).coder = Coder.start := rfl

/-! recordBlock -/

section
variable (ch : Chan)

@[simp] theorem recordBlock_state : (recordBlock ch s).state = s.state := rfl
@[simp] theorem recordBlock_fcode : (recordBlock ch s).fcode = s.fcode := rfl
@[simp] theorem recordBlock_finfo : (recordBlock ch s).finfo = s.finfo := rfl
@[simp] theorem recordBlock_blk : (recordBlock ch s).blk = s.blk := rfl
@[simp] theorem recordBlock_qt : (recordBlock ch s).qt = s.qt := rfl
@[simp] theorem recordBlock_pt : (recordBlock ch s).pt = s.pt := rfl
@[simp] theorem recordBlock_ptr : (recordBlock ch s).ptr = s.ptr := rfl
@[simp] theorem recordBlock_width : (recordBlock ch s).width = s.width := rfl
@[simp] theorem recordBlock_nrows : (recordBlock ch s).nrows = s.nrows := rfl
@[simp] theorem recordBlock_row : (recordBlock ch s).row = s.row := rfl
@[simp] theorem recordBlock_col : (recordBlock ch s).col = s.col := rfl
@[simp] theorem recordBlock_blkpos : (recordBlock ch s).blkpos = s.blkpos := rfl
@[simp] theorem recordBlock_lastsel : (recordBlock ch s).lastsel = lastselWord ch (nextPosition s ch) := rfl
@[simp] theorem recordBlock_codedLen : (recordBlock ch s).codedLen = BitVec.ofNat 7 (codedLength s.blk) := rfl
@[simp] theorem recordBlock_low : (recordBlock ch s).low = s.low := rfl
@[simp] theorem recordBlock_range : (recordBlock ch s).range = s.range := rfl
@[simp] theorem recordBlock_cache : (recordBlock ch s).cache = s.cache := rfl
@[simp] theorem recordBlock_pend : (recordBlock ch s).pend = s.pend := rfl
@[simp] theorem recordBlock_out : (recordBlock ch s).out = s.out := rfl
@[simp] theorem recordBlock_sinkq : (recordBlock ch s).sinkq = s.sinkq := rfl
@[simp] theorem recordBlock_respq : (recordBlock ch s).respq = s.respq := rfl
@[simp] theorem recordBlock_params : (recordBlock ch s).params = s.params := rfl
@[simp] theorem recordBlock_inputs : (recordBlock ch s).inputs = s.inputs := rfl
@[simp] theorem recordBlock_coder : (recordBlock ch s).coder = s.coder := rfl

end

/-! hardwareReset -/

@[simp] theorem hardwareReset_state : (hardwareReset s).state = BlockState.reset.state := rfl
@[simp] theorem hardwareReset_fcode : (hardwareReset s).fcode = BlockState.reset.fcode := rfl
@[simp] theorem hardwareReset_finfo : (hardwareReset s).finfo = BlockState.reset.finfo := rfl
@[simp] theorem hardwareReset_blk : (hardwareReset s).blk = BlockState.reset.blk := rfl
@[simp] theorem hardwareReset_qt : (hardwareReset s).qt = BlockState.reset.qt := rfl
@[simp] theorem hardwareReset_pt : (hardwareReset s).pt = BlockState.reset.pt := rfl
@[simp] theorem hardwareReset_ptr : (hardwareReset s).ptr = BlockState.reset.ptr := rfl
@[simp] theorem hardwareReset_width : (hardwareReset s).width = BlockState.reset.width := rfl
@[simp] theorem hardwareReset_nrows : (hardwareReset s).nrows = BlockState.reset.nrows := rfl
@[simp] theorem hardwareReset_row : (hardwareReset s).row = BlockState.reset.row := rfl
@[simp] theorem hardwareReset_col : (hardwareReset s).col = BlockState.reset.col := rfl
@[simp] theorem hardwareReset_blkpos : (hardwareReset s).blkpos = BlockState.reset.blkpos := rfl
@[simp] theorem hardwareReset_lastsel : (hardwareReset s).lastsel = BlockState.reset.lastsel := rfl
@[simp] theorem hardwareReset_codedLen : (hardwareReset s).codedLen = BlockState.reset.codedLen := rfl
@[simp] theorem hardwareReset_low : (hardwareReset s).low = BlockState.reset.low := rfl
@[simp] theorem hardwareReset_range : (hardwareReset s).range = BlockState.reset.range := rfl
@[simp] theorem hardwareReset_cache : (hardwareReset s).cache = BlockState.reset.cache := rfl
@[simp] theorem hardwareReset_pend : (hardwareReset s).pend = BlockState.reset.pend := rfl
@[simp] theorem hardwareReset_out : (hardwareReset s).out = BlockState.reset.out := rfl
@[simp] theorem hardwareReset_sinkq : (hardwareReset s).sinkq = BlockState.reset.sinkq := rfl
@[simp] theorem hardwareReset_respq : (hardwareReset s).respq = BlockState.reset.respq := rfl
@[simp] theorem hardwareReset_params : (hardwareReset s).params = s.params := rfl
@[simp] theorem hardwareReset_inputs : (hardwareReset s).inputs = s.inputs := rfl
@[simp] theorem hardwareReset_toBlockState : (hardwareReset s).toBlockState = BlockState.reset := rfl

/-! advance: it moves the channel's ROW, COL and BLKPOS only -/

section
variable (ch : Chan)

theorem advance_blkpos : (advance ch s).blkpos = s.blkpos.set ch (s.blkpos[ch] + 1) := by
  unfold advance; dsimp only; split <;> rfl
theorem advance_col :
    (advance ch s).col = s.col.set ch (if s.col[ch] + 1 = s.width[ch] then 0 else s.col[ch] + 1) := by
  unfold advance; dsimp only; split <;> rfl
theorem advance_row :
    (advance ch s).row = if s.col[ch] + 1 = s.width[ch] then s.row.set ch (s.row[ch] + 1) else s.row := by
  unfold advance; dsimp only; split <;> rfl
@[simp] theorem advance_state : (advance ch s).state = s.state := by
  unfold advance; dsimp only; split <;> rfl
@[simp] theorem advance_fcode : (advance ch s).fcode = s.fcode := by
  unfold advance; dsimp only; split <;> rfl
@[simp] theorem advance_finfo : (advance ch s).finfo = s.finfo := by
  unfold advance; dsimp only; split <;> rfl
@[simp] theorem advance_blk : (advance ch s).blk = s.blk := by
  unfold advance; dsimp only; split <;> rfl
@[simp] theorem advance_qt : (advance ch s).qt = s.qt := by
  unfold advance; dsimp only; split <;> rfl
@[simp] theorem advance_pt : (advance ch s).pt = s.pt := by
  unfold advance; dsimp only; split <;> rfl
@[simp] theorem advance_ptr : (advance ch s).ptr = s.ptr := by
  unfold advance; dsimp only; split <;> rfl
@[simp] theorem advance_width : (advance ch s).width = s.width := by
  unfold advance; dsimp only; split <;> rfl
@[simp] theorem advance_nrows : (advance ch s).nrows = s.nrows := by
  unfold advance; dsimp only; split <;> rfl
@[simp] theorem advance_lastsel : (advance ch s).lastsel = s.lastsel := by
  unfold advance; dsimp only; split <;> rfl
@[simp] theorem advance_codedLen : (advance ch s).codedLen = s.codedLen := by
  unfold advance; dsimp only; split <;> rfl
@[simp] theorem advance_low : (advance ch s).low = s.low := by
  unfold advance; dsimp only; split <;> rfl
@[simp] theorem advance_range : (advance ch s).range = s.range := by
  unfold advance; dsimp only; split <;> rfl
@[simp] theorem advance_cache : (advance ch s).cache = s.cache := by
  unfold advance; dsimp only; split <;> rfl
@[simp] theorem advance_pend : (advance ch s).pend = s.pend := by
  unfold advance; dsimp only; split <;> rfl
@[simp] theorem advance_out : (advance ch s).out = s.out := by
  unfold advance; dsimp only; split <;> rfl
@[simp] theorem advance_sinkq : (advance ch s).sinkq = s.sinkq := by
  unfold advance; dsimp only; split <;> rfl
@[simp] theorem advance_respq : (advance ch s).respq = s.respq := by
  unfold advance; dsimp only; split <;> rfl
@[simp] theorem advance_params : (advance ch s).params = s.params := by
  unfold advance; dsimp only; split <;> rfl
@[simp] theorem advance_inputs : (advance ch s).inputs = s.inputs := by
  unfold advance; dsimp only; split <;> rfl
@[simp] theorem advance_coder : (advance ch s).coder = s.coder := by
  unfold advance; dsimp only; split <;> rfl

end

/-! views -/

@[simp] theorem coder_low : s.coder.low = s.low := rfl
@[simp] theorem coder_range : s.coder.range = s.range := rfl
@[simp] theorem coder_cache : s.coder.cache = s.cache := rfl
@[simp] theorem coder_pend : s.coder.pend = s.pend := rfl
@[simp] theorem coder_out : s.coder.out = s.out := rfl
@[simp] theorem encoder_coder : s.encoder.coder = s.coder := rfl
@[simp] theorem encoder_pt : s.encoder.pt = s.pt := rfl
@[simp] theorem stepCell_ch (r : CellRef) : r.stepCell.ch = r.ch := rfl
@[simp] theorem stepCell_pos (r : CellRef) : r.stepCell.pos = r.pos := rfl
@[simp] theorem stepCell_cell (r : CellRef) : r.stepCell.cell.val = (r.cell.val + 1) % 4627 := rfl

/-- Two states with the same fields are equal. -/
theorem state_ext {s t : State} (h1 : s.state = t.state) (h2 : s.fcode = t.fcode) (h3 : s.finfo = t.finfo)
    (h4 : s.blk = t.blk) (h5 : s.qt = t.qt) (h6 : s.pt = t.pt) (h7 : s.ptr = t.ptr)
    (h8 : s.width = t.width) (h9 : s.nrows = t.nrows) (h10 : s.row = t.row) (h11 : s.col = t.col)
    (h12 : s.blkpos = t.blkpos) (h13 : s.lastsel = t.lastsel) (h14 : s.codedLen = t.codedLen)
    (h15 : s.coder = t.coder) (h16 : s.sinkq = t.sinkq) (h17 : s.respq = t.respq)
    (h18 : s.params = t.params) (h19 : s.inputs = t.inputs) : s = t := by
  rcases s with ⟨⟨⟩, _, _⟩; rcases t with ⟨⟨⟩, _, _⟩; simp_all [State.coder]

end Sys2Proof.Machine
end

