-- ==== Sys2Proof/Laws/Memory.lean ====
section
/-! SUPPORT. The laws of the probability cells: cells have distinct numbers, a read after a write gives the
value written and every other cell is left alone, and every operation keeps the canonical form. -/

namespace Sys2Proof.Machine

/-! Cell numbers -/

theorem Position.code_lt (p : Position) : p.code < 6 := by cases p <;> decide

theorem Position.code_inj {p q : Position} : p.code = q.code ↔ p = q := by
  cases p <;> cases q <;> decide

theorem tableBase_le (ch : Chan) (pos : Position) : tableBase ch pos + tableSize ≤ memorySize := by
  have := ch.isLt
  have := pos.code_lt
  simp only [tableBase, tableSize, memorySize]
  omega

theorem cellNumber_lt (r : CellRef) : cellNumber r < memorySize := by
  have := tableBase_le r.ch r.pos
  have := r.cell.isLt
  simp only [cellNumber, tableSize] at *
  omega

/-- A cell's number lies among the numbers of a table exactly when the cell is one of that table's. -/
theorem cellNumber_mem_table (r : CellRef) (ch : Chan) (pos : Position) :
    (tableBase ch pos ≤ cellNumber r ∧ cellNumber r < tableBase ch pos + tableSize) ↔
      r.ch = ch ∧ r.pos = pos := by
  have h1 := r.cell.isLt
  have h2 := r.pos.code_lt
  have h3 := pos.code_lt
  rw [← Position.code_inj, Fin.ext_iff]
  simp only [cellNumber, tableBase, tableSize]
  omega

/-- The 18 tables of 4627 cells are disjoint: distinct cells have distinct numbers (10_state.md R27). -/
theorem cellNumber_inj {r q : CellRef} : cellNumber r = cellNumber q ↔ r = q := by
  constructor
  · intro h
    have hq := (cellNumber_mem_table q q.ch q.pos).2 ⟨rfl, rfl⟩
    rw [← h, cellNumber_mem_table] at hq
    obtain ⟨rc, rp, rx⟩ := r
    obtain ⟨qc, qp, qx⟩ := q
    obtain ⟨rfl, rfl⟩ := hq
    simp only [cellNumber, CellRef.mk.injEq, Fin.ext_iff, true_and] at *
    omega
  · rintro rfl; rfl

/-! Reads and writes by number -/

@[simp] theorem lookup_erase_self (k : Nat) (m : Memory) :
    Memory.lookup k (Memory.erase k m) = pInit := by
  induction m with
  | nil => rfl
  | cons e rest ih =>
    by_cases h : e.1 = k
    · simpa [Memory.erase, h] using ih
    · have : Memory.erase k (e :: rest) = e :: Memory.erase k rest := by simp [Memory.erase, h]
      rw [this, Memory.lookup, if_neg h, ih]

theorem lookup_filter {k : Nat} {m : Memory} {f : Nat × Prob → Bool} (h : ∀ v, f (k, v) = true) :
    Memory.lookup k (m.filter f) = Memory.lookup k m := by
  induction m with
  | nil => rfl
  | cons e rest ih =>
    obtain ⟨j, v⟩ := e
    by_cases hj : j = k
    · subst hj; simp [Memory.lookup, h]
    · by_cases hf : f (j, v) <;> simp [Memory.lookup, hf, hj, ih]

theorem lookup_filter_none {k : Nat} {m : Memory} {f : Nat × Prob → Bool} (h : ∀ v, f (k, v) = false) :
    Memory.lookup k (m.filter f) = pInit := by
  induction m with
  | nil => rfl
  | cons e rest ih =>
    obtain ⟨j, v⟩ := e
    by_cases hf : f (j, v)
    · have hj : j ≠ k := by rintro rfl; simp [h] at hf
      simp [Memory.lookup, hf, hj, ih]
    · simp [hf, ih]

theorem lookup_erase_of_ne {k j : Nat} (m : Memory) (h : j ≠ k) :
    Memory.lookup j (Memory.erase k m) = Memory.lookup j m :=
  lookup_filter fun _ => by simp [h]

theorem lookup_insert_of_ne {k j : Nat} (v : Prob) (m : Memory) (h : j ≠ k) :
    Memory.lookup j (Memory.insert k v m) = Memory.lookup j m := by
  induction m with
  | nil => simp [Memory.insert, Memory.lookup, h.symm]
  | cons e rest ih =>
    unfold Memory.insert
    split
    · simp [Memory.lookup, h.symm]
    · simp [Memory.lookup, ih]

theorem lookup_insert_self {k : Nat} {v : Prob} {m : Memory} (h : ∀ e ∈ m, e.1 ≠ k) :
    Memory.lookup k (Memory.insert k v m) = v := by
  induction m with
  | nil => simp [Memory.insert, Memory.lookup]
  | cons e rest ih =>
    unfold Memory.insert
    split
    · simp [Memory.lookup]
    · simp only [Memory.lookup, if_neg (h e (by simp))]
      exact ih fun e he => h e (by simp [he])

theorem ne_of_mem_erase {k : Nat} {m : Memory} {e : Nat × Prob} (h : e ∈ Memory.erase k m) :
    e.1 ≠ k := by
  simp [Memory.erase] at h; exact h.2

/-! The two laws of cells -/

@[simp] theorem read_write_self (m : Memory) (r : CellRef) (v : Prob) :
    Memory.read (Memory.write m r v) r = v := by
  unfold Memory.read Memory.write
  split
  · simp_all
  · exact lookup_insert_self fun _ => ne_of_mem_erase

theorem read_write_of_ne (m : Memory) {r q : CellRef} (v : Prob) (h : q ≠ r) :
    Memory.read (Memory.write m r v) q = Memory.read m q := by
  have hn : cellNumber q ≠ cellNumber r := fun e => h (cellNumber_inj.1 e)
  unfold Memory.read Memory.write
  split
  · exact lookup_erase_of_ne m hn
  · rw [lookup_insert_of_ne v _ hn, lookup_erase_of_ne m hn]

/-- Reading any cell after a write, on every list whether canonical or not. -/
theorem read_write (m : Memory) (r q : CellRef) (v : Prob) :
    Memory.read (Memory.write m r v) q = if q = r then v else Memory.read m q := by
  split
  · subst_vars; exact read_write_self ..
  · exact read_write_of_ne m v ‹_›

@[simp] theorem read_initAll (r : CellRef) : Memory.read Memory.initAll r = pInit := rfl

/-- Reading any cell after one table was initialised. -/
theorem read_initTable (m : Memory) (ch : Chan) (pos : Position) (r : CellRef) :
    Memory.read (Memory.initTable m ch pos) r =
      if r.ch = ch ∧ r.pos = pos then pInit else Memory.read m r := by
  have h := cellNumber_mem_table r ch pos
  unfold Memory.read Memory.initTable
  split
  · next hc => exact lookup_filter_none fun v => by simpa using h.2 hc
  · next hc =>
    refine lookup_filter fun v => ?_
    simp only [Bool.not_eq_true', Bool.and_eq_false_imp, decide_eq_true_eq, decide_eq_false_iff_not]
    exact fun h1 h2 => hc (h.1 ⟨h1, h2⟩)

/-! The canonical form -/

theorem wf_filter {m : Memory} (f : Nat × Prob → Bool) (h : Memory.wf m) : Memory.wf (m.filter f) :=
  ⟨h.1.filter f, fun e he => h.2 e (List.mem_of_mem_filter he)⟩

theorem mem_insert {k : Nat} {v : Prob} {m : Memory} {e : Nat × Prob} :
    e ∈ Memory.insert k v m ↔ e = (k, v) ∨ e ∈ m := by
  induction m with
  | nil => simp [Memory.insert]
  | cons x rest ih =>
    unfold Memory.insert
    split
    · simp
    · simp only [List.mem_cons, ih]; tauto

theorem pairwise_insert {k : Nat} {v : Prob} {m : Memory} (h : m.Pairwise fun a b => a.1 < b.1)
    (hk : ∀ e ∈ m, e.1 ≠ k) : (Memory.insert k v m).Pairwise fun a b => a.1 < b.1 := by
  induction m with
  | nil => simp [Memory.insert]
  | cons x rest ih =>
    obtain ⟨hx, hr⟩ := List.pairwise_cons.1 h
    unfold Memory.insert
    split
    · next hlt =>
      refine List.pairwise_cons.2 ⟨?_, h⟩
      intro e he
      rcases List.mem_cons.1 he with rfl | he
      · exact hlt
      · exact hlt.trans (hx e he)
    · next hlt =>
      refine List.pairwise_cons.2 ⟨?_, ih hr fun e he => hk e (by simp [he])⟩
      intro e he
      rcases mem_insert.1 he with rfl | he
      · have := hk x (by simp)
        simp only; omega
      · exact hx e he

theorem wf_insert {k : Nat} {v : Prob} {m : Memory} (h : Memory.wf m) (hk : ∀ e ∈ m, e.1 ≠ k)
    (hlt : k < memorySize) (hv : v ≠ pInit) : Memory.wf (Memory.insert k v m) := by
  refine ⟨pairwise_insert h.1 hk, fun e he => ?_⟩
  rcases mem_insert.1 he with rfl | he
  · exact ⟨hlt, hv⟩
  · exact h.2 e he

theorem wf_write {m : Memory} (h : Memory.wf m) (r : CellRef) (v : Prob) :
    Memory.wf (Memory.write m r v) := by
  unfold Memory.write
  split
  · exact wf_filter _ h
  · exact wf_insert (wf_filter _ h) (fun _ => ne_of_mem_erase) (cellNumber_lt r) ‹_›

theorem wf_initTable {m : Memory} (h : Memory.wf m) (ch : Chan) (pos : Position) :
    Memory.wf (Memory.initTable m ch pos) :=
  wf_filter _ h

theorem wf_initAll : Memory.wf Memory.initAll := ⟨List.Pairwise.nil, by simp [Memory.initAll]⟩

/-- The memory of the reset state has the canonical form. -/
theorem wf_reset : Memory.wf State.reset.pt := wf_initAll

/-! Legal cell values -/

theorem legal_pInit : Prob.legal pInit := by decide

theorem legal_initAll : Memory.legal Memory.initAll := fun _ => legal_pInit

theorem legal_write {m : Memory} (h : Memory.legal m) (r : CellRef) {v : Prob} (hv : Prob.legal v) :
    Memory.legal (Memory.write m r v) := by
  intro q
  rw [read_write]
  split
  · exact hv
  · exact h q

theorem legal_initTable {m : Memory} (h : Memory.legal m) (ch : Chan) (pos : Position) :
    Memory.legal (Memory.initTable m ch pos) := by
  intro q
  rw [read_initTable]
  split
  · exact legal_pInit
  · exact h q

end Sys2Proof.Machine
end

