-- ==== Sys2Proof/Laws/Ops.lean ====
section
/-! SUPPORT. What the shared tests and operations of the commands can do, one lemma each. -/

namespace Sys2Proof.Machine

/-! Operand ranges -/

theorem channel?_some {ch : BitVec 2} {c : Chan} : channel? ch = some c ↔ ch.toNat = c.val := by
  unfold channel?
  have := c.isLt
  split
  · simp [Fin.ext_iff]
  · simp; omega

theorem channel?_none {ch : BitVec 2} : channel? ch = none ↔ ch = 3 := by
  revert ch; decide

theorem channel?_isSome (ch : BitVec 2) : (channel? ch).isSome = channelInRange ch := by
  revert ch; decide

theorem position?_some {pos : BitVec 3} {p : Position} : position? pos = some p ↔ pos.toNat = p.code := by
  revert pos p; intro pos p; cases p <;> revert pos <;> decide

theorem position?_isSome (pos : BitVec 3) : (position? pos).isSome = positionInRange pos := by
  revert pos; decide

theorem cellAddr?_some {cell : BitVec 13} {a : Fin 4627} :
    cellAddr? cell = some a ↔ cell.toNat = a.val := by
  unfold cellAddr?
  have := a.isLt
  split
  · simp [Fin.ext_iff]
  · simp; omega

theorem cellAddr?_isSome (cell : BitVec 13) : (cellAddr? cell).isSome = cellInRange cell := by
  unfold cellAddr? cellInRange
  split <;> simp_all

theorem cellRef?_some {ch : BitVec 2} {pos : BitVec 3} {cell : BitVec 13} {r : CellRef} :
    cellRef? ch pos cell = some r ↔
      ch.toNat = r.ch.val ∧ pos.toNat = r.pos.code ∧ cell.toNat = r.cell.val := by
  rw [← channel?_some, ← position?_some, ← cellAddr?_some]
  unfold cellRef?
  obtain ⟨rc, rp, ra⟩ := r
  cases channel? ch <;> cases position? pos <;> cases cellAddr? cell <;> simp

theorem cellRef?_isSome (ch : BitVec 2) (pos : BitVec 3) (cell : BitVec 13) :
    (cellRef? ch pos cell).isSome = (channelInRange ch && positionInRange pos && cellInRange cell) := by
  rw [← channel?_isSome, ← position?_isSome, ← cellAddr?_isSome]
  unfold cellRef?
  cases channel? ch <;> cases position? pos <;> cases cellAddr? cell <;> rfl

/-! The tests of a command -/

section
variable {legal : PassState → Bool} {w : Word} {body : State → Outcome} {s : State} {o : Outcome}

/-- In FAULT a command is dropped (60_exceptions.md R223). -/
theorem command_dropped (h : s.state = .fault) : command legal w body s = .next s := by
  simp [command, h]

/-- Where it is legal a command runs its own pseudocode. -/
theorem command_runs (h : s.state ≠ .fault) (hl : legal s.state = true) :
    command legal w body s = body s := by
  simp [command, h, hl]

/-- Where it is not legal a command raises ILLEGAL_STATE (60_exceptions.md R225). -/
theorem command_illegal (h : s.state ≠ .fault) (hl : legal s.state = false) :
    command legal w body s = .next (raiseFault .illegalState w s) := by
  simp [command, h, hl]

/-- Everything a command can do. -/
theorem command_cases (h : command legal w body s = o) :
    (s.state = .fault ∧ o = .next s) ∨
    (s.state ≠ .fault ∧ legal s.state = false ∧ o = .next (raiseFault .illegalState w s)) ∨
    (s.state ≠ .fault ∧ legal s.state = true ∧ body s = o) := by
  by_cases hf : s.state = .fault
  · exact .inl ⟨hf, (command_dropped hf).symm.trans h |>.symm⟩
  · cases hl : legal s.state
    · exact .inr (.inl ⟨hf, rfl, (command_illegal hf hl).symm.trans h |>.symm⟩)
    · exact .inr (.inr ⟨hf, rfl, (command_runs hf hl).symm.trans h⟩)

end

theorem anyState_of_ne_fault {st : PassState} (h : st ≠ .fault) : anyState st = true := by
  cases st <;> simp_all [anyState]

theorem outsidePass_iff {st : PassState} : outsidePass st = true ↔ st = .idle ∨ st = .done := by
  cases st <;> simp [outsidePass]

theorem insidePass_iff {st : PassState} : insidePass st = true ↔ st = .active := by
  cases st <;> simp [insidePass]

/-- The operand test of a command with a channel. -/
theorem withChannel_of_eq {ch : BitVec 2} {c : Chan} {w : Word} {body : Chan → State → Outcome} {s : State}
    (h : ch.toNat = c.val) : withChannel ch w body s = body c s := by
  simp [withChannel, channel?_some.2 h]

theorem withChannel_three {w : Word} {body : Chan → State → Outcome} {s : State} :
    withChannel 3 w body s = .next (raiseFault .badOperand w s) := rfl

theorem withChannel_cases {ch : BitVec 2} {w : Word} {body : Chan → State → Outcome} {s : State}
    {o : Outcome} (h : withChannel ch w body s = o) :
    (ch = 3 ∧ o = .next (raiseFault .badOperand w s)) ∨ ∃ c : Chan, ch.toNat = c.val ∧ body c s = o := by
  unfold withChannel at h
  split at h
  · next c hc => exact .inr ⟨c, channel?_some.1 hc, h⟩
  · next hc => exact .inl ⟨channel?_none.1 hc, h.symm⟩

/-- The operand test of a command that names a cell. -/
theorem withCell_of_eq {ch : BitVec 2} {pos : BitVec 3} {cell : BitVec 13} {r : CellRef} {w : Word}
    {body : CellRef → State → Outcome} {s : State} (h : cellRef? ch pos cell = some r) :
    withCell ch pos cell w body s = body r s := by
  simp [withCell, h]

theorem withCell_cases {ch : BitVec 2} {pos : BitVec 3} {cell : BitVec 13} {w : Word}
    {body : CellRef → State → Outcome} {s : State} {o : Outcome}
    (h : withCell ch pos cell w body s = o) :
    (cellRef? ch pos cell = none ∧ o = .next (raiseFault .badOperand w s)) ∨
      ∃ r, cellRef? ch pos cell = some r ∧ body r s = o := by
  unfold withCell at h
  split at h
  · next r hr => exact .inr ⟨r, hr, h⟩
  · next hr => exact .inl ⟨hr, h.symm⟩

/-! Cursors -/

/-- `Exhausted(ch)` as 10_state.md R33 writes it. -/
theorem exhausted_iff {s : State} {ch : Chan} :
    exhausted s ch = true ↔ s.width[ch] = 0 ∨ s.nrows[ch].toNat ≤ s.row[ch].toNat := by
  simp [exhausted, BitVec.le_def]

theorem not_exhausted_iff {s : State} {ch : Chan} :
    exhausted s ch = false ↔ s.width[ch] ≠ 0 ∧ s.row[ch].toNat < s.nrows[ch].toNat := by
  rw [← Bool.not_eq_true, exhausted_iff]; simp

/-! Vectors of the channels, and of the block -/

theorem chan_set_self {α : Type} (v : Vector α 3) (ch : Chan) (x : α) : (v.set ch x)[ch] = x := by
  simp

theorem chan_set_of_ne {α : Type} (v : Vector α 3) {ch c : Chan} (x : α) (h : c ≠ ch) :
    (v.set ch x)[c] = v[c] := by
  have : ch.val ≠ c.val := fun e => h (Fin.ext e.symm)
  simp [this]

/-- Reading any channel's register after one was written. -/
theorem chan_set {α : Type} (v : Vector α 3) (ch c : Chan) (x : α) :
    (v.set ch x)[c] = if c = ch then x else v[c] := by
  split
  · next h => subst h; exact chan_set_self ..
  · next h => exact chan_set_of_ne v x h

/-- Reading any of 64 elements after one was written. -/
theorem elem_set {α : Type} (v : Vector α 64) (z y : ZIndex) (x : α) :
    (v.set z x)[y] = if y = z then x else v[y] := by
  split
  · next h => subst h; simp
  · next h =>
    have : z.val ≠ y.val := fun e => h (Fin.ext e.symm)
    simp [this]

/-! The ports -/

theorem nextEvent_cons {s : State} {e : HostEvent} {rest : List HostEvent} (h : s.inputs = e :: rest) :
    nextEvent s = some (e, { s with inputs := rest }) := by
  simp [nextEvent, h]

theorem step_cons {s : State} {e : HostEvent} {rest : List HostEvent} (h : s.inputs = e :: rest) :
    step s = meetEvent e { s with inputs := rest } := by
  simp [step, nextEvent_cons h]

theorem step_nil {s : State} (h : s.inputs = []) : step s = .next s := by
  simp [step, nextEvent, h]

/-- Everything one step can do. -/
theorem step_cases {s : State} {o : Host.Outcome State Fault Refusal} (h : step s = o) :
    (s.inputs = [] ∧ o = .next s) ∨
    (∃ w i rest, s.inputs = .word w :: rest ∧ decode w = some i ∧ exec i { s with inputs := rest } = o) ∨
    (∃ w rest, s.inputs = .word w :: rest ∧ decode w = none ∧
      o = .next (illegalWord w { s with inputs := rest })) ∨
    (∃ rest, s.inputs = .reset :: rest ∧ o = .next (hardwareReset { s with inputs := rest })) ∨
    (∃ rest, s.inputs = .takeResponse :: rest ∧ o = .next (takeResponse { s with inputs := rest })) := by
  rcases hi : s.inputs with _ | ⟨e, rest⟩
  · exact .inl ⟨rfl, by rw [← h, step_nil hi]⟩
  · rw [step_cons hi] at h
    rcases e with w | _ | _
    · rcases hd : decode w with _ | i
      · exact .inr (.inr (.inl ⟨w, rest, rfl, hd, by simpa [meetEvent, hd] using h.symm⟩))
      · exact .inr (.inl ⟨w, i, rest, rfl, hd, by simpa [meetEvent, hd] using h⟩)
    · exact .inr (.inr (.inr (.inl ⟨rest, rfl, h.symm⟩)))
    · exact .inr (.inr (.inr (.inr ⟨rest, rfl, h.symm⟩)))

end Sys2Proof.Machine
end

