-- ==== Sys2Proof/Laws/Coder.lean ====
section
/-! SUPPORT. What each operation of the arithmetic coder can do, said once: `Append`, the flush of the
held-back bytes, `ShiftLow`, the normalisation loop and `Encode`. -/

namespace Sys2Proof.Machine

variable {P : Params} {c c' : Coder}

/-! Append (42_arithmetic_coder.md R143) -/

theorem appendByte_room {b : Nat} (h : c.out.length + 1 ≤ P.outCap.val) :
    appendByte P b c = .ok { c with out := c.out ++ [BitVec.ofNat 8 b] } := by
  simp [appendByte, Nat.not_lt.2 h]

theorem appendByte_full {b : Nat} (h : P.outCap.val < c.out.length + 1) :
    appendByte P b c = .error c := by
  simp [appendByte, h]

/-- With room for all of them, a run of bytes is appended whole. -/
theorem appendRun_room {b n : Nat} (h : c.out.length + n ≤ P.outCap.val) :
    appendRun P b n c = .ok { c with out := c.out ++ List.replicate n (BitVec.ofNat 8 b) } := by
  induction n generalizing c with
  | zero => simp [appendRun]
  | succ n ih =>
    rw [appendRun, appendByte_room (by omega)]
    simp only
    rw [ih (by simp only [List.length_append, List.length_singleton]; omega)]
    simp [List.replicate_succ]

/-- Without room for all of them, the bytes that fit are appended and OUT_OVERFLOW is raised. -/
theorem appendRun_full {b n : Nat} (h : P.outCap.val < c.out.length + n)
    (hc : c.out.length ≤ P.outCap.val) :
    appendRun P b n c = .error { c with
      out := c.out ++ List.replicate (P.outCap.val - c.out.length) (BitVec.ofNat 8 b) } := by
  induction n generalizing c with
  | zero => omega
  | succ n ih =>
    rw [appendRun]
    by_cases hr : c.out.length + 1 ≤ P.outCap.val
    · rw [appendByte_room hr]
      simp only
      rw [ih (by simp only [List.length_append, List.length_singleton]; omega)
        (by simpa using hr)]
      obtain ⟨k, hk⟩ : ∃ k, P.outCap.val - c.out.length = k + 1 :=
        ⟨P.outCap.val - c.out.length - 1, by omega⟩
      have hk' : P.outCap.val - (c.out.length + 1) = k := by omega
      simp [hk, hk', List.replicate_succ]
    · rw [appendByte_full (by omega)]
      have : P.outCap.val - c.out.length = 0 := by omega
      simp [this]

/-! The held-back bytes (R144) -/

/-- The bytes that become final when a byte is shifted out: CACHE and PEND − 1 bytes 0xFF, each with the
carry added. -/
def heldBytes (c : Coder) : List Byte :=
  BitVec.ofNat 8 (c.cache.toNat + c.carry) ::
    List.replicate (c.pend - 1) (BitVec.ofNat 8 (0xFF + c.carry))

@[simp] theorem heldBytes_length (c : Coder) : (heldBytes c).length = c.pend - 1 + 1 := by
  simp [heldBytes]

theorem flushHeld_room (h : c.out.length + (c.pend - 1 + 1) ≤ P.outCap.val) :
    flushHeld P c = .ok { c with out := c.out ++ heldBytes c } := by
  rw [flushHeld, appendByte_room (by omega)]
  simp only
  rw [appendRun_room (by simp only [List.length_append, List.length_singleton]; omega)]
  simp [heldBytes]

theorem flushHeld_full (h : P.outCap.val < c.out.length + (c.pend - 1 + 1))
    (hc : c.out.length ≤ P.outCap.val) :
    flushHeld P c = .error { c with
      out := c.out ++ (heldBytes c).take (P.outCap.val - c.out.length) } := by
  rw [flushHeld]
  by_cases hr : c.out.length + 1 ≤ P.outCap.val
  · rw [appendByte_room hr]
    simp only
    rw [appendRun_full (by simp only [List.length_append, List.length_singleton]; omega)
      (by simpa using hr)]
    obtain ⟨k, hk⟩ : ∃ k, P.outCap.val - c.out.length = k + 1 :=
      ⟨P.outCap.val - c.out.length - 1, by omega⟩
    have hk' : P.outCap.val - (c.out.length + 1) = k := by omega
    have hm : min k (c.pend - 1) = k := by omega
    simp [heldBytes, hk, hk', hm]
  · rw [appendByte_full (by omega)]
    have : P.outCap.val - c.out.length = 0 := by omega
    simp [this]

/-- Whatever the capacity, a flush that raises OUT_OVERFLOW wrote nothing but a prefix of the held-back
bytes, and OUT is full. -/
theorem flushHeld_error (h : flushHeld P c = .error c') :
    ∃ l, l <+: heldBytes c ∧ c' = { c with out := c.out ++ l } ∧
      c'.out.length = max c.out.length P.outCap.val := by
  by_cases hc : c.out.length ≤ P.outCap.val
  · by_cases hr : c.out.length + (c.pend - 1 + 1) ≤ P.outCap.val
    · rw [flushHeld_room hr] at h; cases h
    · rw [flushHeld_full (by omega) hc] at h
      cases h
      refine ⟨_, List.take_prefix _ _, rfl, ?_⟩
      simp only [List.length_append, List.length_take, heldBytes_length]
      omega
  · rw [flushHeld, appendByte_full (by omega)] at h
    cases h
    exact ⟨[], List.nil_prefix, by simp, by omega⟩

theorem flushHeld_ok (h : flushHeld P c = .ok c') :
    c.out.length + (c.pend - 1 + 1) ≤ P.outCap.val ∧ c' = { c with out := c.out ++ heldBytes c } := by
  by_cases hr : c.out.length + (c.pend - 1 + 1) ≤ P.outCap.val
  · rw [flushHeld_room hr] at h
    cases h
    exact ⟨hr, rfl⟩
  · by_cases hc : c.out.length ≤ P.outCap.val
    · rw [flushHeld_full (by omega) hc] at h; cases h
    · rw [flushHeld, appendByte_full (by omega)] at h; cases h

/-! ShiftLow (R144) -/

/-- The held-back bytes are final: the top byte of LOW is not 0xFF, or a carry is pending. -/
abbrev settled (c : Coder) : Prop := c.low.toNat % 2 ^ 32 < 0xFF000000 ∨ 2 ^ 32 ≤ c.low.toNat

theorem settled_iff (c : Coder) :
    (c.low.extractLsb' 0 32 < 0xFF000000#32 ∨ c.low.getLsbD 32 = true) ↔ settled c := by
  have h := c.low.isLt
  have h2 : c.low.getLsbD 32 = true ↔ 2 ^ 32 ≤ c.low.toNat := by
    rw [← BitVec.testBit_toNat, Nat.testBit_eq_decide_div_mod_eq]
    simp only [decide_eq_true_eq]
    omega
  rw [h2]
  simp [settled, BitVec.lt_def]

theorem carry_eq (c : Coder) : c.carry = c.low.toNat / 2 ^ 32 := by
  have h := c.low.isLt
  unfold Coder.carry
  rw [← BitVec.testBit_toNat, Nat.testBit_eq_decide_div_mod_eq]
  by_cases hc : c.low.toNat / 2 ^ 32 % 2 = 1 <;> simp only [hc, decide_true, decide_false, Bool.toNat_true, Bool.toNat_false] <;> omega

/-- LOW after a shift: its low 24 bits move up by 8 (R144). -/
theorem shiftedLow_toNat (c : Coder) : c.shiftedLow.toNat = c.low.toNat % 2 ^ 24 * 2 ^ 8 := by
  have h : c.low.toNat % 2 ^ 24 < 2 ^ 24 := Nat.mod_lt _ (by decide)
  unfold Coder.shiftedLow
  rw [BitVec.toNat_append, BitVec.toNat_append]
  simp [Nat.shiftLeft_eq]

/-- The coder after a `ShiftLow` that appends the held-back bytes. -/
def flushed (c : Coder) : Coder :=
  { c with low := c.shiftedLow, cache := c.low.extractLsb' 24 8, pend := 1, out := c.out ++ heldBytes c }

/-- The coder after a `ShiftLow` that holds one more byte 0xFF back. -/
def deferred (c : Coder) : Coder := { c with low := c.shiftedLow, pend := c.pend + 1 }

theorem shiftLow_deferred (h : ¬ settled c) : shiftLow P c = .ok (deferred c) := by
  rw [shiftLow, if_neg (by rwa [settled_iff])]
  rfl

theorem shiftLow_flushed (h : settled c) (hr : c.out.length + (c.pend - 1 + 1) ≤ P.outCap.val) :
    shiftLow P c = .ok (flushed c) := by
  rw [shiftLow, if_pos (by rwa [settled_iff]), flushHeld_room hr]
  rfl

/-- Everything a completed `ShiftLow` can have done. -/
theorem shiftLow_ok (h : shiftLow P c = .ok c') :
    (settled c ∧ c.out.length + (c.pend - 1 + 1) ≤ P.outCap.val ∧ c' = flushed c) ∨
      (¬ settled c ∧ c' = deferred c) := by
  by_cases hs : settled c
  · refine .inl ⟨hs, ?_⟩
    rw [shiftLow, if_pos (by rwa [settled_iff])] at h
    split at h
    · next d hd =>
      obtain ⟨hr, rfl⟩ := flushHeld_ok hd
      cases h
      exact ⟨hr, rfl⟩
    · cases h
  · rw [shiftLow_deferred hs] at h
    cases h
    exact .inr ⟨hs, rfl⟩

/-- Everything a `ShiftLow` that raises OUT_OVERFLOW can have done. -/
theorem shiftLow_error (h : shiftLow P c = .error c') :
    ∃ l, l <+: heldBytes c ∧ c' = { c with out := c.out ++ l } ∧
      c'.out.length = max c.out.length P.outCap.val := by
  rw [shiftLow] at h
  split at h
  · split at h
    · cases h
    · next d hd => cases h; exact flushHeld_error hd
  · cases h

/-- A completed `ShiftLow` makes one more byte: either held back or appended. -/
theorem shiftLow_count (h : shiftLow P c = .ok c') (hp : 1 ≤ c.pend) :
    c'.out.length + c'.pend = c.out.length + c.pend + 1 ∧ 1 ≤ c'.pend ∧ c'.range = c.range ∧
      c.out <+: c'.out ∧ c'.low.toNat = c.low.toNat % 2 ^ 24 * 2 ^ 8 ∧
      (c.out.length ≤ P.outCap.val → c'.out.length ≤ P.outCap.val) := by
  rcases shiftLow_ok h with ⟨hs, hr, rfl⟩ | ⟨hs, rfl⟩
  · refine ⟨?_, by simp [flushed], rfl, List.prefix_append _ _, shiftedLow_toNat c, fun _ => ?_⟩
    · simp only [flushed, List.length_append, heldBytes_length]; omega
    · simp only [flushed, List.length_append, heldBytes_length]; omega
  · exact ⟨by simp only [deferred]; omega, by simp [deferred], rfl, List.prefix_refl _,
      shiftedLow_toNat c, fun h => h⟩

/-- With room for the bytes held back, a `ShiftLow` completes. -/
theorem shiftLow_completes (P : Params) (hr : c.out.length + c.pend ≤ P.outCap.val) (hp : 1 ≤ c.pend) :
    ∃ c', shiftLow P c = .ok c' := by
  by_cases hs : settled c
  · exact ⟨_, shiftLow_flushed hs (by omega)⟩
  · exact ⟨_, shiftLow_deferred hs⟩

/-! Adaptation (40_table_manager.md R106) -/

theorem adapt_toNat (p : Prob) (bit : Bool) :
    (adapt p bit).toNat =
      if bit then p.toNat - p.toNat / 32 else p.toNat + (2048 - p.toNat) / 32 := by
  have h := p.isLt
  have : (if bit then p.toNat - p.toNat / 32 else p.toNat + (2048 - p.toNat) / 32) < 2 ^ 11 := by
    cases bit <;> simp <;> omega
  unfold adapt
  rw [BitVec.toNat_ofNat, Nat.mod_eq_of_lt this]

theorem legal_adapt {p : Prob} (h : Prob.legal p) (bit : Bool) : Prob.legal (adapt p bit) := by
  unfold Prob.legal at *
  rw [adapt_toNat]
  cases bit <;> simp <;> omega

/-! Narrowing (42_arithmetic_coder.md R145) -/

theorem bound_toNat (range : BitVec 32) (p : Prob) :
    (bound range p).toNat = range.toNat / 2048 * p.toNat := by
  have h1 := range.isLt
  have h2 := p.isLt
  have h3 : range.toNat / 2048 < 2 ^ 21 := by omega
  have h4 : range.toNat / 2048 * p.toNat < 2 ^ 21 * 2 ^ 11 :=
    Nat.mul_lt_mul'' h3 h2
  have h5 : p.toNat % 2 ^ 32 = p.toNat := Nat.mod_eq_of_lt (by omega)
  unfold bound
  rw [BitVec.toNat_mul, BitVec.toNat_setWidth, h5, BitVec.toNat_ushiftRight, Nat.shiftRight_eq_div_pow]
  exact Nat.mod_eq_of_lt h4

@[simp] theorem narrow_cache (p : Prob) (bit : Bool) (c : Coder) : (narrow p bit c).cache = c.cache := by
  unfold narrow; split <;> rfl
@[simp] theorem narrow_pend (p : Prob) (bit : Bool) (c : Coder) : (narrow p bit c).pend = c.pend := by
  unfold narrow; split <;> rfl
@[simp] theorem narrow_out (p : Prob) (bit : Bool) (c : Coder) : (narrow p bit c).out = c.out := by
  unfold narrow; split <;> rfl

/-- The split of a legal interval by a legal cell: both parts are at least 253952 wide. -/
theorem bound_bounds {range : BitVec 32} {p : Prob} (hr : 2 ^ 24 ≤ range.toNat) (hp : Prob.legal p) :
    253952 ≤ (bound range p).toNat ∧ (bound range p).toNat + 253952 ≤ range.toNat := by
  rw [bound_toNat]
  obtain ⟨h1, h2⟩ := hp
  have hq : 8192 ≤ range.toNat / 2048 := by omega
  have ha : range.toNat / 2048 * 31 ≤ range.toNat / 2048 * p.toNat := Nat.mul_le_mul_left _ h1
  have hb : range.toNat / 2048 * p.toNat ≤ range.toNat / 2048 * 2017 := Nat.mul_le_mul_left _ h2
  omega

/-- The narrowed registers of a legal coder, as numbers. -/
theorem narrow_toNat {c : Coder} (hc : c.Legal) {p : Prob} (hp : Prob.legal p) (bit : Bool) :
    (narrow p bit c).low.toNat =
        (if bit then c.low.toNat + (bound c.range p).toNat else c.low.toNat) ∧
      (narrow p bit c).range.toNat =
        (if bit then c.range.toNat - (bound c.range p).toNat else (bound c.range p).toNat) := by
  have hb := bound_bounds hc.range_ge hp
  have hs := hc.sum_lt
  cases bit
  · exact ⟨rfl, rfl⟩
  · have h1 : (bound c.range p).toNat % 2 ^ 33 = (bound c.range p).toNat :=
      Nat.mod_eq_of_lt (by omega)
    constructor
    · simp only [narrow, if_true, BitVec.toNat_add, BitVec.toNat_setWidth, h1]
      exact Nat.mod_eq_of_lt (by omega)
    · simp only [narrow, if_true]
      exact BitVec.toNat_sub_of_le (by rw [BitVec.le_def]; omega)

/-- A decision narrows the interval inside itself and leaves it at least 253952 wide. -/
theorem narrow_bounds {c : Coder} (hc : c.Legal) {p : Prob} (hp : Prob.legal p) (bit : Bool) :
    253952 ≤ (narrow p bit c).range.toNat ∧ c.low.toNat ≤ (narrow p bit c).low.toNat ∧
      (narrow p bit c).low.toNat + (narrow p bit c).range.toNat ≤ c.low.toNat + c.range.toNat := by
  obtain ⟨h1, h2⟩ := narrow_toNat hc hp bit
  have hb := bound_bounds hc.range_ge hp
  rw [h1, h2]
  cases bit <;> simp <;> omega

/-! The normalisation loop -/

theorem normalise_done {n : Nat} (h : 2 ^ 24 ≤ c.range.toNat) : normalise P n c = .done c := by
  have : ¬ c.range < 0x1000000#32 := by rw [BitVec.lt_def]; simpa using h
  cases n <;> simp [normalise, this]

/-- RANGE after one round of the loop. -/
theorem range_shift {r : BitVec 32} (h : r.toNat < 2 ^ 24) : (r <<< 8).toNat = r.toNat * 2 ^ 8 := by
  rw [BitVec.toNat_shiftLeft, Nat.shiftLeft_eq]
  exact Nat.mod_eq_of_lt (by omega)

/-- From RANGE at least 2^16, one round of the loop is enough. -/
theorem normalise_once {n : Nat} (h1 : 2 ^ 16 ≤ c.range.toNat) (h2 : c.range.toNat < 2 ^ 24) :
    normalise P (n + 1) c =
      match shiftLow P { c with range := c.range <<< 8 } with
      | .ok c' => .done c'
      | .error c' => .overflow c' := by
  have hlt : c.range < 0x1000000#32 := by rw [BitVec.lt_def]; simpa using h2
  rw [normalise, if_pos hlt]
  cases hs : shiftLow P { c with range := c.range <<< 8 } with
  | error d => rfl
  | ok d =>
    have hr : d.range = c.range <<< 8 := by
      rcases shiftLow_ok hs with ⟨_, _, rfl⟩ | ⟨_, rfl⟩ <;> rfl
    have : 2 ^ 24 ≤ d.range.toNat := by rw [hr, range_shift h2]; omega
    simp only
    exact normalise_done this

/-! Encode (R145) -/

/-- Everything `Encode` can do on a legal coder and a legal cell: no shift, one shift, or one shift that
raises OUT_OVERFLOW. It never fails to end. -/
theorem encodeDecision_cases {P : Params} {r : CellRef} {bit : Bool} {e : Encoder} (hc : e.coder.Legal)
    (hp : Prob.legal (Memory.read e.pt r)) :
    let p := Memory.read e.pt r
    let n := narrow p bit e.coder
    let pt := Memory.write e.pt r (adapt p bit)
    (2 ^ 24 ≤ n.range.toNat ∧ encodeDecision P r bit e = .done ⟨n, pt⟩) ∨
    (n.range.toNat < 2 ^ 24 ∧ ∃ c', shiftLow P { n with range := n.range <<< 8 } = .ok c' ∧
      encodeDecision P r bit e = .done ⟨c', pt⟩) ∨
    (n.range.toNat < 2 ^ 24 ∧ ∃ c', shiftLow P { n with range := n.range <<< 8 } = .error c' ∧
      encodeDecision P r bit e = .overflow ⟨c', pt⟩) := by
  intro p n pt
  have hb := narrow_bounds hc hp bit
  by_cases h : 2 ^ 24 ≤ n.range.toNat
  · refine .inl ⟨h, ?_⟩
    simp only [encodeDecision]
    rw [normalise_done h]
  · have h2 : n.range.toNat < 2 ^ 24 := by omega
    have h1 : 2 ^ 16 ≤ n.range.toNat := by have := hb.1; simp only [n, p]; omega
    have hn := normalise_once (P := P) (n := 2) h1 h2
    cases hs : shiftLow P { n with range := n.range <<< 8 } with
    | ok d =>
      refine .inr (.inl ⟨h2, d, rfl, ?_⟩)
      rw [hs] at hn
      simp only [encodeDecision]
      rw [hn]
    | error d =>
      refine .inr (.inr ⟨h2, d, rfl, ?_⟩)
      rw [hs] at hn
      simp only [encodeDecision]
      rw [hn]

end Sys2Proof.Machine
end

