-- ==== Sys2Proof/Laws/PerInstr.lean ====
section
/-! SUPPORT. A fact about every command as syntax, one lemma a constructor: its word carries its opcode in
bits 31..26 (30_encoding.md R80). -/

namespace Sys2Proof.Laws

/-- Bits 31..26 of the word of a command are its opcode (R80). -/
def CarriesOpcode.Statement (i : Instr) : Prop := (encode i).extractLsb' 26 6 = i.opcode

theorem opcode_of_append {n m : Nat} (op : BitVec n) (bits : BitVec m) : (op ++ bits).extractLsb' m n = op :=
  BitVec.extractLsb'_append_eq_left

theorem CarriesOpcode.nop : CarriesOpcode.Statement .nop := opcode_of_append ..
theorem CarriesOpcode.passBegin (warm : Bool) : CarriesOpcode.Statement (.passBegin warm) :=
  opcode_of_append ..
theorem CarriesOpcode.passEnd : CarriesOpcode.Statement .passEnd := opcode_of_append ..
theorem CarriesOpcode.passAbort : CarriesOpcode.Statement .passAbort := opcode_of_append ..
theorem CarriesOpcode.csrRd (addr : BitVec 8) : CarriesOpcode.Statement (.csrRd addr) :=
  opcode_of_append ..
theorem CarriesOpcode.outPop : CarriesOpcode.Statement .outPop := opcode_of_append ..
theorem CarriesOpcode.curW (ch : BitVec 2) (imm : BitVec 16) : CarriesOpcode.Statement (.curW ch imm) :=
  opcode_of_append ..
theorem CarriesOpcode.curH (ch : BitVec 2) (imm : BitVec 16) : CarriesOpcode.Statement (.curH ch imm) :=
  opcode_of_append ..
theorem CarriesOpcode.select (ch : BitVec 2) : CarriesOpcode.Statement (.select ch) :=
  opcode_of_append ..
theorem CarriesOpcode.ptAddr (ch : BitVec 2) (pos : BitVec 3) (cell : BitVec 13) :
    CarriesOpcode.Statement (.ptAddr ch pos cell) := opcode_of_append ..
theorem CarriesOpcode.ptWr (imm : BitVec 11) : CarriesOpcode.Statement (.ptWr imm) :=
  opcode_of_append ..
theorem CarriesOpcode.ptRd : CarriesOpcode.Statement .ptRd := opcode_of_append ..
theorem CarriesOpcode.ptInit (all : Bool) : CarriesOpcode.Statement (.ptInit all) :=
  opcode_of_append ..
theorem CarriesOpcode.encBit (ch : BitVec 2) (pos : BitVec 3) (cell : BitVec 13) (bit : Bool) :
    CarriesOpcode.Statement (.encBit ch pos cell bit) := opcode_of_append ..
theorem CarriesOpcode.qtWr (ch : BitVec 2) (idx : BitVec 6) (imm : BitVec 16) :
    CarriesOpcode.Statement (.qtWr ch idx imm) := opcode_of_append ..
theorem CarriesOpcode.blkWr (idx : BitVec 6) (imm : BitVec 16) :
    CarriesOpcode.Statement (.blkWr idx imm) := opcode_of_append ..
theorem CarriesOpcode.blkClr : CarriesOpcode.Statement .blkClr := opcode_of_append ..
theorem CarriesOpcode.encBlock (ch : BitVec 2) : CarriesOpcode.Statement (.encBlock ch) :=
  opcode_of_append ..

end Sys2Proof.Laws
end

