-- ==== Sys2Proof/Laws/Decode.lean ====
section
/-! SUPPORT. The fields of an encoded command, from which the two directions of the encoding follow. -/

namespace Sys2Proof

/-- Bits 31..26 of an encoded command. -/
theorem field_encode_opcode (i : Instr) : field (encode i) 26 6 = i.opcode :=
  Laws.opcode_of_append ..

/-- A field of the operand bits of an encoded command. -/
theorem field_encode_operand (i : Instr) {lo n : Nat} (h : lo + n ≤ 26) :
    field (encode i) lo n = i.operandBits.extractLsb' lo n :=
  BitVec.extractLsb'_append_eq_of_add_le h

/-- Bit 0 of an encoded command. -/
theorem bit_encode (i : Instr) : (encode i).getLsbD 0 = i.operandBits.getLsbD 0 := by
  have h : (i.opcode ++ i.operandBits).getLsbD 0 = i.operandBits.getLsbD 0 := by
    rw [BitVec.getLsbD_append]; simp
  exact h

/-- What `whenZero` can answer. -/
theorem whenZero_some {n : Nat} {reserved : BitVec n} {i j : Instr} :
    whenZero reserved i = some j ↔ reserved = 0 ∧ i = j := by
  unfold whenZero; split <;> simp_all

theorem whenZero_of_zero {n : Nat} {reserved : BitVec n} {i : Instr} (h : reserved = 0) :
    whenZero reserved i = some i := if_pos h

/-- A 32-bit word is its opcode followed by its low 26 bits. -/
theorem word_eq_append (w : Word) : w = field w 26 6 ++ field w 0 26 := by
  refine BitVec.eq_of_getLsbD_eq fun k hk => ?_
  have h : (field w 26 6 ++ field w 0 26).getLsbD k = w.getLsbD k := by
    rw [BitVec.getLsbD_append]
    unfold field
    by_cases hk26 : k < 26
    · simp [hk26]
    · have h1 : 26 + (k - 26) = k := by omega
      have h2 : k - 26 < 6 := by omega
      simp [hk26, h1, h2]
  exact h.symm

end Sys2Proof
end

