-- ==== Sys2Proof/Laws/Serializer.lean ====
section
/-! SUPPORT. The small lemmas of the serializer: exponent classes, the pieces of a coefficient's decisions, the
coordinates of the sub-grid, and what coding a list of decisions can do. -/

namespace Sys2Proof.Machine

/-! Bit lengths (00_scope.md R14) -/

@[simp] theorem bitlen_zero : bitlen 0 = 0 := rfl

theorem bitlen_of_pos {n : Nat} (h : n ≠ 0) : bitlen n = Nat.log2 n + 1 := by simp [bitlen, h]

theorem bitlen_eq_zero {n : Nat} : bitlen n = 0 ↔ n = 0 := by unfold bitlen; split <;> simp_all

/-- The defining bounds: `2^(k−1) ≤ n < 2^k` for `k = bitlen(n)`, `n ≥ 1` (R14). -/
theorem bitlen_bounds {n : Nat} (h : n ≠ 0) : 2 ^ (bitlen n - 1) ≤ n ∧ n < 2 ^ bitlen n := by
  rw [bitlen_of_pos h]
  exact ⟨Nat.log2_self_le h, Nat.lt_log2_self⟩

theorem bitlen_le {n k : Nat} (h : n < 2 ^ k) : bitlen n ≤ k := by
  by_cases h0 : n = 0
  · simp [h0]
  · rw [bitlen_of_pos h0]
    exact (Nat.log2_lt h0).2 h

/-! Coefficients -/

theorem sext16_natAbs_le (u : Half) : (sext16 u).natAbs ≤ 32768 := by
  have h := u.isLt
  unfold sext16
  rw [BitVec.toInt_eq_toNat_cond]
  split <;> omega

theorem coef_natAbs_le (blk : Vector Half 64) (r c : Nat) : (coef blk r c).natAbs ≤ 32768 :=
  sext16_natAbs_le _

theorem sext16_eq_zero {u : Half} : sext16 u = 0 ↔ u = 0 := by
  unfold sext16
  constructor
  · intro h; exact BitVec.eq_of_toInt_eq (by simpa using h)
  · rintro rfl; rfl

theorem expClass_eq_zero {v : Int} : expClass v = 0 ↔ v = 0 := by
  unfold expClass; rw [bitlen_eq_zero]; exact Int.natAbs_eq_zero

theorem expClass_le {v : Int} (h : v.natAbs ≤ 32768) : expClass v ≤ 16 :=
  bitlen_le (by omega)

theorem expClass_coef_le (blk : Vector Half 64) (r c : Nat) : expClass (coef blk r c) ≤ 16 :=
  expClass_le (coef_natAbs_le blk r c)

theorem signCode_le (v : Int) : signCode v ≤ 2 := by unfold signCode; split <;> (try split) <;> omega

theorem nz77_le (blk : Vector Half 64) (r c : Nat) : nz77 blk r c ≤ 1 := by
  unfold nz77; split <;> omega

theorem s77_le (blk : Vector Half 64) (r c : Nat) : s77 blk r c ≤ 2 := by
  unfold s77; split
  · exact signCode_le _
  · omega

theorem e77_le (blk : Vector Half 64) (r c : Nat) : e77 blk r c ≤ 16 := by
  unfold e77; split
  · exact expClass_coef_le ..
  · omega

theorem thr_le (q : Half) : thr q ≤ 4 := Nat.sub_le _ _

/-! Lists of decisions -/

@[simp] theorem unary_length (k : TokenClass) (p b n : Nat) (closed : Bool) :
    (unary k p b n closed).length = n + closed.toNat := by
  cases closed <;> simp [unary]

@[simp] theorem residualBits_length (e : Nat) : (residualBits e).length = e - 1 := by
  simp [residualBits]

theorem mem_residualBits {e k : Nat} : k ∈ residualBits e ↔ k + 1 < e := by
  simp [residualBits]; omega

theorem mem_unary {k : TokenClass} {p b n : Nat} {closed : Bool} {t : Token} :
    t ∈ unary k p b n closed ↔
      (∃ i, i < n ∧ t = ⟨k, p, b, i, true⟩) ∨ (closed = true ∧ t = ⟨k, p, b, n, false⟩) := by
  cases closed <;> simp [unary, eq_comm]

/-- The decisions of a nonzero coefficient outside DC: 2e of them, 31 if e = 16 (R175, R177). -/
theorem stripNonzero_length (v : Int) (pe prevE prevS : Nat) :
    (stripNonzero v pe prevE prevS).length =
      (expClass v - 1) + (decide (expClass v < 16)).toNat + (expClass v - 1) + 1 := by
  simp [stripNonzero]; omega

theorem interior_length (blk qt : Vector Half 64) (r c : Nat) :
    (interior blk qt r c).length =
      if coef blk r c = 0 then 0
      else (expClass (coef blk r c) - 1) + (decide (expClass (coef blk r c) < 16)).toNat +
        (expClass (coef blk r c) - 1) + 1 := by
  unfold interior
  dsimp only
  split
  · rfl
  · simp; omega

/-! Coordinates (R163, R164) -/

theorem subgrid_length : subgrid.length = 49 := by decide

theorem mem_subgrid {rc : Nat × Nat} (h : rc ∈ subgrid) :
    1 ≤ rc.1 ∧ rc.1 ≤ 7 ∧ 1 ≤ rc.2 ∧ rc.2 ≤ 7 := by
  revert rc; decide

theorem p77_lt {r c : Nat} (hr : r ≤ 7) (hc : c ≤ 7) : p77 r c < 49 := by unfold p77; omega

/-! Coding a list of decisions -/

/-- A property that each completed decision keeps holds after all of them. -/
theorem encodeAll_keeps {P : Params} {ch : Chan} {pos : Position} (I : Encoder → Prop)
    (step : ∀ r bit e e', I e → r.ch = ch → r.pos = pos → encodeDecision P r bit e = .done e' → I e') :
    ∀ {l : List Token} {e e' : Encoder}, I e → encodeAll P ch pos l e = .done e' → I e'
  | [], e, e', h, he => by cases he; exact h
  | t :: rest, e, e', h, he => by
    unfold encodeAll at he
    split at he
    · next d hd => exact encodeAll_keeps I step (step _ _ _ _ h rfl rfl hd) he
    · cases he
    · cases he

/-- When coding a list raises OUT_OVERFLOW, one decision raised it, after others completed. -/
theorem encodeAll_overflow {P : Params} {ch : Chan} {pos : Position} (I : Encoder → Prop)
    (step : ∀ r bit e e', I e → r.ch = ch → r.pos = pos → encodeDecision P r bit e = .done e' → I e') :
    ∀ {l : List Token} {e e' : Encoder}, I e → encodeAll P ch pos l e = .overflow e' →
      ∃ r bit d, r.ch = ch ∧ r.pos = pos ∧ I d ∧ encodeDecision P r bit d = .overflow e'
  | [], e, e', h, he => by cases he
  | t :: rest, e, e', h, he => by
    unfold encodeAll at he
    split at he
    · next d hd => exact encodeAll_overflow I step (step _ _ _ _ h rfl rfl hd) he
    · next d hd => cases he; exact ⟨_, _, _, rfl, rfl, h, hd⟩
    · cases he

/-- When coding a list does not end, one decision did not end, after others completed. -/
theorem encodeAll_stuck {P : Params} {ch : Chan} {pos : Position} (I : Encoder → Prop)
    (step : ∀ r bit e e', I e → r.ch = ch → r.pos = pos → encodeDecision P r bit e = .done e' → I e') :
    ∀ {l : List Token} {e : Encoder}, I e → encodeAll P ch pos l e = .stuck →
      ∃ r bit d, r.ch = ch ∧ r.pos = pos ∧ I d ∧ encodeDecision P r bit d = .stuck
  | [], e, h, he => by cases he
  | t :: rest, e, h, he => by
    unfold encodeAll at he
    split at he
    · next d hd => exact encodeAll_stuck I step (step _ _ _ _ h rfl rfl hd) he
    · cases he
    · next hd => exact ⟨_, _, _, rfl, rfl, h, hd⟩

theorem encodeAll_append {P : Params} {ch : Chan} {pos : Position} (l m : List Token) (e : Encoder) :
    encodeAll P ch pos (l ++ m) e =
      match encodeAll P ch pos l e with
      | .done e' => encodeAll P ch pos m e'
      | .overflow e' => .overflow e'
      | .stuck => .stuck := by
  induction l generalizing e with
  | nil => rfl
  | cons t rest ih =>
    simp only [List.cons_append, encodeAll]
    cases encodeDecision P (t.ref ch pos) t.bit e <;> simp [ih]

/-- Everything the end of a coding command can do. -/
theorem afterCoding_cases {w : Word} {s : State} {done : State → State} {c : Coded Encoder} {o : Outcome}
    (h : afterCoding w s done c = o) :
    (∃ e, c = .done e ∧ o = .next (done (s.withEncoder e))) ∨
    (∃ e, c = .overflow e ∧ o = .next (raiseFault .outOverflow w (s.withEncoder e))) ∨
    (c = .stuck ∧ o = .fault .coderStuck) := by
  cases c with
  | done e => exact .inl ⟨e, rfl, h.symm⟩
  | overflow e => exact .inr (.inl ⟨e, rfl, h.symm⟩)
  | stuck => exact .inr (.inr ⟨rfl, h.symm⟩)

end Sys2Proof.Machine
end

