-- ==== Sys2Proof/Laws/Exec.lean ====
section
/-! SUPPORT. Everything a command can do, said once: `Effect` is what a command does that completes, `Overflow` is
what it has written when an `Append` raises OUT_OVERFLOW, and `exec_cases` says that there is nothing else but a
drop in FAULT and a fault that writes nothing else. -/

namespace Sys2Proof.Machine

/-! The coder never takes a byte back and never passes OUT_CAP -/

/-- The payload of `d` goes on from that of `c`, and passes OUT_CAP only if that one did. -/
def Coder.Extends (P : Params) (c d : Coder) : Prop :=
  c.out <+: d.out ∧ (c.out.length ≤ P.outCap.val → d.out.length ≤ P.outCap.val)

theorem Coder.Extends.refl (P : Params) (c : Coder) : Coder.Extends P c c := ⟨List.prefix_refl _, id⟩

theorem Coder.Extends.trans {P : Params} {a b c : Coder} (h : Coder.Extends P a b) (g : Coder.Extends P b c) :
    Coder.Extends P a c :=
  ⟨h.1.trans g.1, fun x => g.2 (h.2 x)⟩

theorem shiftLow_ok_extends {P : Params} {c d : Coder} (h : shiftLow P c = .ok d) : Coder.Extends P c d := by
  rcases shiftLow_ok h with ⟨_, hr, rfl⟩ | ⟨_, rfl⟩
  · exact ⟨List.prefix_append _ _, fun _ => by
      simp only [flushed, List.length_append, heldBytes_length]; omega⟩
  · exact Coder.Extends.refl P c

theorem shiftLow_error_extends {P : Params} {c d : Coder} (h : shiftLow P c = .error d) :
    Coder.Extends P c d := by
  obtain ⟨l, _, rfl, h2⟩ := shiftLow_error h
  exact ⟨List.prefix_append _ _, fun h => by omega⟩

theorem shiftTimes_extends {P : Params} : ∀ {n : Nat} {c d : Coder},
    (shiftTimes P n c = .ok d ∨ shiftTimes P n c = .error d) → Coder.Extends P c d
  | 0, c, d, h => by rcases h with h | h <;> cases h; exact Coder.Extends.refl P _
  | n + 1, c, d, h => by
    simp only [shiftTimes] at h
    split at h
    · next c' hc => exact (shiftLow_ok_extends hc).trans (shiftTimes_extends h)
    · next c' hc => rcases h with h | h <;> cases h; exact shiftLow_error_extends hc

theorem normalise_extends {P : Params} : ∀ {n : Nat} {c d : Coder},
    (normalise P n c = .done d ∨ normalise P n c = .overflow d) → Coder.Extends P c d
  | 0, c, d, h => by
    simp only [normalise] at h
    split at h <;> rcases h with h | h <;> cases h
    exact Coder.Extends.refl P _
  | n + 1, c, d, h => by
    simp only [normalise] at h
    split at h
    · split at h
      · next c' hc =>
        have g := shiftLow_ok_extends hc
        exact Coder.Extends.trans ⟨g.1, g.2⟩ (normalise_extends h)
      · next c' hc =>
        rcases h with h | h <;> cases h
        have g := shiftLow_error_extends hc
        exact ⟨g.1, g.2⟩
    · rcases h with h | h <;> cases h
      exact Coder.Extends.refl P _

/-- From any registers: `Encode` extends the payload and writes the one cell (42_arithmetic_coder.md R145). -/
theorem encodeDecision_extends {P : Params} {r : CellRef} {bit : Bool} {e d : Encoder}
    (h : encodeDecision P r bit e = .done d ∨ encodeDecision P r bit e = .overflow d) :
    Coder.Extends P e.coder d.coder ∧ d.pt = Memory.write e.pt r (adapt (Memory.read e.pt r) bit) := by
  simp only [encodeDecision] at h
  split at h <;> rcases h with h | h <;> cases h
  · next c hc =>
    have := normalise_extends (.inl hc)
    exact ⟨⟨by simpa using this.1, by simpa using this.2⟩, rfl⟩
  · next c hc =>
    have := normalise_extends (.inr hc)
    exact ⟨⟨by simpa using this.1, by simpa using this.2⟩, rfl⟩

/-- From any registers: coding a list of decisions extends the payload, keeps the cells of every other table,
keeps all cells legal and keeps the canonical form. -/
theorem encodeAll_extends {P : Params} {ch : Chan} {pos : Position} : ∀ {l : List Token} {e d : Encoder},
    (encodeAll P ch pos l e = .done d ∨ encodeAll P ch pos l e = .overflow d) →
    Coder.Extends P e.coder d.coder ∧
      (∀ r, ¬ (r.ch = ch ∧ r.pos = pos) → Memory.read d.pt r = Memory.read e.pt r) ∧
      (Memory.legal e.pt → Memory.legal d.pt) ∧ (Memory.wf e.pt → Memory.wf d.pt)
  | [], e, d, h => by
    rcases h with h | h <;> cases h
    exact ⟨Coder.Extends.refl P _, fun _ _ => rfl, id, id⟩
  | t :: rest, e, d, h => by
    have one : ∀ {x : Encoder}, Coder.Extends P e.coder x.coder ∧
        x.pt = Memory.write e.pt (t.ref ch pos) (adapt (Memory.read e.pt (t.ref ch pos)) t.bit) →
        Coder.Extends P e.coder x.coder ∧
          (∀ r, ¬ (r.ch = ch ∧ r.pos = pos) → Memory.read x.pt r = Memory.read e.pt r) ∧
          (Memory.legal e.pt → Memory.legal x.pt) ∧ (Memory.wf e.pt → Memory.wf x.pt) := by
      rintro x ⟨g, hx⟩
      refine ⟨g, fun r hr => ?_, fun hl => ?_, fun hw => ?_⟩
      · rw [hx, read_write_of_ne]
        rintro rfl
        exact hr ⟨rfl, rfl⟩
      · rw [hx]; exact legal_write hl _ (legal_adapt (hl _) _)
      · rw [hx]; exact wf_write hw _ _
    simp only [encodeAll] at h
    split at h
    · next e' he =>
      obtain ⟨a1, a2, a3, a4⟩ := one (encodeDecision_extends (.inl he))
      obtain ⟨b1, b2, b3, b4⟩ := encodeAll_extends h
      exact ⟨a1.trans b1, fun r hr => (b2 r hr).trans (a2 r hr), b3 ∘ a3, b4 ∘ a4⟩
    · next e' he => rcases h with h | h <;> cases h; exact one (encodeDecision_extends (.inr he))
    · rcases h with h | h <;> cases h

/-! Advance -/

/-- `Advance` writes the three cursor registers and nothing else (41_position_selector.md R125). -/
theorem advance_fields (ch : Chan) (s : State) : advance ch s = { s with
    row := (advance ch s).row, col := (advance ch s).col, blkpos := (advance ch s).blkpos } := by
  unfold advance; simp only; split <;> rfl


/-! Commands -/

/-- What a command does that completes without a fault, from state to state. -/
inductive Effect : Instr → State → State → Prop
  | nop (s) : Effect .nop s s
  | passBegin (w) (s) (h : s.state = .idle ∨ s.state = .done) : Effect (.passBegin w) s
      { clearPass s with pt := if w then s.pt else Memory.initAll, state := .active }
  | passEnd (s) (c : Coder) (h : s.state = .active) (hx : ∀ ch, exhausted s ch = true)
      (hf : finish s.params s.coder = .ok c) : Effect .passEnd s
      { sinkAll (frame s.params c.out) (s.withCoder c) with state := .done }
  | passAbort (s) : Effect .passAbort s { clearPass s with state := .idle }
  | csrRd (a) (s) : Effect (.csrRd a) s (resp (csrRead s a) s)
  | outPopEmpty (s) (h : s.sinkq = []) : Effect .outPop s (resp emptyPopResponse s)
  | outPop (s) (x : Symbol) (rest) (h : s.sinkq = x :: rest) :
      Effect .outPop s (resp (popResponse x) { s with sinkq := rest })
  | curW (ch) (c : Chan) (v) (s) (h : s.state = .idle ∨ s.state = .done) (hc : ch.toNat = c.val) :
      Effect (.curW ch v) s (homeCursor c { s with width := s.width.set c v })
  | curH (ch) (c : Chan) (v) (s) (h : s.state = .idle ∨ s.state = .done) (hc : ch.toNat = c.val) :
      Effect (.curH ch v) s (homeCursor c { s with nrows := s.nrows.set c v })
  | select (ch) (c : Chan) (s) (hc : ch.toNat = c.val) : Effect (.select ch) s
      (resp (if exhausted s c then exhaustedResponse else selectResponse (nextPosition s c)) s)
  | ptAddr (ch pos cell) (r) (s) (h : cellRef? ch pos cell = some r) :
      Effect (.ptAddr ch pos cell) s { s with ptr := r }
  | ptWr (v) (s) (h : s.state = .idle ∨ s.state = .done) : Effect (.ptWr v) s
      { s with pt := Memory.write s.pt s.ptr (clamp v pMin pMax), ptr := s.ptr.stepCell }
  | ptRd (s) : Effect .ptRd s
      { resp (zext32 (Memory.read s.pt s.ptr)) s with ptr := s.ptr.stepCell }
  | ptInit (a) (s) (h : s.state = .idle ∨ s.state = .done) : Effect (.ptInit a) s
      { s with pt := if a then Memory.initAll else Memory.initTable s.pt s.ptr.ch s.ptr.pos }
  | encBit (ch pos cell b) (r) (e : Encoder) (s) (h : s.state = .active)
      (hr : cellRef? ch pos cell = some r) (he : encodeDecision s.params r b s.encoder = .done e) :
      Effect (.encBit ch pos cell b) s (s.withEncoder e)
  | qtWr (ch) (c : Chan) (z v) (s) (h : s.state = .idle ∨ s.state = .done) (hc : ch.toNat = c.val) :
      Effect (.qtWr ch z v) s { s with qt := s.qt.set c (s.qt[c].set (zigzagIndex z) v) }
  | blkWr (z v) (s) : Effect (.blkWr z v) s { s with blk := s.blk.set (zigzagIndex z) v }
  | blkClr (s) : Effect .blkClr s { s with blk := .replicate 64 0 }
  | encBlock (ch) (c : Chan) (e : Encoder) (s) (h : s.state = .active) (hc : ch.toNat = c.val)
      (hx : exhausted s c = false) (he : serialize c (nextPosition s c) s = .done e) :
      Effect (.encBlock ch) s (advance c ((recordBlock c s).withEncoder e))

/-- What a command has written when an `Append` raises OUT_OVERFLOW (60_exceptions.md R224), before the fault
itself. -/
inductive Overflow : Instr → State → State → Prop
  | passEnd (s) (c : Coder) (h : s.state = .active) (hx : ∀ ch, exhausted s ch = true)
      (hf : finish s.params s.coder = .error c) : Overflow .passEnd s (s.withCoder c)
  | encBit (ch pos cell b) (r) (e : Encoder) (s) (h : s.state = .active)
      (hr : cellRef? ch pos cell = some r) (he : encodeDecision s.params r b s.encoder = .overflow e) :
      Overflow (.encBit ch pos cell b) s (s.withEncoder e)
  | encBlock (ch) (c : Chan) (e : Encoder) (s) (h : s.state = .active) (hc : ch.toNat = c.val)
      (hx : exhausted s c = false) (he : serialize c (nextPosition s c) s = .overflow e) :
      Overflow (.encBlock ch) s ((recordBlock c s).withEncoder e)

/-- Everything a command that answers a next state can have done: it was dropped in FAULT; it raised a fault
and wrote nothing else; it had its effect; or it raised OUT_OVERFLOW. -/
theorem exec_cases {i : Instr} {s t : State} (h : exec i s = .next t) :
    (s.state = .fault ∧ (∀ a, i ≠ .csrRd a) ∧ t = s) ∨
    (s.state ≠ .fault ∧ ∃ code, code ≠ .none ∧ code ≠ .outOverflow ∧ t = raiseFault code (encode i) s) ∨
    ((s.state ≠ .fault ∨ ∃ a, i = .csrRd a) ∧ Effect i s t) ∨
    (s.state ≠ .fault ∧ ∃ u, Overflow i s u ∧ t = raiseFault .outOverflow (encode i) u) := by
  cases i <;> simp only [exec, execNop, execPassBegin, execPassEnd, execPassAbort, execOutPop, execCurW,
    execCurH, execSelect, execPtAddr, execPtWr, execPtRd, execPtInit, execEncBit, execQtWr, execBlkWr,
    execBlkClr, execEncBlock] at h
  case csrRd a => cases h; exact .inr (.inr (.inl ⟨.inr ⟨a, rfl⟩, .csrRd ..⟩))
  all_goals
    rcases command_cases h with ⟨hf, h⟩ | ⟨hf, hl, h⟩ | ⟨hf, hl, h⟩
    · cases h; exact .inl ⟨hf, nofun, rfl⟩
    · cases h; exact .inr (.inl ⟨hf, _, by simp, by simp, rfl⟩)
    try simp only [outsidePass_iff, insidePass_iff] at hl
  case nop => cases h; exact .inr (.inr (.inl ⟨.inl hf, .nop _⟩))
  case passBegin w => cases h; exact .inr (.inr (.inl ⟨.inl hf, .passBegin _ _ hl⟩))
  case passEnd =>
    split at h
    · next hx =>
      have hx' : ∀ ch, exhausted s ch = true := by
        simp only [Bool.and_eq_true] at hx
        intro ch
        fin_cases ch <;> simp [hx]
      split at h
      · next c hc => cases h; exact .inr (.inr (.inl ⟨.inl hf, .passEnd _ _ hl hx' hc⟩))
      · next c hc => cases h; exact .inr (.inr (.inr ⟨hf, _, .passEnd _ _ hl hx' hc, rfl⟩))
    · cases h; exact .inr (.inl ⟨hf, _, by simp, by simp, rfl⟩)
  case passAbort => cases h; exact .inr (.inr (.inl ⟨.inl hf, .passAbort _⟩))
  case outPop =>
    split at h
    · next hx => cases h; exact .inr (.inr (.inl ⟨.inl hf, .outPopEmpty _ hx⟩))
    · next hx => cases h; exact .inr (.inr (.inl ⟨.inl hf, .outPop _ _ _ hx⟩))
  case curW | curH | select | qtWr =>
    rcases withChannel_cases h with ⟨rfl, h⟩ | ⟨c, hc, h⟩
    · cases h; exact .inr (.inl ⟨hf, _, by simp, by simp, rfl⟩)
    · cases h
      refine .inr (.inr (.inl ⟨.inl hf, ?_⟩))
      constructor <;> assumption
  case ptAddr =>
    rcases withCell_cases h with ⟨hn, h⟩ | ⟨c, hc, h⟩
    · cases h; exact .inr (.inl ⟨hf, _, by simp, by simp, rfl⟩)
    · cases h; exact .inr (.inr (.inl ⟨.inl hf, .ptAddr _ _ _ _ _ hc⟩))
  case ptWr | ptRd | ptInit | blkWr | blkClr =>
    cases h
    refine .inr (.inr (.inl ⟨.inl hf, ?_⟩))
    constructor <;> assumption
  case encBit =>
    rcases withCell_cases h with ⟨hn, h⟩ | ⟨c, hc, h⟩
    · cases h; exact .inr (.inl ⟨hf, _, by simp, by simp, rfl⟩)
    · rcases afterCoding_cases h with ⟨e, he, h⟩ | ⟨e, he, h⟩ | ⟨_, h⟩ <;> cases h
      · exact .inr (.inr (.inl ⟨.inl hf, .encBit _ _ _ _ _ _ _ hl hc he⟩))
      · exact .inr (.inr (.inr ⟨hf, _, .encBit _ _ _ _ _ _ _ hl hc he, rfl⟩))
  case encBlock =>
    rcases withChannel_cases h with ⟨rfl, h⟩ | ⟨c, hc, h⟩
    · cases h; exact .inr (.inl ⟨hf, _, by simp, by simp, rfl⟩)
    · split at h
      · cases h; exact .inr (.inl ⟨hf, _, by simp, by simp, rfl⟩)
      · next hx =>
        rcases afterCoding_cases h with ⟨e, he, h⟩ | ⟨e, he, h⟩ | ⟨_, h⟩ <;> cases h
        · exact .inr (.inr (.inl ⟨.inl hf, .encBlock _ _ _ _ hl hc (by simpa using hx) he⟩))
        · exact .inr (.inr (.inr ⟨hf, _, .encBlock _ _ _ _ hl hc (by simpa using hx) he, rfl⟩))

end Sys2Proof.Machine
end

