-- ==== Sys2Proof/Tests/Slice0.lean ====
section
/-! SUPPORT. The model's own tests. Every expected value is taken from the spec: the words and vectors of
95_test_vectors.md and 96_test_vectors_serializer.md, and the tables of the rules. After them, for every
statement with hypotheses, a theorem that shows a state and operands which meet them all. -/

namespace Sys2Proof.Tests

open Sys2Proof.Machine Sys2Proof.Statements

/-! ## States the tests start from -/

/-- The reset state with known parameters. -/
def idle : State := { State.reset with params := ⟨0xA5, 4294967295⟩ }

/-- The reset state inside a cold pass. -/
def active : State := { idle with state := .active }

/-- A pass with one block in channel 0 (vector TS-1). -/
def oneBlock : State := { active with width := #v[1, 0, 0], nrows := #v[1, 0, 0] }

/-- After a pass: a frame waits. -/
def done : State := { idle with state := .done, out := [0, 0, 0, 0, 0], sinkq := [.raw, .byte 0xA5] }

/-- Stopped by the unassigned opcode of vector F-1. -/
def stopped : State := { idle with state := .fault, fcode := .illegalCommand, finfo := 0xFC000000 }

/-- The state after the block met one command word on its port. -/
def after (s : State) (w : Word) : Option State :=
  match step { s with inputs := [.word w] } with
  | .next t => some t
  | _ => none

/-- A few registers of the state after one command word. -/
def look {α : Type} (s : State) (w : Word) (f : State → α) : Option α := (after s w).map f

/-- STATUS and FINFO, as the fault vectors give them. -/
def status (t : State) : Word × Word := (statusWord t.state t.fcode, t.finfo)

/-! ## WellFormed refuses an ill-formed term for each check (30_encoding.md R83) -/

theorem test_channel_3_is_ill_formed :
    (Instr.select 3).wellFormed = false ∧ (Instr.curW 3 1).wellFormed = false ∧
    (Instr.curH 3 1).wellFormed = false ∧ (Instr.qtWr 3 0 1).wellFormed = false ∧
    (Instr.encBlock 3).wellFormed = false ∧ (Instr.ptAddr 3 0 0).wellFormed = false ∧
    (Instr.encBit 3 0 0 false).wellFormed = false ∧ (Instr.select 2).wellFormed = true := by decide

theorem test_positions_6_and_7_are_ill_formed :
    (Instr.ptAddr 0 6 0).wellFormed = false ∧ (Instr.encBit 0 7 0 false).wellFormed = false ∧
    (Instr.ptAddr 0 7 0).wellFormed = false ∧ (Instr.ptAddr 0 5 0).wellFormed = true := by decide

theorem test_cell_4627_is_ill_formed :
    (Instr.ptAddr 0 0 4627).wellFormed = false ∧ (Instr.encBit 0 0 8191 true).wellFormed = false ∧
    (Instr.ptAddr 2 5 4626).wellFormed = true := by decide

/-! ## Words of 95_test_vectors.md 2.1, one for each command, in both directions -/

theorem test_word_nop : decode 0x00000000 = some .nop ∧ encode .nop = 0x00000000 := by decide
theorem test_word_pass_begin :
    decode 0x04000001 = some (.passBegin true) ∧ encode (.passBegin true) = 0x04000001 := by decide
theorem test_word_pass_end : decode 0x08000000 = some .passEnd ∧ encode .passEnd = 0x08000000 := by decide
theorem test_word_pass_abort :
    decode 0x0C000000 = some .passAbort ∧ encode .passAbort = 0x0C000000 := by decide
theorem test_word_csr_rd :
    decode 0x1000001A = some (.csrRd 0x1A) ∧ encode (.csrRd 0x1A) = 0x1000001A := by decide
theorem test_word_out_pop : decode 0x14000000 = some .outPop ∧ encode .outPop = 0x14000000 := by decide
theorem test_word_cur_w :
    decode 0x2200FFFF = some (.curW 2 65535) ∧ encode (.curW 2 65535) = 0x2200FFFF := by decide
theorem test_word_cur_h : decode 0x24000000 = some (.curH 0 0) ∧ encode (.curH 1 2) = 0x25000002 := by decide
theorem test_word_select :
    decode 0x2A000000 = some (.select 2) ∧ encode (.select 2) = 0x2A000000 := by decide
theorem test_word_pt_addr :
    decode 0x42B21200 = some (.ptAddr 2 5 4626) ∧ encode (.ptAddr 2 5 4626) = 0x42B21200 := by decide
theorem test_word_pt_wr :
    decode 0x440007FF = some (.ptWr 2047) ∧ encode (.ptWr 2047) = 0x440007FF := by decide
theorem test_word_pt_rd : decode 0x48000000 = some .ptRd ∧ encode .ptRd = 0x48000000 := by decide
theorem test_word_pt_init :
    decode 0x4C000001 = some (.ptInit true) ∧ encode (.ptInit true) = 0x4C000001 := by decide
theorem test_word_enc_bit :
    decode 0x616D6401 = some (.encBit 1 3 3428 true) ∧ encode (.encBit 1 3 3428 true) = 0x616D6401 := by
  decide
theorem test_word_qt_wr :
    decode 0x823FFFFF = some (.qtWr 2 63 65535) ∧ encode (.qtWr 2 63 65535) = 0x823FFFFF := by decide
theorem test_word_blk_wr :
    decode 0x843F8000 = some (.blkWr 63 0x8000) ∧ encode (.blkWr 63 0x8000) = 0x843F8000 := by decide
theorem test_word_blk_clr : decode 0x88000000 = some .blkClr ∧ encode .blkClr = 0x88000000 := by decide
theorem test_word_enc_block :
    decode 0x8E000000 = some (.encBlock 2) ∧ encode (.encBlock 2) = 0x8E000000 := by decide

/-- The words of 2.1 that decode to no command: unassigned opcodes and reserved bits. -/
theorem test_words_of_no_command : [0x18000000, 0x2C000000, 0x50000000, 0x64000000, 0x90000000, 0xFFFFFFFF,
    0x00000001, 0x04000002, 0x10000100, 0x20010000, 0x28000001, 0x40000001, 0x44000800, 0x60000002,
    0x80400000, 0x84400000, 0x8C000001].map decode = List.replicate 17 none := by decide

/-- The ill-formed words of 2.1 are commands all the same. -/
theorem test_words_with_bad_operands : decode 0x23000001 = some (.curW 3 1) ∧
    decode 0x40C00000 = some (.ptAddr 0 6 0) ∧ decode 0x40121300 = some (.ptAddr 0 0 4627) := by decide

theorem test_table_word : decodeTableWord 32 0x42B21200 = some (.ptAddr 2 5 4626) ∧
    step (State.reset.withFetchWord 32 0x42B21200) = .next { State.reset with ptr := ⟨2, .midRight, 4626⟩ } := by
  refine ⟨by decide, rfl⟩

/-! ## Tables of the rules -/

/-- The inverse map RC of 43_token_serializer.md R163 inverts ZZ. -/
theorem test_zigzag_inverse :
    (rasterTable.map fun rc => (zigzag rc.1 rc.2).val) = List.range 64 := by decide

/-- The sub-grid order and its P77 values, as R164 lists them. -/
theorem test_subgrid_order :
    (subgrid.map fun rc => (zigzag rc.1 rc.2).val) =
      [4, 7, 8, 11, 12, 13, 16, 17, 18, 19, 22, 23, 24, 25, 26, 29, 30, 31, 32, 33, 34, 36, 37, 38, 39, 40, 41,
       42, 43, 44, 45, 46, 47, 48, 49, 50, 51, 52, 53, 54, 55, 56, 57, 58, 59, 60, 61, 62, 63] ∧
    (subgrid.map fun rc => p77 rc.1 rc.2) =
      [0, 1, 7, 14, 8, 2, 3, 9, 15, 21, 28, 22, 16, 10, 4, 5, 11, 17, 23, 29, 35, 42, 36, 30, 24, 18, 12, 6,
       13, 19, 25, 31, 37, 43, 44, 38, 32, 26, 20, 27, 33, 39, 45, 46, 40, 34, 41, 47, 48] := by decide

/-- The indices of the two strips (R164). -/
theorem test_strip_indices :
    ([1, 2, 3, 4, 5, 6, 7].map fun c => (zigzag 0 c).val) = [1, 5, 6, 14, 15, 27, 28] ∧
    ([1, 2, 3, 4, 5, 6, 7].map fun r => (zigzag r 0).val) = [2, 3, 9, 10, 20, 21, 35] := by decide

/-- Adapt, from the table of 95_test_vectors.md 2.2. -/
theorem test_adapt : adapt 1024 false = 1056 ∧ adapt 1024 true = 992 ∧ adapt 2016 false = 2017 ∧
    adapt 2017 true = 1954 ∧ adapt 31 false = 94 ∧ adapt 63 true = 62 ∧ adapt 64 true = 62 := by decide

/-- Select, from the table S2, and its corners at width 65535. -/
theorem test_select_table :
    ([0, 1, 2, 3].map fun c => (selectPosition 4 0 c).code) = [0, 1, 1, 1] ∧
    ([0, 1, 2, 3].map fun c => (selectPosition 4 2 c).code) = [3, 4, 4, 5] ∧
    ([0, 1].map fun c => (selectPosition 2 1 c).code) = [3, 5] ∧
    ([0, 1, 2].map fun r => (selectPosition 1 r 0).code) = [0, 2, 2] ∧
    (selectPosition 65535 65534 65534).code = 5 ∧ (selectPosition 65535 65534 65533).code = 4 := by decide

/-- The block of program P1 with its step 8 at index 4. -/
def blockP1 : Vector Half 64 :=
  ((((Vector.replicate 64 0).set 0 0xFFFB).set 1 3).set 2 2).set 4 0xFFFA

def stepsP1 : Vector Half 64 := (Vector.replicate 64 0).set 4 8

/-- The 84 decisions of program P1: cells in order, and which of them are 0. -/
theorem test_decisions_of_p1 :
    ((tokens blockP1 stepsP1).map fun t => (cellAddr t.cls t.p t.b t.i).val) =
      [0, 9, 58, 112, 68, 16, 24, 72, 120, 168, 224, 176, 128, 80, 32, 40, 88, 136, 184, 232, 280, 336, 288,
       240, 192, 144, 96, 48, 104, 152, 200, 248, 296, 344, 352, 304, 256, 208, 160, 216, 264, 312, 360, 368,
       320, 272, 328, 376, 384, 392, 393, 394, 395, 409, 408, 423, 424, 425, 426, 3364, 3424, 3428, 3437, 3535,
       3536, 4375, 4585, 3444, 3452, 3460, 3468, 3476, 3484, 3486, 3955, 3956, 4480, 4606, 3493, 3501, 3509,
       3517, 3525, 3533] ∧
    ((tokens blockP1 stepsP1).filter fun t => !t.bit).map (fun t => (cellAddr t.cls t.p t.b t.i).val) =
      [0, 395, 409, 426, 3424, 3437, 3536, 4585, 3486, 3956, 4480, 4606] := by decide +kernel

/-! ## One step of each command -/

/-- NOP changes nothing. -/
theorem test_nop : after oneBlock 0x00000000 = some oneBlock := by decide

/-- PASS-3: a warm start keeps the 2017 of cell 0, a cold one does not. -/
theorem test_pass_begin :
    look { done with pt := [(0, 2017)] } 0x04000001 (fun t => (t.state, t.pt, t.out)) =
      some (.active, [(0, 2017)], []) ∧
    look { done with pt := [(0, 2017)] } 0x04000000 (fun t => (t.state, t.pt, t.sinkq)) =
      some (.active, [], []) := by decide

/-- BAC-A: the frame after twelve decisions. -/
theorem test_pass_end : look { active with
      low := 0x034611A0D, range := 0x0E04D851, cache := 0x31, out := [0] } 0x08000000
      (fun t => (t.out, t.sinkq, t.range)) =
    some ([0x00, 0x31, 0x34, 0x61, 0x1A, 0x0D],
      .raw :: [0xA5, 0, 0, 0, 6, 0x00, 0x31, 0x34, 0x61, 0x1A, 0x0D].map .byte, 0x0E04D851) := by decide

/-- F-14: an unfinished channel. -/
theorem test_pass_end_mismatch : look oneBlock 0x08000000 status = some (0x53, 0x08000000) := by decide

/-- PASS-2: the coder restarts, the cell keeps 992. -/
theorem test_pass_abort : look { active with pt := [(0, 992)], low := 0x7FFFFC00, range := 0x800003FF }
      0x0C000000 (fun t => (t.state, t.pt, t.low, t.range)) =
    some (.idle, [(0, 992)], 0, 0xFFFFFFFF) := by decide

/-- PT-1 step 5 and PASS-4: PTR = (2, 5, 1); the carry of LOW; an unassigned address. -/
theorem test_csr_rd : ([0x1000000C, 0x10000005, 0x10000004, 0x1000000D].map fun w =>
    look { active with ptr := ⟨2, .midRight, 1⟩, low := 0x112000000 } w (·.respq)) =
      [some [0x02A00100], some [1], some [0x12000000], some [0]] := by decide

/-- CSR_RD answers in FAULT (60_exceptions.md R223). -/
theorem test_csr_rd_in_fault : look stopped 0x10000000 (·.respq) = some [0x13] := by decide

/-- PASS-1: the RAW symbol, the marker, an empty queue. -/
theorem test_out_pop : look done 0x14000000 (fun t => (t.respq, t.sinkq)) = some ([0x300], [.byte 0xA5]) ∧
    look { done with sinkq := [.byte 0xA5] } 0x14000000 (·.respq) = some [0x2A5] ∧
    look idle 0x14000000 (·.respq) = some [0] := by decide

/-- R127: `CUR_W 1, 2` homes the cursor of channel 1. -/
theorem test_cur_w : look { done with row := #v[1, 2, 3], col := #v[4, 5, 6], blkpos := #v[7, 8, 9] } 0x21000002
      (fun t => (t.width, t.row, t.col, t.blkpos)) =
    some (#v[0, 2, 0], #v[1, 0, 3], #v[4, 0, 6], #v[7, 0, 9]) := by decide

/-- F-9. -/
theorem test_cur_w_channel_3 : look idle 0x23000001 status = some (0x33, 0x23000001) := by decide

/-- SEL-1: `CUR_H 1, 2` in DONE. -/
theorem test_cur_h : look { done with width := #v[0, 2, 0], row := #v[0, 2, 0], blkpos := #v[0, 4, 0] } 0x25000002
      (fun t => (t.width, t.nrows, t.row, t.blkpos)) =
    some (#v[0, 2, 0], #v[0, 2, 0], #v[0, 0, 0], #v[0, 0, 0]) := by decide

/-- F-21. -/
theorem test_cur_h_in_active : look active 0x24000001 status = some (0x23, 0x24000001) := by decide

/-- R129: the example, and an exhausted channel. -/
theorem test_select : look { active with
      width := #v[0, 2, 0], nrows := #v[0, 2, 0], row := #v[0, 1, 0], col := #v[0, 1, 0] } 0x29000000
      (·.respq) = some [0x1D] ∧ look idle 0x28000000 (·.respq) = some [0x100] := by decide

/-- F-22. -/
theorem test_select_channel_3 : look idle 0x2B000000 status = some (0x33, 0x2B000000) := by decide

/-- R109: the example; F-12: the first illegal cell. -/
theorem test_pt_addr : look active 0x40818800 (·.ptr) = some ⟨0, .interiorMiddle, 392⟩ ∧
    look idle 0x40121300 status = some (0x33, 0x40121300) := by decide

/-- PT-1 steps 2 and 3: clamped up; clamped down and wrapped to cell 0 of the same table. -/
theorem test_pt_wr : look { idle with ptr := ⟨2, .midRight, 4625⟩ } 0x44000000
      (fun t => (t.pt, t.ptr)) = some ([(83284, 31)], ⟨2, .midRight, 4626⟩) ∧
    look { idle with ptr := ⟨2, .midRight, 4626⟩ } 0x440007FF
      (fun t => (t.pt, t.ptr)) = some ([(83285, 2017)], ⟨2, .midRight, 0⟩) := by decide

/-- PT-2: not in ACTIVE. -/
theorem test_pt_wr_in_active : look active 0x44000005 status = some (0x23, 0x44000005) := by decide

/-- PT-1 step 8: the last cell, and the wrap. -/
theorem test_pt_rd : look { active with pt := [(83285, 2017)], ptr := ⟨2, .midRight, 4626⟩ } 0x48000000
      (fun t => (t.respq, t.ptr)) = some ([0x7E1], ⟨2, .midRight, 0⟩) := by decide

/-- PT-1 step 12: table (2, 5) only; step 27: every table. -/
theorem test_pt_init : ([0x4C000000, 0x4C000001].map fun w =>
    look { idle with pt := [(0, 31), (78658, 40), (78659, 50), (83285, 2017)], ptr := ⟨2, .midRight, 2⟩ } w
      (·.pt)) = [some [(0, 31), (78658, 40)], some []] := by decide

/-- R152, step 8 of BAC-A. -/
theorem test_enc_bit_shift : look { active with
      low := 0x03123A035, range := 0x01D45E7C, pt := [(0, 989)] } 0x60000000
      (fun t => (t.pt, t.coder)) =
    some ([(0, 1022)], ⟨0x023A03500, 0xE22AFF00, 0x31, 1, [0]⟩) := by decide

/-- Step 25 of BAC-B: a carry through a held-back 0xFF. -/
theorem test_enc_bit_carry : look { active with
      low := 0x112000000, range := 0x01000000, cache := 0xD6, pend := 2, out := [0] } 0x60001801
      (fun t => (t.pt, t.coder)) =
    some ([(24, 992)], ⟨0x080000000, 0x80000000, 0x12, 1, [0x00, 0xD7, 0x00]⟩) := by decide

/-- R166: the example; F-8: not in ACTIVE. -/
theorem test_qt_wr : look idle 0x80040008 (fun t => (t.qt[0][4], t.qt[1][4], t.qt[0][5])) = some (8, 0, 0) ∧
    look active 0x80000001 status = some (0x23, 0x80000001) := by decide

/-- R167: −32768 at index 63. -/
theorem test_blk_wr : look active 0x843F8000 (fun t => (t.blk[63], t.blk[62])) = some (0x8000, 0) := by decide

theorem test_blk_clr : look { active with blk := .replicate 64 7 } 0x88000000 (·.blk) =
    some (.replicate 64 0) := by decide

/-- TS-1: the all-zero block; the coder as row OUT_CAP = 7 of vector F-OVF shows it after the block. -/
theorem test_enc_block : look oneBlock 0x8C000000
      (fun t => (t.coder, t.lastsel, t.codedLen, t.row, t.blkpos)) =
    some (⟨0x0FAFFF000, 0x01001000, 0xBF, 1, [0x00, 0xFF, 0xFF, 0xFF, 0xFE, 0xFF, 0xFF]⟩, 0, 0,
      #v[1, 0, 0], #v[1, 0, 0]) := by decide +kernel

/-- F-OVF, row OUT_CAP = 5: the fault comes inside the 57th decision. -/
theorem test_enc_block_overflow : look { oneBlock with params := ⟨0xA5, 5⟩ } 0x8C000000
      (fun t => (status t, t.coder, t.row, Memory.read t.pt ⟨0, .corner, 3485⟩)) =
    some ((0x63, 0x8C000000), ⟨0x0BF7BF800, 0x80080000, 0xFE, 3, [0x00, 0xFF, 0xFF, 0xFF, 0xFE]⟩,
      #v[0, 0, 0], 992) := by decide +kernel

/-- F-26: after a fault every word but CSR_RD is dropped. -/
theorem test_fault_drops : [0x00000001, 0x0C000000, 0x28000000, 0x10000100].map (after stopped) =
    List.replicate 4 (some stopped) := by decide

/-! ## Witnesses: for every statement with hypotheses, values that meet all of them

One theorem for each statement, named after it; where a statement has several clauses, one group of values for
each clause, at the ends of its range. -/

/-- A state with host events waiting. -/
def port (s : State) (events : List HostEvent) : State := { s with inputs := events }

/-- The result of a command that answers a next state. -/
def result (i : Instr) (s : State) : State :=
  match exec i s with
  | .next t => t
  | _ => s

/-- The hypothesis `exec i s = .next t`, decidable on concrete values. -/
def completes (i : Instr) (s : State) : Bool :=
  match exec i s with
  | .next _ => true
  | _ => false

theorem exec_result {i : Instr} {s : State} (h : completes i s = true) : exec i s = .next (result i s) := by
  unfold completes at h
  unfold result
  split at h <;> simp_all

theorem witness_EncodeOfDecodeIsTheWord : decode 0x616D6401 = some (.encBit 1 3 3428 true) := by decide

theorem witness_DecodingIsTheMaskMatchTest :
    decode 0x823FFFFF = some (.qtWr 2 63 65535) ∧ decode 0x84400000 = none := by decide

theorem witness_StepRunsTheDecodedCommand :
    (port active [.word 0x10000006, .reset]).inputs = .word 0x10000006 :: [.reset] ∧
    decode 0x10000006 = some (.csrRd 6) := by decide

theorem witness_UnassignedOpcodesAreIllegal :
    (port active [.word 0x18000000]).inputs = .word 0x18000000 :: [] ∧
    (port stopped [.word 0xFC000001]).inputs = .word 0xFC000001 :: [] ∧
    ((0x18000000 : Word).extractLsb' 26 6).toNat ∈ unassigned ∧
    ((0xFC000001 : Word).extractLsb' 26 6).toNat ∈ unassigned ∧
    (port active [.word 0x18000000]).state ≠ .fault ∧ (port stopped [.word 0xFC000001]).state = .fault := by
  decide

theorem witness_IllegalWordsFaultOrAreDropped :
    (port active [.word 0x04000002]).inputs = .word 0x04000002 :: [] ∧
    ∀ row ∈ opcodeMap, (0x04000002 : Word) &&& row.2.2 ≠ row.2.1 := by
  refine ⟨rfl, fun row h => ?_⟩
  simp only [opcodeMap, List.mem_cons, List.not_mem_nil, or_false] at h
  rcases h with rfl | rfl | rfl | rfl | rfl | rfl | rfl | rfl | rfl | rfl | rfl | rfl | rfl | rfl | rfl | rfl |
    rfl | rfl <;> decide

theorem witness_ResetAndPassBeginColumns :
    (port stopped [.reset]).inputs = .reset :: [] ∧ Outside idle ∧ Outside done :=
  ⟨rfl, .inl rfl, .inr rfl⟩

theorem witness_FaultStateOnlyAnswersCsrRd :
    stopped.state = .fault ∧ (0x10000100 : Word).extractLsb' 8 24 ≠ 0x100000 ∧
    (0x100000FF : Word).extractLsb' 8 24 = 0x100000 ∧ (port stopped [.reset]).inputs = .reset :: [] ∧
    (port stopped [.takeResponse]).inputs ≠ .reset :: [] ∧
    (∃ e, (port stopped [.takeResponse]).inputs = e :: []) ∧
    ∃ t, step (port stopped [.takeResponse]) = .next t :=
  ⟨rfl, by decide, by decide, rfl, by decide, ⟨_, rfl⟩, ⟨_, rfl⟩⟩

theorem witness_SilentHostChangesNothing : done.inputs = [] := rfl

theorem witness_IllegalStateExactlyWhereTheTableSays :
    idle.state ≠ .fault ∧ legalIn .passEnd idle.state = false ∧ legalIn (.ptWr 0) active.state = false ∧
    legalIn (.ptWr 0) idle.state = true ∧ idle.fcode ≠ .illegalState ∧
    exec (.ptWr 0) idle = .next (result (.ptWr 0) idle) := by
  refine ⟨by decide, by decide, by decide, by decide, by decide, exec_result (by decide)⟩

theorem witness_BadOperandExactlyForIllFormed :
    active.state ≠ .fault ∧ legalIn (.encBlock 3) active.state = true ∧ (Instr.encBlock 3).wellFormed = false ∧
    legalIn (.ptAddr 2 6 4626) active.state = true ∧ (Instr.ptAddr 2 6 4626).wellFormed = false ∧
    (Instr.ptAddr 2 5 4627).wellFormed = false ∧ (Instr.ptAddr 2 5 4626).wellFormed = true ∧
    active.fcode ≠ .badOperand ∧
    exec (.ptAddr 2 5 4626) active = .next (result (.ptAddr 2 5 4626) active) := by
  refine ⟨by decide, by decide, by decide, by decide, by decide, by decide, by decide, by decide,
    exec_result (by decide)⟩

theorem witness_CursorFaults :
    oneBlock.state = .active ∧ (2 : BitVec 2).toNat = (2 : Chan).val ∧ Finished oneBlock 2 ∧
    Finished { oneBlock with row := #v[1, 0, 0] } 0 ∧ ¬ Finished oneBlock 0 := by
  refine ⟨rfl, rfl, .inl rfl, .inr (by decide), ?_⟩
  unfold Finished; decide

theorem witness_WhatAFaultLeaves :
    active.state ≠ .fault ∧ exec (.encBlock 0) active = .next (result (.encBlock 0) active) ∧
    (result (.encBlock 0) active).state = .fault ∧ (result (.encBlock 0) active).fcode ≠ .outOverflow ∧
    exec .passEnd { active with params := ⟨0, 4⟩ } = .next (result .passEnd { active with params := ⟨0, 4⟩ }) ∧
    (result .passEnd { active with params := ⟨0, 4⟩ }).state = .fault ∧
    (result .passEnd { active with params := ⟨0, 4⟩ }).fcode = .outOverflow := by
  refine ⟨by decide, exec_result (by decide), by decide, by decide, exec_result (by decide), by decide,
    by decide⟩

theorem witness_CommandsMakeOnlyTheListedTransitions :
    exec .passEnd active = .next (result .passEnd active) ∧
    exec .passAbort done = .next (result .passAbort done) :=
  ⟨exec_result (by decide), exec_result (by decide)⟩

theorem witness_ResponsesComeOneByOneInOrder :
    exec (.select 0) active = .next (result (.select 0) active) ∧ responds (.select 0) = true ∧
    (result (.select 0) active).state ≠ .fault ∧
    exec (.csrRd 0) stopped = .next (result (.csrRd 0) stopped) ∧ isCsrRd (.csrRd 0) = true ∧
    exec .blkClr active = .next (result .blkClr active) ∧ responds .blkClr = false ∧
    exec (.select 3) active = .next (result (.select 3) active) ∧ isCsrRd (.select 3) = false ∧
    (result (.select 3) active).state = .fault ∧
    (port { stopped with respq := [0x13, 0] } [.takeResponse]).inputs = .takeResponse :: [] ∧
    (port { stopped with respq := [0x13, 0] } [.takeResponse]).respq = 0x13 :: [0] := by
  refine ⟨exec_result (by decide), rfl, by decide, exec_result (by decide), rfl, exec_result (by decide), rfl,
    exec_result (by decide), rfl, by decide, rfl, rfl⟩

theorem witness_NopChangesNothing : active.state ≠ .fault := by decide

/-- Exactly enough room for the five bytes of an empty pass. -/
theorem witness_PassEndEmitsTheFrame : let s := { active with params := ⟨0, 5⟩ }
    s.state = .active ∧ (∀ c, Finished s c) ∧ 1 ≤ s.pend ∧
    s.out.length + s.pend + 4 ≤ s.params.outCap.val := by
  refine ⟨rfl, fun c => .inl ?_, by decide, by decide⟩
  revert c; decide

/-- One byte less. -/
theorem witness_PassEndWithoutRoomOverflows : let s := { active with params := ⟨0, 4⟩ }
    s.state = .active ∧ (∀ c, Finished s c) ∧ 1 ≤ s.pend ∧
    s.params.outCap.val < s.out.length + s.pend + 4 := by
  refine ⟨rfl, fun c => .inl ?_, by decide, by decide⟩
  revert c; decide

theorem witness_PassAbortDiscardsThePass : done.state ≠ .fault := by decide

theorem witness_OutPopTakesOneSymbol :
    idle.state ≠ .fault ∧ idle.sinkq = [] ∧ done.state ≠ .fault ∧ done.sinkq = .raw :: [.byte 0xA5] ∧
    { done with sinkq := [Symbol.byte 0xFF] }.sinkq = .byte 0xFF :: [] := by decide

theorem witness_CursorCommandsSetAndHome :
    Outside done ∧ (0 : BitVec 2).toNat = (0 : Chan).val ∧ (2 : BitVec 2).toNat = (2 : Chan).val :=
  ⟨.inr rfl, rfl, rfl⟩

/-- A channel 0 with a next block in column `col` of row `row`, of `w` columns. -/
def cursor (w row col : Half) : State :=
  { active with width := #v[w, 0, 0], nrows := #v[65535, 0, 0], row := #v[row, 0, 0], col := #v[col, 0, 0] }

theorem witness_SelectReportsThePosition :
    active.state ≠ .fault ∧ (2 : BitVec 2).toNat = (2 : Chan).val ∧ Finished active 2 ∧
    ([cursor 1 0 0, cursor 65535 0 65534, cursor 1 65534 0, cursor 2 1 0, cursor 2 1 1, cursor 3 1 1].all
      fun s => s.state != .fault && s.width[0] != 0 && decide (s.row[0].toNat < s.nrows[0].toNat)) ∧
    ((cursor 1 0 0).row[0] = 0 ∧ (cursor 1 0 0).col[0] = 0) ∧
    ((cursor 65535 0 65534).width[0] ≠ 1 ∧ (cursor 65535 0 65534).row[0] = 0 ∧
      (cursor 65535 0 65534).col[0] ≠ 0) ∧
    ((cursor 1 65534 0).width[0] = 1 ∧ (cursor 1 65534 0).row[0] ≠ 0) ∧
    ((cursor 2 1 0).width[0] ≠ 1 ∧ (cursor 2 1 0).row[0] ≠ 0 ∧ (cursor 2 1 0).col[0] = 0) ∧
    ((cursor 2 1 1).col[0] ≠ 0 ∧ (cursor 2 1 1).col[0].toNat + 1 = (cursor 2 1 1).width[0].toNat) ∧
    ((cursor 3 1 1).col[0] ≠ 0 ∧ (cursor 3 1 1).col[0].toNat + 1 ≠ (cursor 3 1 1).width[0].toNat) := by
  refine ⟨by decide, rfl, .inl rfl, by decide, by decide, by decide, by decide, by decide, by decide,
    by decide⟩

theorem witness_SelectorIsTotal :
    1 ≤ 1 ∧ 0 < 1 ∧ selectPosition 1 7 0 = .singleColumn ∧ selectPosition 3 1 1 = .interiorMiddle ∧
    selectPosition 2 1 1 = .midRight := by decide

theorem witness_PositionsFollowTheGeometry : 1 ≤ 65535 ∧ 65534 < 65535 ∧
    selectPosition 65535 65534 65534 ≠ .topEdge := by decide

theorem witness_AdvanceWalksTheRaster :
    (oneBlock.col[(0 : Chan)].toNat < oneBlock.width[(0 : Chan)].toNat ∧
      oneBlock.row[(0 : Chan)].toNat < oneBlock.nrows[(0 : Chan)].toNat) ∧
    ((cursor 65535 65534 65534).col[(0 : Chan)].toNat < (cursor 65535 65534 65534).width[(0 : Chan)].toNat ∧
      (cursor 65535 65534 65534).row[(0 : Chan)].toNat < (cursor 65535 65534 65534).nrows[(0 : Chan)].toNat) ∧
    (1 : Chan) ≠ 0 := by decide

/-- A state with the invariant, in the middle of a pass, with a command waiting. -/
theorem inv_oneBlock : StateInv (port oneBlock [.word 0x60000001]) where
  memory_wf := by decide
  memory_legal := legal_initAll
  coder_legal := fun _ => ⟨by decide, by decide, by decide⟩
  out_le := by decide
  cursor_legal := fun ch => by
    constructor <;> revert ch <;> decide
  fcode_none := by decide
  sinkq_empty := fun _ => rfl
  sinkq_frame := fun h => absurd h (by decide)
  codedLen_le := by decide

/-- `Finished` and not `Finished` both occur. -/
theorem witness_FinishedMeansEveryBlockConsumed : StateInv (port oneBlock [.word 0x60000001]) ∧
    Finished (port oneBlock [.word 0x60000001]) 1 ∧ ¬ Finished (port oneBlock [.word 0x60000001]) 0 := by
  refine ⟨inv_oneBlock, .inl rfl, ?_⟩
  unfold Finished; decide

theorem witness_PtAddrSetsThePointer :
    active.state ≠ .fault ∧ (2 : BitVec 2).toNat = (⟨2, .midRight, 4626⟩ : CellRef).ch.val ∧
    (5 : BitVec 3).toNat = (⟨2, .midRight, 4626⟩ : CellRef).pos.code ∧
    (4626 : BitVec 13).toNat = (⟨2, .midRight, 4626⟩ : CellRef).cell.val := by decide

theorem witness_PtWrWritesOneCell : Outside done ∧ (⟨0, .corner, 1⟩ : CellRef) ≠ done.ptr :=
  ⟨.inr rfl, by decide⟩

theorem witness_PtRdReadsOneCell : active.state ≠ .fault := by decide

theorem witness_PtInitSetsCellsToTheInitialValue : Outside idle := .inl rfl

theorem witness_PtWrThenPtRdReturnsTheClampedValue :
    Outside idle ∧ (Instr.ptAddr 2 5 4626).wellFormed = true := ⟨.inl rfl, by decide⟩

theorem witness_CellAddressesAreABijection :
    (TokenClass.signE, 14, 3, 1, 4585) ∈ classTable ∧ 13 < 14 ∧ 2 < 3 ∧ 0 < 1 ∧ InDomain .signE 13 2 0 ∧
    cellAddr .signE 13 2 0 = 4626 :=
  ⟨by decide, by decide, by decide, by decide, ⟨14, 3, 1, 4585, by decide, by decide, by decide, by decide⟩,
    by decide⟩

theorem witness_AdaptationIsBounded : Prob.legal 31 ∧ Prob.legal 2017 ∧
    Memory.legal (port oneBlock [.word 0x60000001]).pt ∧
    ∃ t, step (port oneBlock [.word 0x60000001]) = .next t :=
  ⟨by decide, by decide, legal_initAll, ⟨_, rfl⟩⟩

theorem witness_EqualCellsAreEqualMemories : Memory.wf [(0, 31), (83285, 2017)] ∧
    ∀ r, Memory.read [(0, 31), (83285, 2017)] r = Memory.read [(0, 31), (83285, 2017)] r :=
  ⟨by decide, fun _ => rfl⟩

/-- A pass with these coder registers and this OUT_CAP. -/
def coding (c : Coder) (cap : Fin (2 ^ 32)) : State := { active.withCoder c with params := ⟨0xA5, cap⟩ }

/-- ENC_BIT with bit 0: without a shift, and with a shift that holds 0xFF back, no room at all; with a shift, and
with one that carries, exactly the room that is needed. -/
theorem witness_EncBitCodesOneDecision :
    let plain := coding ⟨0, 0xFFFFFFFF, 0, 1, []⟩ 0
    let held := coding ⟨0xFFFC0000, 0x01000000, 0, 1, []⟩ 0
    let shifted := coding ⟨0, 0x01000000, 0, 1, []⟩ 1
    let carried := coding ⟨0x112000000, 0x01000000, 0xD6, 2, [0]⟩ 3
    let bound : State → Nat := fun s => s.range.toNat / 2048 * (Memory.read s.pt ⟨0, .corner, 24⟩).toNat
    let flushes : State → Prop := fun s => s.low.toNat % 2 ^ 32 < 0xFF000000 ∨ s.low.toNat / 2 ^ 32 = 1
    (0 : BitVec 2).toNat = (⟨0, .corner, 24⟩ : CellRef).ch.val ∧
    (0 : BitVec 3).toNat = (⟨0, .corner, 24⟩ : CellRef).pos.code ∧
    (24 : BitVec 13).toNat = (⟨0, .corner, 24⟩ : CellRef).cell.val ∧
    (∀ s ∈ [plain, held, shifted, carried], s.state = .active ∧ (2 ^ 24 ≤ s.coder.range.toNat ∧
        s.coder.low.toNat + s.coder.range.toNat < 2 ^ 33 ∧ 1 ≤ s.coder.pend) ∧
      Prob.legal (Memory.read s.pt ⟨0, .corner, 24⟩) ∧
      (bound s < 2 ^ 24 → flushes s → s.out.length + s.pend ≤ s.params.outCap.val)) ∧
    2 ^ 24 ≤ bound plain ∧ (bound held < 2 ^ 24 ∧ ¬ flushes held) ∧
    (bound shifted < 2 ^ 24 ∧ flushes shifted ∧ shifted.low.toNat / 2 ^ 32 = 0) ∧
    (bound carried < 2 ^ 24 ∧ carried.low.toNat / 2 ^ 32 = 1) := by
  decide

/-- The bytes that fit before OUT is full: one of two; none, where OUT was full already. -/
theorem witness_EncBitWithoutRoomOverflows :
    (0 : BitVec 2).toNat = (⟨0, .corner, 24⟩ : CellRef).ch.val ∧
    (0 : BitVec 3).toNat = (⟨0, .corner, 24⟩ : CellRef).pos.code ∧
    (24 : BitVec 13).toNat = (⟨0, .corner, 24⟩ : CellRef).cell.val ∧
    ∀ s ∈ [coding ⟨0x112000000, 0x01000000, 0xD6, 2, [0]⟩ 2, coding ⟨0x112000000, 0x01000000, 0xD6, 2, [0]⟩ 1],
      s.state = .active ∧ (2 ^ 24 ≤ s.coder.range.toNat ∧
        s.coder.low.toNat + s.coder.range.toNat < 2 ^ 33 ∧ 1 ≤ s.coder.pend) ∧
      Prob.legal (Memory.read s.pt ⟨0, .corner, 24⟩) ∧
      s.range.toNat / 2048 * (Memory.read s.pt ⟨0, .corner, 24⟩).toNat < 2 ^ 24 ∧ s.low.toNat / 2 ^ 32 = 1 ∧
      s.params.outCap.val < s.out.length + s.pend := by decide

theorem witness_EncodeKeepsTheCoderInvariants : Coder.start.Legal ∧ Prob.legal 31 ∧ Prob.legal 2017 ∧
    ∃ d, normalise ⟨0, 100⟩ 1 (narrow 31 false ⟨0, 0x01000000, 0, 1, []⟩) = .done d :=
  ⟨⟨by decide, by decide, by decide⟩, by decide, by decide, ⟨_, rfl⟩⟩

theorem witness_ShiftLowKeepsTheCodeValue :
    1 ≤ (⟨0x112000000, 0x00800000, 0xD6, 2, [0]⟩ : Coder).pend ∧
    (∃ d, shiftLow ⟨0, 100⟩ ⟨0x112000000, 0x00800000, 0xD6, 2, [0]⟩ = .ok d) ∧
    (⟨0x112000000, 0x00800000, 0xD6, 2, [0]⟩ : Coder).cache.toNat ≠ 255 :=
  ⟨by decide, ⟨_, rfl⟩, by decide⟩

theorem witness_FinishFlushesTheCoder : 1 ≤ (⟨0x034611A0D, 0x0E04D851, 0x31, 1, [0]⟩ : Coder).pend ∧
    (∃ d, finish ⟨0, 100⟩ ⟨0x034611A0D, 0x0E04D851, 0x31, 1, [0]⟩ = .ok d) ∧
    (⟨0x034611A0D, 0x0E04D851, 0x31, 1, [0]⟩ : Coder).low.toNat < 2 ^ 32 :=
  ⟨by decide, ⟨_, rfl⟩, by decide⟩

theorem witness_PayloadDecodesToTheDecisions : Memory.legal [] ∧
    ∃ e c, codeList ⟨0, 100⟩ [(⟨0, .corner, 0⟩, false), (⟨0, .corner, 0⟩, true)] ⟨Coder.start, []⟩ = .done e ∧
      finish ⟨0, 100⟩ e.coder = .ok c :=
  ⟨legal_initAll, _, _, rfl, rfl⟩

theorem witness_OutIsAppendOnly :
    exec .passEnd active = .next (result .passEnd active) ∧ emptiesOut .passEnd = false ∧
    exec .passAbort done = .next (result .passAbort done) ∧ emptiesOut .passAbort = true ∧
    (result .passAbort done).state ≠ .fault ∧ done.state ≠ .active ∧
    done.out.length ≤ done.params.outCap.val ∧ (port done [.reset]).inputs = .reset :: [] := by
  refine ⟨exec_result (by decide), rfl, exec_result (by decide), rfl, by decide, by decide, by decide, rfl⟩

theorem witness_QtWrWritesOneStep : Outside idle ∧ (2 : BitVec 2).toNat = (2 : Chan).val := ⟨.inl rfl, rfl⟩

theorem witness_BlockBufferCommands : active.state ≠ .fault := by decide

/-- The two ends of coding a list of decisions, decidable on concrete values. -/
def endsDone : Coded Encoder → Bool
  | .done _ => true
  | _ => false

def endsFull : Coded Encoder → Bool
  | .overflow _ => true
  | _ => false

theorem exists_done {x : Coded Encoder} (h : endsDone x = true) : ∃ e, x = .done e := by
  cases x <;> simp_all [endsDone]

theorem exists_overflow {x : Coded Encoder} (h : endsFull x = true) : ∃ e, x = .overflow e := by
  cases x <;> simp_all [endsFull]

/-- TS-1 with 2^32 − 1 bytes of room; with the 7 bytes its ENC_BLOCK appends (F-OVF, row 7); with one byte less
(row 6). -/
theorem witness_EncBlockEncodesTheBlock :
    (0 : BitVec 2).toNat = (0 : Chan).val ∧
    (∀ cap, { oneBlock with params := ⟨0xA5, cap⟩ }.state = .active ∧
      ¬ Finished { oneBlock with params := ⟨0xA5, cap⟩ } 0 ∧
      { oneBlock with params := ⟨0xA5, cap⟩ }.coder.Legal ∧
      Memory.legal { oneBlock with params := ⟨0xA5, cap⟩ }.pt) ∧
    oneBlock.out.length + oneBlock.pend + 2048 ≤ oneBlock.params.outCap.val ∧
    (∃ e, codeList ⟨0xA5, 7⟩ (decisions oneBlock 0 .corner) oneBlock.encoder = .done e) ∧
    ∃ e, codeList ⟨0xA5, 6⟩ (decisions oneBlock 0 .corner) oneBlock.encoder = .overflow e := by
  have unfinished : ¬ Finished oneBlock 0 := by unfold Finished; decide
  have legal : oneBlock.coder.Legal := ⟨by decide, by decide, by decide⟩
  exact ⟨rfl, fun _ => ⟨rfl, unfinished, legal, legal_initAll⟩, by decide, exists_done (by decide +kernel),
    exists_overflow (by decide +kernel)⟩

theorem witness_CodedLengthIsTheLastNonzero :
    (∀ z : ZIndex, (Vector.replicate 64 0 : Vector Half 64)[z] = 0) ∧ blockP1[(4 : ZIndex)] ≠ 0 ∧
    ∀ y : ZIndex, (4 : ZIndex) < y → blockP1[y] = 0 := by decide

theorem witness_ThresholdsOfAllSteps :
    (1 : Half).toNat ≤ 1 ∧ 2 ≤ (3 : Half).toNat ∧ (3 : Half).toNat ≤ 3 ∧ 4 ≤ (4 : Half).toNat ∧
    (7 : Half).toNat ≤ 7 ∧ 8 ≤ (15 : Half).toNat ∧ (15 : Half).toNat ≤ 15 ∧ 16 ≤ (16 : Half).toNat := by decide

theorem witness_DecisionsUseLegalCells : ⟨.dcExp, 0, 0, 0, true⟩ ∈ tokens blockP1 stepsP1 := by
  decide +kernel

theorem witness_BlocksMake64To2048Decisions :
    (∀ z : ZIndex, (Vector.replicate 64 0 : Vector Half 64)[z] = 0) ∧
    ∀ z : ZIndex, (Vector.replicate 64 0x8000 : Vector Half 64)[z] = 0x8000 := by decide

/-- Two different blocks whose first 49 decisions agree. -/
theorem witness_ContextsAreCausal :
    ((tokens blockP1 stepsP1).take 49).map Token.bit =
      ((tokens (blockP1.set 0 1) stepsP1).take 49).map Token.bit := by decide +kernel

/-- The bits of the decisions do not depend on the steps. -/
theorem witness_DecisionsDetermineTheBlock :
    (tokens blockP1 stepsP1).map Token.bit = (tokens blockP1 (.replicate 64 0)).map Token.bit := by
  decide +kernel

theorem witness_StepKeepsTheInvariant : StateInv (port oneBlock [.word 0x60000001]) ∧
    ∃ t, step (port oneBlock [.word 0x60000001]) = .next t :=
  ⟨inv_oneBlock, ⟨_, rfl⟩⟩

theorem witness_StepAlwaysCompletes : StateInv (port oneBlock [.word 0x60000001]) := inv_oneBlock

theorem witness_NoStepChangesTheParameters : ∃ t, step (port done [.reset]) = .next t := ⟨_, rfl⟩

/-- For each clause a command that changes the register it is about. -/
theorem witness_OnlyTheNamedCommandsWrite :
    exec (.blkWr 63 1) active = .next (result (.blkWr 63 1) active) ∧
    (result (.blkWr 63 1) active).blk ≠ active.blk ∧
    exec (.qtWr 2 0 1) idle = .next (result (.qtWr 2 0 1) idle) ∧ (result (.qtWr 2 0 1) idle).qt ≠ idle.qt ∧
    exec (.ptWr 0) idle = .next (result (.ptWr 0) idle) ∧ (result (.ptWr 0) idle).pt ≠ idle.pt ∧
    (result (.ptWr 0) idle).ptr ≠ idle.ptr ∧
    exec (.encBlock 0) oneBlock = .next (result (.encBlock 0) oneBlock) ∧
    exec (.curW 2 1) idle = .next (result (.curW 2 1) idle) ∧ (result (.curW 2 1) idle).width ≠ idle.width ∧
    exec (.curH 2 1) idle = .next (result (.curH 2 1) idle) ∧
    (result (.curH 2 1) idle).nrows ≠ idle.nrows := by
  refine ⟨exec_result (by decide), by decide, exec_result (by decide), by decide, exec_result (by decide),
    by decide, by decide, exec_result (by decide +kernel), exec_result (by decide), by decide,
    exec_result (by decide), by decide⟩

/-- A command for each table it can name, and one that names none. -/
theorem witness_CodingTouchesOneTable :
    (∀ s ∈ [(idle, Instr.ptWr 0), (idle, .ptInit false), (active, .encBit 0 0 0 true), (oneBlock, .encBlock 0)],
      completes s.2 s.1 = true ∧ s.2 ≠ .ptInit true ∧ s.2 ≠ .passBegin false ∧
      tableOf s.1 s.2 = some (0, .corner) ∧ tableOf s.1 s.2 ≠ some (0, .topEdge)) ∧
    completes (.encBlock 0) { oneBlock with params := ⟨0xA5, 5⟩ } = true ∧
    completes .ptRd idle = true ∧ tableOf idle .ptRd ≠ some (0, .corner) := by
  decide +kernel

theorem witness_FirstPayloadByteStaysZero : let s := port oneBlock [.word 0x60000001]
    StateInv s ∧ (s.state = .active → PayloadStart s.coder) ∧ (s.state = .done → s.out.head? = some 0) ∧
    ∃ t, step s = .next t :=
  ⟨inv_oneBlock, fun _ => .inl ⟨rfl, rfl, by decide⟩, fun h => absurd h (by decide), ⟨_, rfl⟩⟩

/-- Two states that differ in their tables, coders, queues and faults. -/
theorem witness_ColdPassesAreDeterministic :
    let s := port done [.word 0x04000000, .word 0x60000001]
    let t := port { idle with pt := [(0, 31)], low := 5, respq := [7] } [.word 0x04000000, .word 0x60000001]
    Outside s ∧ Outside t ∧ s.inputs = .word 0x04000000 :: [.word 0x60000001] ∧ t.inputs = s.inputs ∧
    s.blk = t.blk ∧ s.qt = t.qt ∧ s.ptr = t.ptr ∧ s.width = t.width ∧ s.nrows = t.nrows ∧
    s.params = t.params ∧ ∃ s', Host.Core.run Sys2Proof.core (1 + 1) s = .next s' :=
  ⟨.inr rfl, .inl rfl, rfl, rfl, rfl, rfl, rfl, rfl, rfl, rfl, ⟨_, rfl⟩⟩

end Sys2Proof.Tests
end

section
/-! The two columns of 10_state.md R44: what hardware reset and PASS_BEGIN leave in every register. -/

namespace Sys2Proof.Statements

open Sys2Proof.Machine

variable {s t : State} {rest : List HostEvent}

/-! What the two columns share -/

/-- The pass registers are cleared where the cursors are home, the coder is at its start and SINKQ is empty. -/
theorem cleared_of_start (hrow : t.row = .replicate 3 0) (hcol : t.col = .replicate 3 0)
    (hblkpos : t.blkpos = .replicate 3 0) (hcoder : t.coder = Coder.start) (hsinkq : t.sinkq = []) :
    Cleared t := by
  have home (c : Chan) : t.row[c] = 0 ∧ t.col[c] = 0 ∧ t.blkpos[c] = 0 := by
    simp [hrow, hcol, hblkpos]
  exact ⟨home, congrArg Coder.low hcoder, congrArg Coder.range hcoder, congrArg Coder.cache hcoder,
    congrArg Coder.pend hcoder, congrArg Coder.out hcoder, hsinkq⟩

/-! Hardware reset -/

/-- The reset input is taken in every state, FAULT included. -/
theorem step_reset (h : s.inputs = .reset :: rest) :
    step s = .next (hardwareReset { s with inputs := rest }) := step_cons h

theorem cleared_hardwareReset (s : State) : Cleared (hardwareReset s) :=
  cleared_of_start rfl rfl rfl rfl rfl

theorem blk_hardwareReset (s : State) (z : ZIndex) : (hardwareReset s).blk[z] = 0 := by
  simp [BlockState.reset]

theorem qt_hardwareReset (s : State) (c : Chan) (z : ZIndex) : (hardwareReset s).qt[c][z] = 0 := by
  simp [BlockState.reset]

theorem dimensions_hardwareReset (s : State) (c : Chan) :
    (hardwareReset s).width[c] = 0 ∧ (hardwareReset s).nrows[c] = 0 := by
  simp [BlockState.reset]

/-! PASS_BEGIN -/

/-- The state in which PASS_BEGIN leaves `s` (44_pass_control.md R202); see `exec_passBegin`. -/
def passBegun (warm : Bool) (s : State) : State :=
  { clearPass s with pt := if warm then s.pt else Memory.initAll, state := .active }

theorem exec_passBegin (warm : Bool) (h : Outside s) :
    exec (.passBegin warm) s = .next (passBegun warm s) := by
  have notFault : s.state ≠ .fault := by rcases h with h | h <;> simp [h]
  calc exec (.passBegin warm) s = execPassBegin warm s := rfl
    _ = .next (passBegun warm s) := by rw [execPassBegin, command_runs notFault (outsidePass_iff.mpr h)]; rfl

theorem cleared_passBegun (warm : Bool) (s : State) : Cleared (passBegun warm s) :=
  cleared_of_start rfl rfl rfl rfl rfl

/-- A cold start puts every cell at P_INIT, a warm one keeps every cell. -/
theorem read_passBegun (warm : Bool) (s : State) (r : CellRef) :
    Memory.read (passBegun warm s).pt r = if warm then Memory.read s.pt r else 1024 := by
  cases warm
  case false => exact read_initAll r
  case true => rfl

/-- PASS_BEGIN writes no register but those of the pass and PT. -/
theorem passBegun_frame (warm : Bool) (s : State) :
    passBegun warm s = { onlyPass s (passBegun warm s) with pt := (passBegun warm s).pt } := rfl

/-- Settles O8, register by register: the columns "hardware reset" and "pass begin" of R44. -/
theorem resetAndPassBeginColumns : Obligations.ResetAndPassBeginColumns := by
  refine ⟨fun s rest h => ⟨_, step_reset h, ?_⟩, fun s warm h => ⟨_, exec_passBegin warm h, ?_⟩⟩
  · exact ⟨rfl, rfl, rfl, blk_hardwareReset _, qt_hardwareReset _, read_initAll, rfl,
      dimensions_hardwareReset _, rfl, rfl, cleared_hardwareReset _, rfl, rfl, rfl⟩
  · exact ⟨rfl, cleared_passBegun warm s, read_passBegun warm s, passBegun_frame warm s,
      fun hw => by subst hw; rfl⟩

end Sys2Proof.Statements
end

section
/-! RESPQ (20_memory.md R65): which commands append a word to it, and how the host takes one. -/

namespace Sys2Proof.Statements

open Sys2Proof.Machine

variable {i : Instr} {s t : State} {rest : List HostEvent} {v : Word} {words : List Word}

/-! What a command leaves in RESPQ -/

/-- An answering command that completes appends one word, and it never moves STATE. -/
theorem effect_of_responds (h : Effect i s t) (hi : responds i = true) :
    (∃ v, t.respq = s.respq ++ [v]) ∧ t.state = s.state := by
  cases h
  case csrRd | outPopEmpty | outPop | select | ptRd => exact ⟨⟨_, rfl⟩, rfl⟩
  all_goals cases hi

theorem effect_keeps_respq (h : Effect i s t) (hi : responds i = false) : t.respq = s.respq := by
  cases h
  case csrRd | outPopEmpty | outPop | select | ptRd => cases hi
  case encBlock => exact advance_respq _ _
  all_goals rfl

/-- What a command writes before OUT_OVERFLOW (60_exceptions.md R224) is not in RESPQ. -/
theorem overflow_keeps_respq (h : Overflow i s t) : t.respq = s.respq := by
  cases h <;> rfl

/-- A command that ends without its effect ends in FAULT, with RESPQ as it was: it was dropped there or it
raised a fault. -/
theorem fault_keeps_respq_or_effect (h : exec i s = .next t) :
    (t.state = .fault ∧ t.respq = s.respq) ∨ ((s.state ≠ .fault ∨ ∃ a, i = .csrRd a) ∧ Effect i s t) := by
  rcases exec_cases h with ⟨hf, _, rfl⟩ | ⟨_, _, _, _, rfl⟩ | effect | ⟨_, _, hu, rfl⟩
  · exact .inl ⟨hf, rfl⟩
  · exact .inl ⟨rfl, rfl⟩
  · exact .inr effect
  · exact .inl ⟨rfl, (raiseFault_respq ..).trans (overflow_keeps_respq hu)⟩

/-! Who answers -/

theorem respq_of_responds (h : exec i s = .next t) (hi : responds i = true) (ht : t.state ≠ .fault) :
    ∃ v, t.respq = s.respq ++ [v] := by
  rcases fault_keeps_respq_or_effect h with ⟨hf, _⟩ | ⟨_, effect⟩
  · exact absurd hf ht
  · exact (effect_of_responds effect hi).1

/-- CSR_RD has no test that could stop it (60_exceptions.md R223), so it answers in FAULT too. -/
theorem respq_of_isCsrRd (h : exec i s = .next t) (hi : isCsrRd i = true) :
    ∃ v, t.respq = s.respq ++ [v] := by
  cases i
  case csrRd a => cases h; exact ⟨csrRead s a, rfl⟩
  all_goals cases hi

theorem respq_of_not_responds (h : exec i s = .next t) (hi : responds i = false) : t.respq = s.respq := by
  rcases fault_keeps_respq_or_effect h with ⟨_, kept⟩ | ⟨_, effect⟩
  · exact kept
  · exact effect_keeps_respq effect hi

/-- Outside CSR_RD an answering command cannot end in FAULT with its effect: it starts elsewhere and keeps STATE. -/
theorem respq_of_fault (h : exec i s = .next t) (hi : isCsrRd i = false) (ht : t.state = .fault) :
    t.respq = s.respq := by
  rcases fault_keeps_respq_or_effect h with ⟨_, kept⟩ | ⟨hs | ⟨a, rfl⟩, effect⟩
  · exact kept
  · cases hr : responds i
    case false => exact effect_keeps_respq effect hr
    case true => exact absurd ((effect_of_responds effect hr).2.symm.trans ht) hs
  · cases hi

/-! How the host takes a word -/

/-- The host removes the head of RESPQ in every state, FAULT included. -/
theorem step_takeResponse (h : s.inputs = .takeResponse :: rest) (hq : s.respq = v :: words) :
    step s = .next { s with inputs := rest, respq := words } := by
  calc step s = .next (takeResponse { s with inputs := rest }) := step_cons h
    _ = .next { s with inputs := rest, respq := words } := by simp [takeResponse, hq]

/-- Settles O16: R65 for every command by what it can do (`exec_cases`), and for the host. -/
theorem responsesComeOneByOneInOrder : Obligations.ResponsesComeOneByOneInOrder :=
  ⟨fun _ _ _ h => ⟨respq_of_responds h, respq_of_isCsrRd h, respq_of_not_responds h, respq_of_fault h⟩,
    fun _ _ _ _ => step_takeResponse⟩

end Sys2Proof.Statements
end

section
/-! The encoding (30_encoding.md R81 to R86): the mask and match test of the opcode map read as conditions on the
fields of a word, and the decoder as that test. -/

namespace Sys2Proof.Statements

open Sys2Proof.Machine

variable {w : Word} {i : Instr} {s : State} {rest : List HostEvent}

/-! The formats, by command -/

/-- The bits the format of a command reserves (R82): lowest bit and number of bits. In every format they are one
run; see `decode_of_opcode`. -/
def reservedBits : Instr → Nat × Nat
  | .nop | .passEnd | .passAbort | .outPop | .ptRd | .blkClr => (0, 26)
  | .passBegin _ | .ptInit _ => (1, 25)
  | .csrRd _ => (8, 18)
  | .select _ | .encBlock _ => (0, 24)
  | .curW _ _ | .curH _ _ => (16, 8)
  | .ptAddr _ _ _ => (0, 8)
  | .ptWr _ => (11, 15)
  | .encBit _ _ _ _ => (1, 7)
  | .qtWr _ _ _ => (22, 2)
  | .blkWr _ _ => (22, 4)

/-- The command `i` with the operands that the word `w` holds in their fields; see `decode_of_opcode`. -/
def rereadOperands (w : Word) : Instr → Instr
  | .passBegin _ => .passBegin (w.getLsbD 0)
  | .csrRd _ => .csrRd (field w 0 8)
  | .curW _ _ => .curW (field w 24 2) (field w 0 16)
  | .curH _ _ => .curH (field w 24 2) (field w 0 16)
  | .select _ => .select (field w 24 2)
  | .ptAddr _ _ _ => .ptAddr (field w 24 2) (field w 21 3) (field w 8 13)
  | .ptWr _ => .ptWr (field w 0 11)
  | .ptInit _ => .ptInit (w.getLsbD 0)
  | .encBit _ _ _ _ => .encBit (field w 24 2) (field w 21 3) (field w 8 13) (w.getLsbD 0)
  | .qtWr _ _ _ => .qtWr (field w 24 2) (field w 16 6) (field w 0 16)
  | .blkWr _ _ => .blkWr (field w 16 6) (field w 0 16)
  | .encBlock _ => .encBlock (field w 24 2)
  | i => i

theorem reservedBits_le (i : Instr) : (reservedBits i).1 + (reservedBits i).2 ≤ 26 := by
  cases i <;> simp [reservedBits]

/-! The decoder -/

/-- What the decoder answers once the opcode has selected the command. -/
theorem decode_of_opcode (h : field w 26 6 = i.opcode) :
    decode w = whenZero (field w (reservedBits i).1 (reservedBits i).2) (rereadOperands w i) := by
  unfold decode
  rw [h]
  cases i <;> rfl

theorem opcode_of_decode (h : decode w = some i) : field w 26 6 = i.opcode := by
  unfold decode at h
  split at h
  case h_19 => cases h
  all_goals
    next hop =>
      obtain ⟨_, rfl⟩ := whenZero_some.mp h
      exact BitVec.eq_of_toNat_eq hop

theorem reserved_zero_of_decode (h : decode w = some i) :
    field w (reservedBits i).1 (reservedBits i).2 = 0 :=
  (whenZero_some.mp ((decode_of_opcode (opcode_of_decode h)).symm.trans h)).1

theorem rereadOperands_of_decode (h : decode w = some i) : rereadOperands w i = i :=
  (whenZero_some.mp ((decode_of_opcode (opcode_of_decode h)).symm.trans h)).2

/-! Operand fields -/

theorem field_toNat (w : Word) (lo n : Nat) : (field w lo n).toNat = w.toNat / 2 ^ lo % 2 ^ n := by
  rw [field, BitVec.extractLsb'_toNat, Nat.shiftRight_eq_div_pow]

theorem bit_toNat (w : Word) : w[0].toNat = w.toNat % 2 := by
  rw [BitVec.getElem_eq_testBit_toNat, Nat.toNat_testBit, pow_zero, Nat.div_one]

/-- The operands reread from a word stand at their bit places in it. -/
theorem operandFields_rereadOperands (w : Word) (i : Instr) :
    ∀ f ∈ operandFields (rereadOperands w i), w.toNat / 2 ^ f.1 % 2 ^ f.2.1 = f.2.2 := by
  cases i <;> simp [rereadOperands, operandFields, field_toNat, bit_toNat]

/-! The opcode map -/

/-- The word with ones in the `n` bits from bit `lo`. -/
def onesAt (lo n : Nat) : Word := (BitVec.allOnes n).setWidth 32 <<< lo

/-- The row of a command in the opcode map: its mask covers the opcode and the reserved bits; see
`opcodeMap_eq`. -/
def rowOf (i : Instr) : BitVec 6 × Word × Word :=
  (i.opcode, i.opcode ++ 0#26, onesAt 26 6 ||| onesAt (reservedBits i).1 (reservedBits i).2)

/-- The commands in the order of the opcode map, with operands 0. -/
def sampleCommands : List Instr :=
  [.nop, .passBegin false, .passEnd, .passAbort, .csrRd 0, .outPop, .curW 0 0, .curH 0 0, .select 0,
   .ptAddr 0 0 0, .ptWr 0, .ptRd, .ptInit false, .encBit 0 0 0 false, .qtWr 0 0 0, .blkWr 0 0, .blkClr,
   .encBlock 0]

theorem opcodeMap_eq : opcodeMap = sampleCommands.map rowOf := by decide

theorem rowOf_rereadOperands (w : Word) (i : Instr) : rowOf (rereadOperands w i) = rowOf i := by
  cases i <;> rfl

theorem rereadOperands_zero_mem (i : Instr) : rereadOperands 0 i ∈ sampleCommands := by
  cases i <;> simp [rereadOperands, sampleCommands, field]

theorem rowOf_mem_opcodeMap (i : Instr) : rowOf i ∈ opcodeMap := by
  rw [opcodeMap_eq, ← rowOf_rereadOperands 0 i]
  exact List.mem_map_of_mem (rereadOperands_zero_mem i)

theorem exists_rowOf_of_mem {row : BitVec 6 × Word × Word} (h : row ∈ opcodeMap) : ∃ i, rowOf i = row := by
  rw [opcodeMap_eq] at h
  obtain ⟨i, _, hi⟩ := List.mem_map.mp h
  exact ⟨i, hi⟩

theorem opcodes_nodup : (opcodeMap.map Prod.fst).Nodup := by decide

theorem row_eq_of_opcode_eq {row other : BitVec 6 × Word × Word} (hrow : row ∈ opcodeMap)
    (hother : other ∈ opcodeMap) (h : other.1 = row.1) : other = row :=
  List.inj_on_of_nodup_map opcodes_nodup hother hrow h

/-! The mask and match test -/

theorem getLsbD_onesAt {lo n k : Nat} (h : lo + n ≤ 32) :
    (onesAt lo n).getLsbD k = decide (lo ≤ k ∧ k < lo + n) := by
  rw [onesAt, BitVec.getLsbD_shiftLeft, BitVec.getLsbD_setWidth, BitVec.getLsbD_allOnes, Bool.eq_iff_iff]
  simp only [Bool.and_eq_true, Bool.not_eq_true', decide_eq_true_eq, decide_eq_false_iff_not]
  omega

theorem field_eq_iff {lo n : Nat} {v : BitVec n} :
    field w lo n = v ↔ ∀ k < n, w.getLsbD (lo + k) = v.getLsbD k := by
  have bit {k : Nat} (hk : k < n) : (field w lo n).getLsbD k = w.getLsbD (lo + k) := by
    rw [field, BitVec.getLsbD_extractLsb', decide_eq_true hk, Bool.true_and]
  constructor
  · rintro rfl k hk
    exact (bit hk).symm
  · intro h
    exact BitVec.eq_of_getLsbD_eq fun k hk => (bit hk).trans (h k hk)

theorem getLsbD_masked (w : Word) {lo n : Nat} (h : lo + n ≤ 26) (k : Nat) :
    (w &&& (onesAt 26 6 ||| onesAt lo n)).getLsbD k =
      (w.getLsbD k && decide ((26 ≤ k ∧ k < 32) ∨ (lo ≤ k ∧ k < lo + n))) := by
  rw [BitVec.getLsbD_and, BitVec.getLsbD_or, getLsbD_onesAt (by omega), getLsbD_onesAt (by omega),
    Bool.decide_or]

theorem getLsbD_match_low (op : BitVec 6) {k : Nat} (h : k < 26) : (op ++ 0#26).getLsbD k = false :=
  BitVec.getLsbD_append.trans (by simp [h])

theorem getLsbD_match_high (op : BitVec 6) (k : Nat) : (op ++ 0#26).getLsbD (26 + k) = op.getLsbD k :=
  BitVec.getLsbD_append.trans (by simp)

/-- The test of a row says that the opcode is the row's and that its reserved bits are zero (R84). -/
theorem masked_eq_match_iff (op : BitVec 6) {lo n : Nat} (h : lo + n ≤ 26) :
    w &&& (onesAt 26 6 ||| onesAt lo n) = op ++ 0#26 ↔ field w 26 6 = op ∧ field w lo n = 0 := by
  rw [field_eq_iff, field_eq_iff]
  constructor
  · intro test
    have bit (k : Nat) := (getLsbD_masked w h k).symm.trans (congrArg (·.getLsbD k) test)
    constructor
    · intro k hk
      have hbit := bit (26 + k)
      rwa [getLsbD_match_high, decide_eq_true (by omega), Bool.and_true] at hbit
    · intro k hk
      have hbit := bit (lo + k)
      rw [getLsbD_match_low op (by omega), decide_eq_true (by omega), Bool.and_true] at hbit
      simpa using hbit
  · rintro ⟨hop, hzero⟩
    refine BitVec.eq_of_getLsbD_eq fun k hk => ?_
    rw [getLsbD_masked w h]
    by_cases high : 26 ≤ k
    · obtain ⟨j, rfl⟩ := Nat.exists_eq_add_of_le high
      rw [getLsbD_match_high, hop j (by omega), decide_eq_true (by omega), Bool.and_true]
    · rw [getLsbD_match_low op (by omega)]
      by_cases reserved : lo ≤ k ∧ k < lo + n
      · obtain ⟨j, rfl⟩ := Nat.exists_eq_add_of_le reserved.1
        simp [hzero j (by omega)]
      · rw [decide_eq_false (by omega), Bool.and_false]

theorem test_rowOf_iff : w &&& (rowOf i).2.2 = (rowOf i).2.1 ↔
    field w 26 6 = i.opcode ∧ field w (reservedBits i).1 (reservedBits i).2 = 0 :=
  masked_eq_match_iff i.opcode (reservedBits_le i)

theorem test_of_decode (h : decode w = some i) : w &&& (rowOf i).2.2 = (rowOf i).2.1 :=
  test_rowOf_iff.mpr ⟨opcode_of_decode h, reserved_zero_of_decode h⟩

theorem opcode_of_test {row : BitVec 6 × Word × Word} (hrow : row ∈ opcodeMap)
    (h : w &&& row.2.2 = row.2.1) : field w 26 6 = row.1 := by
  obtain ⟨i, rfl⟩ := exists_rowOf_of_mem hrow
  exact (test_rowOf_iff.mp h).1

/-- A word is illegal just when it passes the test of no row (R86). -/
theorem decode_eq_none_iff : decode w = none ↔ ∀ row ∈ opcodeMap, w &&& row.2.2 ≠ row.2.1 := by
  constructor
  · intro h row hrow test
    obtain ⟨i, rfl⟩ := exists_rowOf_of_mem hrow
    obtain ⟨hop, hzero⟩ := test_rowOf_iff.mp test
    rw [decode_of_opcode hop, whenZero_of_zero hzero] at h
    cases h
  · intro h
    cases hd : decode w with
    | none => rfl
    | some i => exact absurd (test_of_decode hd) (h _ (rowOf_mem_opcodeMap i))

/-- Settles O3: the row of the decoded command is the one the word matches. -/
theorem decodingIsTheMaskMatchTest : Obligations.DecodingIsTheMaskMatchTest := by
  refine fun w => ⟨fun i h => ?_, decode_eq_none_iff.mp⟩
  have hop : field w 26 6 = i.opcode := opcode_of_decode h
  refine ⟨rowOf i, rowOf_mem_opcodeMap i, rfl, hop.symm, test_of_decode h, fun other hother test => ?_, ?_⟩
  · have same : other.1 = (rowOf i).1 := (opcode_of_test hother test).symm.trans hop
    exact row_eq_of_opcode_eq (rowOf_mem_opcodeMap i) hother same
  · have fields := operandFields_rereadOperands w i
    rwa [rereadOperands_of_decode h] at fields

/-! Illegal words -/

theorem step_illegalWord (h : s.inputs = .word w :: rest) (hw : decode w = none) :
    step s = .next (illegalWord w { s with inputs := rest }) := by
  rw [step_cons h, meetEvent, hw]

/-- Settles O7: whatever test a word fails, the decoder gives the step no command. -/
theorem illegalWordsFaultOrAreDropped : Obligations.IllegalWordsFaultOrAreDropped := by
  intro s w rest h hw
  rw [step_illegalWord h (decode_eq_none_iff.mpr hw)]
  rfl

theorem opcode_notMem_unassigned (i : Instr) : i.opcode.toNat ∉ unassigned := by
  cases i <;> simp [Instr.opcode, unassigned]

/-- No row has an unassigned opcode (R85). -/
theorem test_fails_of_unassigned (h : (field w 26 6).toNat ∈ unassigned) :
    ∀ row ∈ opcodeMap, w &&& row.2.2 ≠ row.2.1 := by
  intro row hrow test
  obtain ⟨i, rfl⟩ := exists_rowOf_of_mem hrow
  have hop : field w 26 6 = i.opcode := opcode_of_test hrow test
  exact opcode_notMem_unassigned i (hop ▸ h)

/-- Settles O6: the case of O7 where the opcode is in no row. -/
theorem unassignedOpcodesAreIllegal : Obligations.UnassignedOpcodesAreIllegal := by
  refine ⟨fun s w rest h hop => ?_, rfl, rfl, rfl⟩
  have hstep := illegalWordsFaultOrAreDropped s w rest h (test_fails_of_unassigned hop)
  constructor
  · intro hs; rw [hstep, if_neg hs]
  · intro hs; rw [hstep, if_pos hs]

end Sys2Proof.Statements
end

section
/-! The layout of a table (40_table_manager.md R103, R104): the 12 classes follow one another without a gap, and
inside its class an address is a number with the digits p, b and i. -/

namespace Sys2Proof.Statements

open Sys2Proof.Machine

variable {k k' : TokenClass} {p b i p' b' i' a : Nat}

/-! A number of two digits, the lower one below n -/

section

variable {q r q' r' m n x : Nat}

theorem digits_lt (hq : q < m) (hr : r < n) : q * n + r < m * n :=
  calc q * n + r < (q + 1) * n := by rw [Nat.succ_mul]; omega
    _ ≤ m * n := Nat.mul_le_mul_right n hq

theorem digits_inj (hr : r < n) (hr' : r' < n) (h : q * n + r = q' * n + r') : q = q' ∧ r = r' := by
  have split {u v : Nat} (hv : v < n) : (u * n + v) / n = u ∧ (u * n + v) % n = v :=
    (Nat.div_mod_unique (by omega)).mpr ⟨by rw [Nat.mul_comm, Nat.add_comm], hv⟩
  obtain ⟨hdiv, hmod⟩ := split (u := q) hr
  rw [h, (split hr').1] at hdiv
  rw [h, (split hr').2] at hmod
  exact ⟨hdiv.symm, hmod.symm⟩

theorem exists_digits (h : x < m * n) : ∃ q r, q < m ∧ r < n ∧ q * n + r = x :=
  have hn : 0 < n := Nat.pos_of_mul_pos_left (Nat.zero_lt_of_lt h)
  ⟨x / n, x % n, (Nat.div_lt_iff_lt_mul hn).mpr h, Nat.mod_lt x hn, Nat.div_add_mod' x n⟩

end

/-! The table of R103 and the domain of R104, by the model's shapes -/

/-- The classes in the order of their bases. -/
def tokenClasses : List TokenClass :=
  [.zf77, .dcExp, .dcRes, .dcSign, .exp77, .tmc77, .res77, .sign77, .zrunE, .expE, .resE, .signE]

/-- The row of a class in the table of R103; see `classTable_eq`. -/
def classRow (k : TokenClass) : TokenClass × Nat × Nat × Nat × Nat :=
  (k, k.shape.npos, k.shape.nbucket, k.shape.nidx, k.shape.base)

theorem classTable_eq : classTable = tokenClasses.map classRow := rfl

theorem mem_tokenClasses (k : TokenClass) : k ∈ tokenClasses := by cases k <;> decide

theorem mem_classTable {npos nbucket nidx base : Nat} : (k, npos, nbucket, nidx, base) ∈ classTable ↔
    k.shape.npos = npos ∧ k.shape.nbucket = nbucket ∧ k.shape.nidx = nidx ∧ k.shape.base = base := by
  rw [classTable_eq, List.mem_map]
  constructor
  · rintro ⟨j, _, hj⟩
    cases hj
    exact ⟨rfl, rfl, rfl, rfl⟩
  · rintro ⟨rfl, rfl, rfl, rfl⟩
    exact ⟨k, mem_tokenClasses k, rfl⟩

theorem inDomain_iff : InDomain k p b i ↔ p < k.shape.npos ∧ b < k.shape.nbucket ∧ i < k.shape.nidx := by
  simp [InDomain, mem_classTable]

/-! The classes tile 0..4626 -/

/-- The number of cells of a class. -/
def classSize (k : TokenClass) : Nat := k.shape.npos * k.shape.nbucket * k.shape.nidx

/-- The address lies among those of the class; see `cellIndex_inClass` and `exists_cellIndex`. -/
def InClass (k : TokenClass) (a : Nat) : Prop := k.shape.base ≤ a ∧ a < k.shape.base + classSize k

/-- The classes of the list take up the addresses from `lo` to below `hi`, each from where the one before ends. -/
def Tiles (lo hi : Nat) : List TokenClass → Prop
  | [] => lo = hi
  | k :: rest => k.shape.base = lo ∧ Tiles (lo + classSize k) hi rest

theorem tiles_tokenClasses : Tiles 0 4627 tokenClasses := by
  simp [tokenClasses, Tiles, classSize, TokenClass.shape]

theorem le_of_tiles {lo hi : Nat} {l : List TokenClass} (h : Tiles lo hi l) : lo ≤ hi := by
  induction l generalizing lo with
  | nil => exact le_of_eq h
  | cons c rest ih =>
    have := ih h.2
    omega

theorem bounds_of_tiles {lo hi : Nat} {l : List TokenClass} (h : Tiles lo hi l) (hk : k ∈ l)
    (ha : InClass k a) : lo ≤ a ∧ a < hi := by
  obtain ⟨hbase, hend⟩ := ha
  induction l generalizing lo with
  | nil => cases hk
  | cons c rest ih =>
    obtain ⟨rfl, hrest⟩ := h
    rcases List.mem_cons.mp hk with rfl | hk
    · have := le_of_tiles hrest
      omega
    · have := ih hrest hk
      omega

theorem eq_of_tiles {lo hi : Nat} {l : List TokenClass} (h : Tiles lo hi l) (hk : k ∈ l) (hk' : k' ∈ l)
    (ha : InClass k a) (ha' : InClass k' a) : k = k' := by
  induction l generalizing lo with
  | nil => cases hk
  | cons c rest ih =>
    obtain ⟨rfl, hrest⟩ := h
    have apart {j : TokenClass} (hj : j ∈ rest) (hc : InClass c a) (hja : InClass j a) : False := by
      have := (bounds_of_tiles hrest hj hja).1
      have := hc.2
      omega
    rcases List.mem_cons.mp hk with rfl | hrk <;> rcases List.mem_cons.mp hk' with rfl | hrk'
    · rfl
    · exact (apart hrk' ha ha').elim
    · exact (apart hrk ha' ha).elim
    · exact ih hrest hrk hrk'

theorem exists_of_tiles {lo hi : Nat} {l : List TokenClass} (h : Tiles lo hi l) (hlo : lo ≤ a) (hhi : a < hi) :
    ∃ k, InClass k a := by
  induction l generalizing lo with
  | nil =>
    have : lo = hi := h
    omega
  | cons c rest ih =>
    obtain ⟨rfl, hrest⟩ := h
    by_cases hc : a < c.shape.base + classSize c
    · exact ⟨c, hlo, hc⟩
    · exact ih hrest (by omega)

theorem lt_of_inClass (h : InClass k a) : a < 4627 :=
  (bounds_of_tiles tiles_tokenClasses (mem_tokenClasses k) h).2

theorem inClass_unique (h : InClass k a) (h' : InClass k' a) : k = k' :=
  eq_of_tiles tiles_tokenClasses (mem_tokenClasses k) (mem_tokenClasses k') h h'

theorem exists_inClass (h : a < 4627) : ∃ k, InClass k a :=
  exists_of_tiles tiles_tokenClasses (Nat.zero_le a) h

/-! The addresses of one class -/

theorem cellIndex_eq (k : TokenClass) (p b i : Nat) :
    cellIndex k p b i = k.shape.base + ((p * k.shape.nbucket + b) * k.shape.nidx + i) := Nat.add_assoc ..

theorem cellIndex_inClass (h : InDomain k p b i) : InClass k (cellIndex k p b i) := by
  obtain ⟨hp, hb, hi⟩ := inDomain_iff.mp h
  rw [cellIndex_eq]
  exact ⟨Nat.le_add_right .., Nat.add_lt_add_left (digits_lt (digits_lt hp hb) hi) _⟩

theorem cellIndex_inj (h : InDomain k p b i) (h' : InDomain k p' b' i')
    (heq : cellIndex k p b i = cellIndex k p' b' i') : p = p' ∧ b = b' ∧ i = i' := by
  obtain ⟨_, hb, hi⟩ := inDomain_iff.mp h
  obtain ⟨_, hb', hi'⟩ := inDomain_iff.mp h'
  rw [cellIndex_eq, cellIndex_eq] at heq
  obtain ⟨hpb, rfl⟩ := digits_inj hi hi' (Nat.add_left_cancel heq)
  obtain ⟨rfl, rfl⟩ := digits_inj hb hb' hpb
  exact ⟨rfl, rfl, rfl⟩

theorem exists_cellIndex (h : InClass k a) : ∃ p b i, InDomain k p b i ∧ cellIndex k p b i = a := by
  obtain ⟨hbase, hend⟩ := h
  obtain ⟨x, rfl⟩ := Nat.exists_eq_add_of_le hbase
  obtain ⟨q, i, hq, hi, rfl⟩ := exists_digits (Nat.lt_of_add_lt_add_left hend)
  obtain ⟨p, b, hp, hb, rfl⟩ := exists_digits hq
  exact ⟨p, b, i, inDomain_iff.mpr ⟨hp, hb, hi⟩, cellIndex_eq ..⟩

/-! The address function -/

/-- On the domain of R104 the reduction modulo 4627 does not act. -/
theorem cellAddr_val (h : InDomain k p b i) : (cellAddr k p b i).val = cellIndex k p b i :=
  Nat.mod_eq_of_lt (lt_of_inClass (cellIndex_inClass h))

theorem cellAddr_inj (h : InDomain k p b i) (h' : InDomain k' p' b' i')
    (heq : cellAddr k p b i = cellAddr k' p' b' i') : k = k' ∧ p = p' ∧ b = b' ∧ i = i' := by
  have hidx : cellIndex k p b i = cellIndex k' p' b' i' := by
    rw [← cellAddr_val h, ← cellAddr_val h', heq]
  have hclass : k = k' := inClass_unique (cellIndex_inClass h) (hidx ▸ cellIndex_inClass h')
  subst hclass
  exact ⟨rfl, cellIndex_inj h h' hidx⟩

theorem exists_cellAddr (a : Fin 4627) : ∃ k p b i, InDomain k p b i ∧ cellAddr k p b i = a := by
  obtain ⟨k, hk⟩ := exists_inClass a.isLt
  obtain ⟨p, b, i, h, heq⟩ := exists_cellIndex hk
  exact ⟨k, p, b, i, h, Fin.ext ((cellAddr_val h).trans heq)⟩

/-- Settles O34: the class of an address by the tiling, its position, bucket and index as digits. -/
theorem cellAddressesAreABijection : Obligations.CellAddressesAreABijection := by
  refine ⟨fun k p b i npos nbucket nidx base hrow hp hb hi => ?_, fun _ _ _ _ _ _ _ _ => cellAddr_inj,
    exists_cellAddr, rfl, rfl, rfl, rfl, rfl⟩
  rw [cellAddr_val ⟨npos, nbucket, nidx, base, hrow, hp, hb, hi⟩]
  obtain ⟨rfl, rfl, rfl, rfl⟩ := mem_classTable.mp hrow
  rfl

end Sys2Proof.Statements
end

section
/-! The bounds of adaptation (40_table_manager.md R106, R107), and that no step takes a cell out of them. -/

namespace Sys2Proof.Statements

open Sys2Proof.Machine

variable {i : Instr} {s t : State}

/-! From P_INIT to the fixed points -/

/-- The last decision but one stops one short of P_MAX. -/
theorem adapt_false_126_times : (fun p => adapt p false)^[126] 1024 = 2016 := by decide +kernel

/-- The last decision but one stops one short of P_MIN. -/
theorem adapt_true_126_times : (fun p => adapt p true)^[126] 1024 = 32 := by decide +kernel

theorem adapt_false_127_times : (fun p => adapt p false)^[127] 1024 = 2017 := by
  rw [Function.iterate_succ_apply', adapt_false_126_times]
  rfl

theorem adapt_true_127_times : (fun p => adapt p true)^[127] 1024 = 31 := by
  rw [Function.iterate_succ_apply', adapt_true_126_times]
  rfl

/-! What writes a cell -/

theorem legal_clamp (v : Prob) : Prob.legal (clamp v pMin pMax) := by
  unfold clamp
  split
  · decide
  · split
    · decide
    · next hmin hmax => exact ⟨BitVec.not_lt.mp hmin, BitVec.not_lt.mp hmax⟩

theorem encodeDecision_keeps_legal {P : Params} {r : CellRef} {bit : Bool} {e d : Encoder}
    (hl : Memory.legal e.pt)
    (h : encodeDecision P r bit e = .done d ∨ encodeDecision P r bit e = .overflow d) : Memory.legal d.pt := by
  rw [(encodeDecision_extends h).2]
  exact legal_write hl r (legal_adapt (hl r) bit)

theorem serialize_keeps_legal {ch : Chan} {pos : Position} {d : Encoder} (hl : Memory.legal s.pt)
    (h : serialize ch pos s = .done d ∨ serialize ch pos s = .overflow d) : Memory.legal d.pt := by
  obtain ⟨_, _, keeps, _⟩ := encodeAll_extends h
  exact keeps hl

/-! Commands and steps -/

theorem effect_keeps_legal (hl : Memory.legal s.pt) (h : Effect i s t) : Memory.legal t.pt := by
  cases h
  case passBegin warm _ =>
    cases warm
    case false => exact legal_initAll
    case true => exact hl
  case ptWr v _ => exact legal_write hl s.ptr (legal_clamp v)
  case ptInit all _ =>
    cases all
    case false => exact legal_initTable hl s.ptr.ch s.ptr.pos
    case true => exact legal_initAll
  case encBit he => exact encodeDecision_keeps_legal (e := s.encoder) hl (.inl he)
  case encBlock he =>
    rw [advance_pt]
    exact serialize_keeps_legal hl (.inl he)
  all_goals exact hl

/-- The cells that were adapted before OUT_OVERFLOW stay so (60_exceptions.md R224). -/
theorem overflow_keeps_legal (hl : Memory.legal s.pt) (h : Overflow i s t) : Memory.legal t.pt := by
  cases h
  case passEnd => exact hl
  case encBit he => exact encodeDecision_keeps_legal (e := s.encoder) hl (.inr he)
  case encBlock he => exact serialize_keeps_legal hl (.inr he)

theorem exec_keeps_legal (hl : Memory.legal s.pt) (h : exec i s = .next t) : Memory.legal t.pt := by
  rcases exec_cases h with ⟨_, _, rfl⟩ | ⟨_, _, _, _, rfl⟩ | ⟨_, effect⟩ | ⟨_, u, overflow, rfl⟩
  · exact hl
  · exact hl
  · exact effect_keeps_legal hl effect
  · exact overflow_keeps_legal (t := u) hl overflow

/-- A word that is no command writes no cell. -/
theorem illegalWord_pt (w : Word) (s : State) : (illegalWord w s).pt = s.pt := by
  unfold illegalWord
  split <;> rfl

theorem step_keeps_legal (hl : Memory.legal s.pt) (h : step s = .next t) : Memory.legal t.pt := by
  rcases step_cases h with ⟨_, h⟩ | ⟨_, _, rest, _, _, h⟩ | ⟨w, rest, _, _, h⟩ | ⟨_, _, h⟩ | ⟨_, _, h⟩
  · cases h; exact hl
  · exact exec_keeps_legal (s := { s with inputs := rest }) hl h
  · cases h; rw [illegalWord_pt]; exact hl
  · cases h; exact legal_initAll
  · cases h; exact hl

/-- Settles O35: every value a command writes to a cell is P_INIT, clamped, or adapted from a legal one. -/
theorem adaptationIsBounded : Obligations.AdaptationIsBounded := by
  refine ⟨fun p => ⟨adapt_toNat p false, adapt_toNat p true⟩, fun _ bit hp => legal_adapt hp bit, rfl, rfl,
    adapt_false_127_times, ?_, adapt_true_127_times, ?_, legal_initAll, fun _ _ => step_keeps_legal⟩
  · rw [adapt_false_126_times]; decide
  · rw [adapt_true_126_times]; decide

end Sys2Proof.Statements
end

section
/-! The position selector: the rule of each position (41_position_selector.md R121), and which positions
need which widths (R124). -/

namespace Sys2Proof.Statements

open Sys2Proof.Machine

variable {w row col : Nat}

/-- The source's rule for each position, for the block at `row`, `col` of a row of `w` blocks (R121). -/
inductive PositionRule (w row col : Nat) : Position → Prop
  | corner (firstRow : row = 0) (firstCol : col = 0) : PositionRule w row col .corner
  | topEdge (firstRow : row = 0) (laterCol : 0 < col) : PositionRule w row col .topEdge
  | singleColumn (narrow : w = 1) (laterRow : 0 < row) : PositionRule w row col .singleColumn
  | midLeft (wide : 1 < w) (laterRow : 0 < row) (firstCol : col = 0) : PositionRule w row col .midLeft
  | interiorMiddle (laterRow : 0 < row) (laterCol : 0 < col) (notLast : col + 1 < w) :
      PositionRule w row col .interiorMiddle
  | midRight (wide : 1 < w) (laterRow : 0 < row) (last : col + 1 = w) : PositionRule w row col .midRight

/-- `Select` answers a position whose rule holds: its tests (R123) are the rules of R121. -/
theorem selectPosition_rule (hcol : col < w) : PositionRule w row col (selectPosition w row col) := by
  unfold selectPosition
  split
  · split
    · exact .corner (by omega) (by omega)
    · exact .singleColumn (by omega) (by omega)
  split
  · split
    · exact .corner (by omega) (by omega)
    · exact .topEdge (by omega) (by omega)
  split
  · exact .midLeft (by omega) (by omega) (by omega)
  split
  · exact .midRight (by omega) (by omega) (by omega)
  · exact .interiorMiddle (by omega) (by omega) (by omega)

/-- In a row of one block only two rules can hold: the only column is the first and the last. -/
theorem PositionRule.corner_or_singleColumn {p : Position} (rule : PositionRule w row col p) (hcol : col < w)
    (hw : w = 1) : p = .corner ∨ p = .singleColumn := by
  cases rule with
  | corner => exact .inl rfl
  | singleColumn => exact .inr rfl
  | topEdge _ laterCol => omega
  | midLeft wide => omega
  | interiorMiddle _ _ notLast => omega
  | midRight wide => omega

theorem PositionRule.width_of_singleColumn (rule : PositionRule w row col .singleColumn) : w = 1 := by
  cases rule with
  | singleColumn narrow => exact narrow

/-- A column that is neither first nor last has one on either side. -/
theorem PositionRule.width_of_interiorMiddle (rule : PositionRule w row col .interiorMiddle) : 3 ≤ w := by
  cases rule with
  | interiorMiddle _ laterCol notLast => omega

theorem PositionRule.width_of_midRight (rule : PositionRule w row col .midRight) : 2 ≤ w := by
  cases rule with
  | midRight wide => exact wide

/-- Settles O25: the widths are read off the rule of the selected position. -/
theorem selectorIsTotal : Obligations.SelectorIsTotal := by
  intro w row col _ hcol
  have rule : PositionRule w row col (selectPosition w row col) := selectPosition_rule hcol
  exact ⟨⟨_, rfl⟩, rule.corner_or_singleColumn hcol, fun h => (h ▸ rule).width_of_singleColumn,
    fun h => (h ▸ rule).width_of_interiorMiddle, fun h => (h ▸ rule).width_of_midRight⟩

end Sys2Proof.Statements
end

section
/-! Decodability (42_arithmetic_coder.md R151). The bytes that the coder has made or holds back, followed by LOW, are
one big-endian number, its code value. A shift only moves the point of that number, and `Finish` writes it out. So the
first bytes of the payload, as many as the code value has, lie in `[code value, code value + RANGE)` after every
decision, and the mirror decoder's registers are that distance, RANGE, the cells and the bytes not read yet. -/

namespace Sys2Proof.Statements

open Sys2Proof.Machine

variable {P : Params} {c d : Coder} {p : Prob} {bit : Bool} {e e' : Encoder} {r : CellRef} {payload : List Byte}

/-! Byte strings as numbers (20_memory.md R63) -/

theorem bigEndian_concat (l : List Byte) (b : Byte) : bigEndian (l ++ [b]) = 256 * bigEndian l + b.toNat := by
  simp [bigEndian]

theorem bigEndian_append_replicate_zero (l : List Byte) (n : Nat) :
    bigEndian (l ++ List.replicate n 0) = bigEndian l * 256 ^ n := by
  induction n with
  | zero => simp
  | succ n ih =>
    have last : (0 : Byte).toNat = 0 := rfl
    rw [List.replicate_succ', ← List.append_assoc, bigEndian_concat, ih, pow_succ, last]
    ring

theorem bigEndian_append_replicate_ff (l : List Byte) (n : Nat) :
    bigEndian (l ++ List.replicate n 0xFF) + 1 = (bigEndian l + 1) * 256 ^ n := by
  induction n with
  | zero => simp
  | succ n ih =>
    have last : (0xFF : Byte).toNat = 255 := rfl
    rw [List.replicate_succ', ← List.append_assoc, bigEndian_concat, pow_succ, ← Nat.mul_assoc, ← ih, last]
    omega

theorem bigEndian_take_succ {n : Nat} (h : n < payload.length) :
    bigEndian (payload.take (n + 1)) =
      256 * bigEndian (payload.take n) + ((payload.drop n).headD 0).toNat := by
  rw [List.take_add_one, List.getElem?_eq_getElem h, Option.toList_some, bigEndian_concat,
    List.drop_eq_getElem_cons h, List.headD_cons]

/-! The code value (42_arithmetic_coder.md R144) -/

/-- The bytes appended so far and those held back, no carry added, as one number. -/
def heldValue (c : Coder) : Nat := bigEndian (c.out ++ c.cache :: List.replicate (c.pend - 1) 0xFF)

/-- The lower end of the interval: the bytes made or held back, followed by LOW with its carry. -/
def codeValue (c : Coder) : Nat := heldValue c * 2 ^ 32 + c.low.toNat

/-- The number of bytes of the code value: those appended, those held back and four of LOW. -/
def codeLength (c : Coder) : Nat := c.out.length + c.pend + 4

/-- A carry, if one is pending, ends in CACHE: it does not run into the bytes appended before. -/
def CarryAbsorbed (c : Coder) : Prop := c.low.toNat < 2 ^ 32 ∨ c.cache.toNat ≠ 255

/-- The bytes that become final are the bytes held back with the carry added. -/
theorem bigEndian_heldBytes (h : CarryAbsorbed c) :
    bigEndian (c.out ++ heldBytes c) = heldValue c + c.low.toNat / 2 ^ 32 := by
  have hlow := c.low.isLt
  unfold heldBytes heldValue
  rw [carry_eq]
  by_cases hcarry : c.low.toNat < 2 ^ 32
  · rw [Nat.div_eq_of_lt hcarry, Nat.add_zero, Nat.add_zero, BitVec.ofNat_toNat, BitVec.setWidth_eq]
    rfl
  · have hone : c.low.toNat / 2 ^ 32 = 1 := by omega
    have habsorbed : c.cache.toNat ≠ 255 := h.resolve_left hcarry
    have hcache : (BitVec.ofNat 8 (c.cache.toNat + 1)).toNat = c.cache.toNat + 1 := by
      rw [BitVec.toNat_ofNat]
      omega
    have hzero : BitVec.ofNat 8 (0xFF + 1) = 0 := rfl
    rw [hone, hzero, List.append_cons, List.append_cons c.out c.cache, bigEndian_append_replicate_zero,
      bigEndian_append_replicate_ff, bigEndian_concat, bigEndian_concat, hcache]
    ring

theorem heldValue_flushed (h : CarryAbsorbed c) :
    heldValue (flushed c) = 256 * (heldValue c + c.low.toNat / 2 ^ 32) + c.low.toNat / 2 ^ 24 % 2 ^ 8 := by
  have hcache : (c.low.extractLsb' 24 8).toNat = c.low.toNat / 2 ^ 24 % 2 ^ 8 := by
    rw [BitVec.extractLsb'_toNat, Nat.shiftRight_eq_div_pow]
  rw [← bigEndian_heldBytes h, ← hcache]
  exact bigEndian_concat (c.out ++ heldBytes c) _

theorem heldValue_deferred (hpend : 1 ≤ c.pend) : heldValue (deferred c) = 256 * heldValue c + 255 := by
  have hsucc : c.pend + 1 - 1 = c.pend - 1 + 1 := by omega
  unfold heldValue deferred
  rw [hsucc, List.replicate_succ', ← List.cons_append, ← List.append_assoc, bigEndian_concat]
  rfl

/-- `ShiftLow` moves the point of the code value by one byte and keeps its digits. -/
theorem codeValue_shiftLow (h : shiftLow P c = .ok d) (hpend : 1 ≤ c.pend) (hcarry : CarryAbsorbed c) :
    codeValue d = 256 * codeValue c := by
  have hlow : d.low.toNat = c.low.toNat % 2 ^ 24 * 2 ^ 8 := (shiftLow_count h hpend).2.2.2.2.1
  unfold codeValue
  rw [hlow]
  rcases shiftLow_ok h with ⟨_, _, rfl⟩ | ⟨unsettled, rfl⟩
  · rw [heldValue_flushed hcarry]
    omega
  · rw [heldValue_deferred hpend]
    unfold settled at unsettled
    omega

theorem codeLength_shiftLow (h : shiftLow P c = .ok d) (hpend : 1 ≤ c.pend) :
    codeLength d = codeLength c + 1 := by
  obtain ⟨hcount, _⟩ := shiftLow_count h hpend
  unfold codeLength
  omega

/-! Finish (R147) -/

/-- A shift makes no carry, so each one moves the point by one byte. -/
theorem shiftTimes_codeValue : ∀ {n : Nat} {c d : Coder}, shiftTimes P n c = .ok d → 1 ≤ c.pend →
    CarryAbsorbed c → codeValue d = 256 ^ n * codeValue c ∧ codeLength d = codeLength c + n ∧ 1 ≤ d.pend
  | 0, c, d, h, hpend, _ => by
    cases h
    simp [hpend]
  | n + 1, c, d, h, hpend, hcarry => by
    unfold shiftTimes at h
    split at h
    · next c' hc' =>
      obtain ⟨_, hpend', _, _, hlow, _⟩ := shiftLow_count hc' hpend
      obtain ⟨hvalue, hlength, hd⟩ := shiftTimes_codeValue h hpend' (.inl (by omega))
      refine ⟨?_, ?_, hd⟩
      · rw [hvalue, codeValue_shiftLow hc' hpend hcarry]
        ring
      · rw [hlength, codeLength_shiftLow hc' hpend]
        omega
    · cases h

/-- LOW modulo 2^32 moves up by eight bits at each shift. -/
theorem shiftTimes_low : ∀ {n : Nat} {c d : Coder}, shiftTimes P n c = .ok d → 1 ≤ c.pend →
    d.low.toNat ≡ c.low.toNat * 256 ^ n [MOD 2 ^ 32]
  | 0, c, d, h, _ => by
    cases h
    simp [Nat.ModEq.refl]
  | n + 1, c, d, h, hpend => by
    unfold shiftTimes at h
    split at h
    · next c' hc' =>
      obtain ⟨_, hpend', _, _, hlow, _⟩ := shiftLow_count hc' hpend
      have one : c'.low.toNat ≡ c.low.toNat * 256 [MOD 2 ^ 32] := by
        unfold Nat.ModEq
        omega
      calc d.low.toNat ≡ c'.low.toNat * 256 ^ n [MOD 2 ^ 32] := shiftTimes_low h hpend'
        _ ≡ c.low.toNat * 256 * 256 ^ n [MOD 2 ^ 32] := one.mul_right _
        _ = c.low.toNat * 256 ^ (n + 1) := by ring
    · cases h

/-- The last of several shifts. -/
theorem shiftTimes_succ_ok : ∀ {n : Nat} {c d : Coder}, shiftTimes P (n + 1) c = .ok d →
    ∃ c', shiftTimes P n c = .ok c' ∧ shiftLow P c' = .ok d
  | 0, c, d, h => by
    rw [shiftTimes] at h
    split at h
    · next hd =>
      cases h
      exact ⟨c, rfl, hd⟩
    · cases h
  | n + 1, c, d, h => by
    rw [shiftTimes] at h
    split at h
    · next c₁ hc₁ =>
      obtain ⟨c', hc', hd⟩ := shiftTimes_succ_ok h
      exact ⟨c', by rw [shiftTimes, hc₁]; exact hc', hd⟩
    · cases h

/-- Four shifts leave nothing in LOW but the carry, so the fifth appends what is held back and holds 0x00. -/
theorem finish_registers (h : finish P c = .ok d) (hpend : 1 ≤ c.pend) : d.low = 0 ∧ d.cache = 0 ∧ d.pend = 1 := by
  obtain ⟨c', hc', hd⟩ := shiftTimes_succ_ok h
  have hzero : c'.low.toNat % 2 ^ 32 = 0 := by
    rw [shiftTimes_low hc' hpend]
    omega
  rcases shiftLow_ok hd with ⟨_, _, rfl⟩ | ⟨unsettled, _⟩
  · refine ⟨BitVec.eq_of_toNat_eq ?_, BitVec.eq_of_toNat_eq ?_, rfl⟩
    · change c'.shiftedLow.toNat = 0
      rw [shiftedLow_toNat]
      omega
    · change (c'.low.extractLsb' 24 8).toNat = 0
      rw [BitVec.extractLsb'_toNat, Nat.shiftRight_eq_div_pow]
      omega
  · unfold settled at unsettled
    omega

/-- The payload is the code value, in as many bytes. -/
theorem finish_writes_codeValue (h : finish P c = .ok d) (hpend : 1 ≤ c.pend) (hcarry : CarryAbsorbed c) :
    bigEndian d.out = codeValue c ∧ d.out.length = codeLength c := by
  obtain ⟨hlow, hcache, hd⟩ := finish_registers h hpend
  obtain ⟨hvalue, hlength, _⟩ := shiftTimes_codeValue h hpend hcarry
  have hheld : heldValue d = 256 * bigEndian d.out := by
    unfold heldValue
    rw [hcache, hd]
    exact bigEndian_concat d.out 0
  have hzero : d.low.toNat = 0 := congrArg BitVec.toNat hlow
  unfold codeValue at hvalue
  unfold codeLength at hlength
  unfold codeValue codeLength
  omega

/-! The coder between decisions (R146) -/

/-- R146 (a), (b), and no carry to come while CACHE is 0xFF, for CACHE is 0xFF only after a carry, and an interval
holds one carry at most. -/
structure CoderInv (c : Coder) : Prop extends Coder.Legal c where
  no_carry : c.cache.toNat = 255 → c.low.toNat + c.range.toNat < 2 ^ 32

theorem coderInv_start : CoderInv Coder.start := ⟨⟨by decide, by decide, by decide⟩, fun _ => by decide⟩

theorem carryAbsorbed_of_no_carry (h : c.cache.toNat = 255 → c.low.toNat + c.range.toNat < 2 ^ 32) :
    CarryAbsorbed c := by
  by_cases hcache : c.cache.toNat = 255
  · have := h hcache
    exact .inl (by omega)
  · exact .inr hcache

/-- What is left of the invariant after a narrowing, before the loop. -/
structure Narrowed (c : Coder) : Prop where
  range_ge : 2 ^ 16 ≤ c.range.toNat
  sum_lt : c.low.toNat + c.range.toNat < 2 ^ 33
  pend_pos : 1 ≤ c.pend
  no_carry : c.cache.toNat = 255 → c.low.toNat + c.range.toNat < 2 ^ 32

theorem CoderInv.narrowed (hc : CoderInv c) (hp : Prob.legal p) (bit : Bool) : Narrowed (narrow p bit c) := by
  obtain ⟨hrange, _, hsum⟩ := narrow_bounds hc.toLegal hp bit
  have hlt := hc.sum_lt
  refine ⟨by omega, by omega, by simpa using hc.pend_pos, fun hcache => ?_⟩
  have := hc.no_carry (by simpa using hcache)
  omega

theorem Narrowed.coderInv (hc : Narrowed c) (hwide : 2 ^ 24 ≤ c.range.toNat) : CoderInv c :=
  ⟨⟨hwide, hc.sum_lt, hc.pend_pos⟩, hc.no_carry⟩

/-- CACHE is 0xFF after a shift only where the top byte of LOW was, with a carry above it or CACHE 0xFF already. -/
theorem shiftLow_cache_ff (h : shiftLow P c = .ok d) (hcache : d.cache.toNat = 255) :
    c.low.toNat / 2 ^ 24 % 2 ^ 8 = 255 ∧ (2 ^ 32 ≤ c.low.toNat ∨ c.cache.toNat = 255) := by
  rcases shiftLow_ok h with ⟨hsettled, _, rfl⟩ | ⟨unsettled, rfl⟩
  · have htop : (c.low.extractLsb' 24 8).toNat = 255 := hcache
    rw [BitVec.extractLsb'_toNat, Nat.shiftRight_eq_div_pow] at htop
    unfold settled at hsettled
    exact ⟨htop, .inl (by omega)⟩
  · unfold settled at unsettled
    exact ⟨by omega, .inr hcache⟩

/-- One round of the loop: RANGE and the code value move up together. -/
structure Renormalised (c d : Coder) : Prop where
  inv : CoderInv d
  range_eq : d.range.toNat = 256 * c.range.toNat
  codeValue_eq : codeValue d = 256 * codeValue c
  codeLength_eq : codeLength d = codeLength c + 1

theorem Narrowed.renormalised (hc : Narrowed c) (hnarrow : c.range.toNat < 2 ^ 24)
    (h : shiftLow P { c with range := c.range <<< 8 } = .ok d) : Renormalised c d := by
  have hcarry : CarryAbsorbed c := carryAbsorbed_of_no_carry hc.no_carry
  have hvalue := codeValue_shiftLow h hc.pend_pos hcarry
  have hlength := codeLength_shiftLow h hc.pend_pos
  obtain ⟨_, hpend, hshift, _, hlow, _⟩ := shiftLow_count h hc.pend_pos
  dsimp only at hlow
  have hrange : d.range.toNat = c.range.toNat * 2 ^ 8 := by rw [hshift, range_shift hnarrow]
  have hge := hc.range_ge
  have hsum := hc.sum_lt
  refine ⟨⟨⟨by omega, by omega, hpend⟩, fun hcache => ?_⟩, by omega, hvalue, hlength⟩
  obtain ⟨htop, hcase⟩ := shiftLow_cache_ff h hcache
  dsimp only at htop hcase
  rcases hcase with hone | hff
  · omega
  · have := hc.no_carry hff
    omega

/-! The decoder's registers -/

/-- The first bytes of the payload, as many as the code value has, lie in the coder's interval. -/
structure Contains (c : Coder) (payload : List Byte) : Prop where
  length_le : codeLength c ≤ payload.length
  low_le : codeValue c ≤ bigEndian (payload.take (codeLength c))
  lt_high : bigEndian (payload.take (codeLength c)) < codeValue c + c.range.toNat

/-- The mirror of an encoder: where in the encoder's interval the payload lies. -/
def mirrorOf (e : Encoder) (payload : List Byte) : Mirror :=
  ⟨bigEndian (payload.take (codeLength e.coder)) - codeValue e.coder, e.coder.range.toNat, e.pt,
    payload.drop (codeLength e.coder)⟩

theorem mirrorOf_start (pt : Memory) (payload : List Byte) :
    mirrorOf ⟨Coder.start, pt⟩ payload = Mirror.start pt payload := by
  have hvalue : codeValue Coder.start = 0 := by decide
  have hlength : codeLength Coder.start = 5 := by decide
  have hrange : Coder.start.range.toNat = 0xFFFFFFFF := by decide
  simp only [mirrorOf, Mirror.start, hvalue, hlength, hrange, Nat.sub_zero]

/-- After `Finish` the payload is the lower end of the interval. -/
theorem contains_of_finish (hc : CoderInv c) (h : finish P c = .ok d) : Contains c d.out := by
  obtain ⟨hvalue, hlength⟩ := finish_writes_codeValue h hc.pend_pos (carryAbsorbed_of_no_carry hc.no_carry)
  have hrange := hc.range_ge
  have htake : bigEndian (d.out.take (codeLength c)) = codeValue c := by
    rw [← hlength, List.take_length, hvalue]
  exact ⟨by omega, by omega, by omega⟩

/-! The narrowing, in both directions (R145) -/

/-- The encoder between the narrowing of a decision and its loop. -/
def narrowed (e : Encoder) (r : CellRef) (bit : Bool) : Encoder :=
  ⟨narrow (Memory.read e.pt r) bit e.coder, Memory.write e.pt r (adapt (Memory.read e.pt r) bit)⟩

theorem codeLength_narrow (p : Prob) (bit : Bool) (c : Coder) : codeLength (narrow p bit c) = codeLength c := by
  simp [codeLength]

/-- A 1 raises the code value by `bound`, a 0 keeps it. -/
theorem codeValue_narrow (hc : CoderInv c) (hp : Prob.legal p) (bit : Bool) :
    codeValue (narrow p bit c) =
      if bit then codeValue c + (bound c.range p).toNat else codeValue c := by
  have hheld : heldValue (narrow p bit c) = heldValue c := by simp [heldValue]
  unfold codeValue
  rw [hheld, (narrow_toNat hc.toLegal hp bit).1]
  split
  · omega
  · rfl

/-- The interval of a decision lies in the one before it. -/
theorem Contains.of_narrow (hc : CoderInv c) (hp : Prob.legal p) (h : Contains (narrow p bit c) payload) :
    Contains c payload := by
  obtain ⟨hlength, hlow, hhigh⟩ := h
  have hb := bound_bounds hc.range_ge hp
  rw [codeLength_narrow] at hlength hlow hhigh
  rw [codeValue_narrow hc hp] at hlow hhigh
  rw [(narrow_toNat hc.toLegal hp bit).2] at hhigh
  cases bit
  case false => exact ⟨hlength, hlow, hhigh.trans_le (by simp; omega)⟩
  case true =>
    simp only [if_true] at hlow hhigh
    exact ⟨hlength, by omega, by omega⟩

/-- The mirror compares its distance with the encoder's `bound`. -/
theorem mirrorOf_bit_iff : (mirrorOf e payload).bit r = true ↔ (bound e.coder.range (Memory.read e.pt r)).toNat ≤
    bigEndian (payload.take (codeLength e.coder)) - codeValue e.coder := by
  rw [bound_toNat]
  exact decide_eq_true_iff

/-- The payload tells the two parts of the interval apart. -/
theorem mirrorOf_bit (hc : CoderInv e.coder) (hp : Prob.legal (Memory.read e.pt r))
    (h : Contains (narrowed e r bit).coder payload) : (mirrorOf e payload).bit r = bit := by
  obtain ⟨_, hlow, hhigh⟩ := h
  unfold narrowed at hlow hhigh
  rw [codeLength_narrow, codeValue_narrow hc hp] at hlow hhigh
  rw [(narrow_toNat hc.toLegal hp bit).2] at hhigh
  have hb := bound_bounds hc.range_ge hp
  cases bit
  case false =>
    simp only [Bool.false_eq_true, if_false] at hlow hhigh
    rw [← Bool.not_eq_true, mirrorOf_bit_iff]
    omega
  case true =>
    simp only [if_true] at hlow hhigh
    rw [mirrorOf_bit_iff]
    omega

/-- The mirror narrows as the encoder does. -/
theorem mirrorOf_narrow (hc : CoderInv e.coder) (hp : Prob.legal (Memory.read e.pt r))
    (h : Contains (narrowed e r bit).coder payload) :
    (mirrorOf e payload).narrow r = mirrorOf (narrowed e r bit) payload := by
  have hbit := mirrorOf_bit hc hp h
  unfold Mirror.narrow
  rw [hbit]
  unfold mirrorOf narrowed
  simp only [codeLength_narrow, codeValue_narrow hc hp, (narrow_toNat hc.toLegal hp bit).2, ← bound_toNat]
  cases bit
  case false => rfl
  case true => simp only [if_true, Nat.sub_sub]

/-! The loop, in both directions (R145, R146 (c)) -/

theorem Contains.of_renormalised (hd : Renormalised c d) (h : Contains d payload) : Contains c payload := by
  obtain ⟨hlength, hlow, hhigh⟩ := h
  rw [hd.codeLength_eq] at hlength hlow hhigh
  rw [bigEndian_take_succ (by omega), hd.codeValue_eq] at hlow hhigh
  rw [hd.range_eq] at hhigh
  have hbyte := ((payload.drop (codeLength c)).headD 0).isLt
  exact ⟨by omega, by omega, by omega⟩

theorem pull_wide {m : Mirror} (h : 2 ^ 24 ≤ m.range) : m.pull = m := by
  unfold Mirror.pull
  rw [if_neg (by omega)]

/-- The byte that the mirror pulls is the next one of the payload. -/
theorem mirrorOf_pull {pt : Memory} (hc : c.range.toNat < 2 ^ 24) (hd : Renormalised c d)
    (h : Contains d payload) : (mirrorOf ⟨c, pt⟩ payload).pull = mirrorOf ⟨d, pt⟩ payload := by
  have hlength := h.length_le
  have hlow := (h.of_renormalised hd).low_le
  rw [hd.codeLength_eq] at hlength
  unfold Mirror.pull mirrorOf
  rw [if_pos hc]
  simp only [hd.codeLength_eq, hd.codeValue_eq, hd.range_eq, bigEndian_take_succ (payload := payload) hlength,
    List.tail_drop, Mirror.mk.injEq, and_true]
  omega

/-! One decision -/

/-- The decoder reads the decision and follows the encoder. -/
structure Mirrors (e : Encoder) (r : CellRef) (bit : Bool) (e' : Encoder) (payload : List Byte) : Prop where
  contains : Contains e.coder payload
  bit_eq : (mirrorOf e payload).bit r = bit
  next_eq : ((mirrorOf e payload).narrow r).pull = mirrorOf e' payload

/-- A decision is read back from any payload in the interval that it leaves. -/
theorem encodeDecision_mirrors (hc : CoderInv e.coder) (hp : Prob.legal (Memory.read e.pt r))
    (h : encodeDecision P r bit e = .done e') :
    CoderInv e'.coder ∧ ∀ payload, Contains e'.coder payload → Mirrors e r bit e' payload := by
  have hn : Narrowed (narrowed e r bit).coder := hc.narrowed hp bit
  rcases encodeDecision_cases (P := P) (bit := bit) hc.toLegal hp with
    ⟨hwide, heq⟩ | ⟨hnarrow, d, hshift, heq⟩ | ⟨_, d, _, heq⟩
  · obtain rfl : narrowed e r bit = e' := Coded.done.inj (heq.symm.trans h)
    refine ⟨hn.coderInv hwide, fun payload hin => ⟨hin.of_narrow hc hp, mirrorOf_bit hc hp hin, ?_⟩⟩
    rw [mirrorOf_narrow hc hp hin]
    exact pull_wide hwide
  · obtain rfl := Coded.done.inj (heq.symm.trans h)
    have hd : Renormalised (narrowed e r bit).coder d := hn.renormalised hnarrow hshift
    refine ⟨hd.inv, fun payload hin => ?_⟩
    have hin' : Contains (narrowed e r bit).coder payload := hin.of_renormalised hd
    refine ⟨hin'.of_narrow hc hp, mirrorOf_bit hc hp hin', ?_⟩
    rw [mirrorOf_narrow hc hp hin']
    exact mirrorOf_pull hnarrow hd hin
  · cases heq.symm.trans h

/-! All decisions -/

/-- The invariant holds after all decisions, and a payload in the last interval lies in the first and is read back. -/
theorem codeList_decodes : ∀ {ds : List (CellRef × Bool)} {e e' : Encoder}, CoderInv e.coder → Memory.legal e.pt →
    codeList P ds e = .done e' → CoderInv e'.coder ∧ ∀ payload, Contains e'.coder payload →
      Contains e.coder payload ∧ Mirror.decode (ds.map Prod.fst) (mirrorOf e payload) = ds.map Prod.snd
  | [], e, e', hc, _, h => by
    cases h
    exact ⟨hc, fun _ hin => ⟨hin, rfl⟩⟩
  | (r, bit) :: ds, e, e', hc, hl, h => by
    unfold codeList at h
    split at h
    · next e₁ he₁ =>
      obtain ⟨hc₁, mirrors⟩ := encodeDecision_mirrors hc (hl r) he₁
      obtain ⟨hc', ih⟩ := codeList_decodes hc₁ (encodeDecision_keeps_legal hl (.inl he₁)) h
      refine ⟨hc', fun payload hin => ?_⟩
      obtain ⟨hin₁, hrest⟩ := ih payload hin
      obtain ⟨hcontains, hbit, hnext⟩ := mirrors payload hin₁
      refine ⟨hcontains, ?_⟩
      rw [List.map_cons, List.map_cons, Mirror.decode, hbit, hnext, hrest]
    · cases h
    · cases h

/-- Settles O42: the payload lies in the interval of the last decision, so by induction over the decisions the mirror
decoder stands in the interval of each. -/
theorem payloadDecodesToTheDecisions : Obligations.PayloadDecodesToTheDecisions := by
  intro P pt ds e c hl hcode hfinish
  obtain ⟨hc, decodes⟩ := codeList_decodes coderInv_start hl hcode
  rw [← mirrorOf_start]
  exact (decodes c.out (contains_of_finish hc hfinish)).2

end Sys2Proof.Statements
end

section
/-! The FAULT state (60_exceptions.md R223): every word but that of a CSR_RD is dropped, CSR_RD answers with the
register of the status register map (10_state.md R43), and only the reset input leaves it. -/

namespace Sys2Proof.Statements

open Sys2Proof.Machine

variable {s : State} {w : Word} {i : Instr} {e : HostEvent} {rest : List HostEvent}

/-! The status register map as numbers -/

/-- Two fields side by side. -/
theorem toNat_concat {n m : Nat} (x : BitVec n) (y : BitVec m) :
    (x ++ y).toNat = y.toNat + 2 ^ m * x.toNat := by
  rw [BitVec.toNat_append, Nat.shiftLeft_eq, Nat.mul_comm, ← Nat.two_pow_add_eq_or_of_lt y.isLt, Nat.add_comm]

theorem zext32_toNat {n : Nat} (v : BitVec n) (h : n ≤ 32) : (zext32 v).toNat = v.toNat :=
  BitVec.toNat_setWidth_of_le h

theorem statusWord_toNat (st : PassState) (f : FaultCode) :
    (statusWord st f).toNat = st.code.toNat + 2 ^ 4 * f.code.toNat := by
  simp only [statusWord, toNat_concat, BitVec.toNat_ofNat]
  omega

theorem ptrWord_toNat (p : CellRef) :
    (ptrWord p).toNat = 2 ^ 24 * p.ch.val + 2 ^ 21 * p.pos.code + 2 ^ 8 * p.cell.val := by
  have hpos : p.pos.code < 6 := by cases p.pos <;> decide
  simp only [ptrWord, toNat_concat, BitVec.toNat_ofNat]
  omega

theorem lowBits_toNat (low : BitVec 33) : (low.extractLsb' 0 32).toNat = low.toNat % 2 ^ 32 := by
  rw [BitVec.extractLsb'_toNat, Nat.shiftRight_zero]

theorem carryBit_toNat (low : BitVec 33) : (zext32 (low.extractLsb' 32 1)).toNat = low.toNat / 2 ^ 32 := by
  have h := low.isLt
  rw [zext32_toNat _ (by decide), BitVec.extractLsb'_toNat, Nat.shiftRight_eq_div_pow]
  omega

theorem countWord_toNat (n : Nat) : (BitVec.ofNat 32 (min n (2 ^ 32 - 1))).toNat = min n (2 ^ 32 - 1) := by
  rw [BitVec.toNat_ofNat]
  omega

/-- What a status register reads as is its value in the map; an unassigned address reads as 0. -/
theorem csrRead_toNat (s : State) (addr : BitVec 8) : (csrRead s addr).toNat = csrValue s addr.toNat := by
  unfold csrRead
  -- The cases are the rows of R43 in their order; the last is every unassigned address.
  split
  case h_23 => simp_all [csrValue]
  all_goals rename_i h; rw [h]
  case h_1 => exact statusWord_toNat _ _
  case h_3 | h_4 | h_8 | h_12 => exact zext32_toNat _ (by decide)
  case h_5 => exact lowBits_toNat s.low
  case h_6 => exact carryBit_toNat s.low
  case h_9 | h_10 => exact BitVec.toNat_ofNat _ 32
  case h_11 => exact countWord_toNat _
  case h_13 => exact ptrWord_toNat s.ptr
  case h_14 | h_15 | h_17 | h_18 | h_20 | h_21 => exact toNat_concat _ _
  case h_2 | h_7 | h_16 | h_19 | h_22 => rfl

/-! The word of a CSR_RD -/

/-- The 24 high bits of a word are those of a CSR_RD just when its opcode is 0x04 and bits 25..8 are zero. -/
theorem csrRdForm_iff : w.extractLsb' 8 24 = 0x100000 ↔ field w 26 6 = 0x04 ∧ field w 8 18 = 0 := by
  rw [← BitVec.toNat_inj, ← BitVec.toNat_inj, ← BitVec.toNat_inj, field_toNat, field_toNat,
    BitVec.extractLsb'_toNat, Nat.shiftRight_eq_div_pow]
  simp only [BitVec.reduceToNat]
  omega

theorem decode_csrRd (h : w.extractLsb' 8 24 = 0x100000) : decode w = some (.csrRd (field w 0 8)) := by
  obtain ⟨hop, hzero⟩ := csrRdForm_iff.mp h
  exact (decode_of_opcode (i := .csrRd 0) hop).trans (whenZero_of_zero hzero)

theorem isCsrRd_of_decode (h : decode w = some i) (hw : w.extractLsb' 8 24 ≠ 0x100000) : isCsrRd i = false := by
  cases i
  case csrRd a => exact absurd (csrRdForm_iff.mpr ⟨opcode_of_decode h, reserved_zero_of_decode h⟩) hw
  all_goals rfl

/-! What FAULT drops and what it answers -/

theorem exec_dropped (hs : s.state = .fault) (hi : isCsrRd i = false) : exec i s = .next s := by
  cases i
  case csrRd => cases hi
  all_goals
    simp only [exec, execNop, execPassBegin, execPassEnd, execPassAbort, execOutPop, execCurW, execCurH,
      execSelect, execPtAddr, execPtWr, execPtRd, execPtInit, execEncBit, execQtWr, execBlkWr, execBlkClr,
      execEncBlock, command_dropped hs]

theorem illegalWord_dropped (hs : s.state = .fault) : illegalWord w s = s := if_pos hs

theorem step_word_dropped (hs : s.state = .fault) (h : s.inputs = .word w :: rest)
    (hw : w.extractLsb' 8 24 ≠ 0x100000) : step s = .next { s with inputs := rest } := by
  cases hd : decode w with
  | none =>
    calc step s = .next (illegalWord w { s with inputs := rest }) := step_illegalWord h hd
      _ = .next { s with inputs := rest } := congrArg _ (illegalWord_dropped hs)
  | some i =>
    calc step s = exec i { s with inputs := rest } := by rw [step_cons h, meetEvent, hd]
      _ = .next { s with inputs := rest } := exec_dropped hs (isCsrRd_of_decode hd hw)

/-- CSR_RD has no state test, so this holds in every state. -/
theorem step_csrRd (h : s.inputs = .word w :: rest) (hw : w.extractLsb' 8 24 = 0x100000) :
    step s = .next { s with inputs := rest, respq := s.respq ++ [csrRead s (field w 0 8)] } := by
  rw [step_cons h, meetEvent, decode_csrRd hw]
  rfl

theorem csrRead_field_toNat (s : State) (w : Word) :
    (csrRead s (field w 0 8)).toNat = csrValue s (w.toNat % 2 ^ 8) := by
  rw [csrRead_toNat, field_toNat, pow_zero, Nat.div_one]

/-- An event other than reset writes nothing but RESPQ in FAULT. -/
theorem step_fault_writes_respq_only (hs : s.state = .fault) (h : s.inputs = e :: rest) (he : e ≠ .reset) :
    ∃ q, step s = .next { s with inputs := rest, respq := q } := by
  cases e with
  | word w =>
    by_cases hw : w.extractLsb' 8 24 = 0x100000
    · exact ⟨_, step_csrRd h hw⟩
    · exact ⟨s.respq, step_word_dropped hs h hw⟩
  | reset => exact absurd rfl he
  | takeResponse => exact ⟨s.respq.tail, step_cons h⟩

/-- Settles O9, event by event: reset by its own column of R44, every other one by what it writes. -/
theorem faultStateOnlyAnswersCsrRd : Obligations.FaultStateOnlyAnswersCsrRd := by
  intro s rest hs
  refine ⟨fun w h => ⟨step_word_dropped hs h, fun hw => ⟨_, csrRead_field_toNat s w, step_csrRd h hw⟩⟩,
    fun h => ⟨_, step_reset h, rfl⟩, fun t ht hreset ⟨e, h⟩ => ?_⟩
  have he : e ≠ .reset := fun he => hreset (he ▸ h)
  obtain ⟨q, hstep⟩ := step_fault_writes_respq_only hs h he
  cases hstep.symm.trans ht
  exact ⟨hs, rfl, rfl⟩

end Sys2Proof.Statements
end

section
/-! The two directions of the encoding (30_encoding.md R82 to R87): the word of a command holds its operands at their
bit places and zeros elsewhere below its opcode, and a word is determined by opcode, reserved bits and operands. -/

namespace Sys2Proof.Statements

open Sys2Proof.Machine

variable {w : Word} {i : Instr}

/-- The operands of a command at their bit places. -/
def operandSum (i : Instr) : Nat := ((operandFields i).map fun f => 2 ^ f.1 * f.2.2).sum

theorem operandBits_toNat (i : Instr) : i.operandBits.toNat = operandSum i := by
  cases i <;>
    simp only [Instr.operandBits, toNat_concat, operandSum, operandFields, BitVec.toNat_ofBool,
      List.map_cons, List.map_nil, List.sum_cons, List.sum_nil, BitVec.toNat_ofNat, BitVec.ofNat_eq_ofNat] <;>
    omega

theorem encode_toNat (i : Instr) : (encode i).toNat = operandSum i + 2 ^ 26 * i.opcode.toNat :=
  (toNat_concat i.opcode i.operandBits).trans (by rw [operandBits_toNat])

theorem reserved_encode (i : Instr) : field (encode i) (reservedBits i).1 (reservedBits i).2 = 0 := by
  refine BitVec.eq_of_toNat_eq ?_
  rw [field_toNat, encode_toNat]
  cases i
  case passBegin flag | ptInit flag | encBit flag =>
    cases flag <;> simp [reservedBits, operandSum, operandFields, Instr.opcode] <;> omega
  all_goals simp [reservedBits, operandSum, operandFields, Instr.opcode] <;> omega

/-- A word holds the operands of a command just when its fields have their values. -/
theorem rereadOperands_eq_iff : rereadOperands w i = i ↔
    ∀ f ∈ operandFields i, w.toNat / 2 ^ f.1 % 2 ^ f.2.1 = f.2.2 := by
  have bit {b : Bool} : w[0] = b ↔ w.toNat % 2 = b.toNat := by
    rw [← bit_toNat]; cases w[0] <;> cases b <;> simp
  cases i <;> simp [rereadOperands, operandFields, ← BitVec.toNat_inj, field_toNat, bit]

theorem operandFields_encode (i : Instr) :
    ∀ f ∈ operandFields i, (encode i).toNat / 2 ^ f.1 % 2 ^ f.2.1 = f.2.2 := by
  rw [encode_toNat]
  cases i
  case passBegin flag | ptInit flag | encBit flag =>
    cases flag <;> simp [operandSum, operandFields, Instr.opcode] <;> omega
  all_goals simp [operandSum, operandFields, Instr.opcode] <;> omega

/-- Settles O1: the opcode selects the command, its reserved bits are zero and its operands are read back. -/
theorem decodeOfEncodeIsTheCommand : Obligations.DecodeOfEncodeIsTheCommand := by
  intro i
  rw [decode_of_opcode (field_encode_opcode i), whenZero_of_zero (reserved_encode i),
    rereadOperands_eq_iff.mpr (operandFields_encode i)]

/-- Settles O2: opcode, reserved bits and operands are all the bits of a word. -/
theorem encodeOfDecodeIsTheWord : Obligations.EncodeOfDecodeIsTheWord := by
  intro w i h
  have hw : w.toNat < 2 ^ 32 := w.isLt
  have hop : w.toNat / 2 ^ 26 % 2 ^ 6 = i.opcode.toNat := by rw [← opcode_of_decode h, field_toNat]
  have hzero : w.toNat / 2 ^ (reservedBits i).1 % 2 ^ (reservedBits i).2 = 0 := by
    rw [← field_toNat, reserved_zero_of_decode h]; simp
  have hfields := rereadOperands_eq_iff.mp (rereadOperands_of_decode h)
  refine BitVec.eq_of_toNat_eq ?_
  rw [encode_toNat]
  cases i <;> simp [operandSum, operandFields, reservedBits, Instr.opcode] at * <;> omega

/-- Settles O4, word by word. -/
theorem specWordsDecode : Obligations.SpecWordsDecode := by
  unfold Obligations.SpecWordsDecode
  decide

end Sys2Proof.Statements
end

section
/-! Causality and losslessness of the serializer (43_token_serializer.md R178, R179). The decisions of two blocks are
read side by side: they go on alike until one decision parts them, and a decoder that has seen no difference knows
the same values in both. The decoder is put together in the order of the phases, each one using what the ones before
it gave. -/

namespace Sys2Proof.Statements

open Sys2Proof.Machine

/-! Reading two lists of decisions side by side -/

/-- Two lists of decisions have the same contexts up to and including the first decision in which they differ; if they
differ in none, they end together and `K` is known. -/
inductive Reads (K : Prop) : List Token → List Token → Prop
  | done (known : K) : Reads K [] []
  | same (t : Token) {l l' : List Token} (rest : Reads K l l') : Reads K (t :: l) (t :: l')
  | part {t t' : Token} (l l' : List Token) (ctx : context t = context t') (bit : t.bit ≠ t'.bit) :
      Reads K (t :: l) (t' :: l')

section

variable {K M : Prop} {l l' m m' : List Token}

/-- What is read first can be used for reading the rest. -/
theorem Reads.append (h : Reads K l l') (next : K → Reads M m m') : Reads M (l ++ m) (l' ++ m') := by
  induction h with
  | done known => exact next known
  | same t _ ih => exact .same t ih
  | part _ _ ctx bit => exact .part _ _ ctx bit

theorem Reads.mono (h : Reads K l l') (hK : K → M) : Reads M l l' := by
  simpa using h.append (m := []) (m' := []) fun known => .done (hK known)

theorem Reads.symm (h : Reads K l l') : Reads K l' l := by
  induction h with
  | done known => exact .done known
  | same t _ ih => exact .same t ih
  | part _ _ ctx bit => exact .part _ _ ctx.symm bit.symm

theorem Reads.refl (known : K) (l : List Token) : Reads K l l := by
  induction l with
  | nil => exact .done known
  | cons t _ ih => exact .same t ih

/-- The decoder knows the context of a decision when it has read the ones before it. -/
theorem Reads.causal (h : Reads K l l') (n : Nat) (bits : (l.take n).map Token.bit = (l'.take n).map Token.bit) :
    (l.take (n + 1)).map context = (l'.take (n + 1)).map context := by
  induction h generalizing n with
  | done => rfl
  | same t _ ih =>
    cases n with
    | zero => simp
    | succ n => simpa using ih n (by simpa using bits)
  | part _ _ ctx bit =>
    cases n with
    | zero => simpa using ctx
    | succ n => exact absurd (List.cons.inj bits).1 bit

theorem Reads.known (h : Reads K l l') (bits : l.map Token.bit = l'.map Token.bit) : K := by
  induction h with
  | done known => exact known
  | same t _ ih => exact ih (List.cons.inj bits).2
  | part _ _ _ bit => exact absurd (List.cons.inj bits).1 bit

end

/-- One decision. -/
theorem reads_singleton {t t' : Token} (ctx : context t = context t') : Reads (t.bit = t'.bit) [t] [t'] := by
  by_cases h : t.bit = t'.bit
  · obtain rfl : t = t' := by cases t; cases t'; simp_all [context]
    exact .refl rfl _
  · exact .part _ _ ctx h

/-- The decisions of the elements of a list, each read with what the elements before it gave. -/
theorem reads_flatMap {α : Type} {K : α → Prop} {g g' : α → List Token} {xs : List α}
    (h : ∀ pre x post, xs = pre ++ x :: post → (∀ y ∈ pre, K y) → Reads (K x) (g x) (g' x)) :
    Reads (∀ x ∈ xs, K x) (xs.flatMap g) (xs.flatMap g') := by
  induction xs using List.reverseRecOn with
  | nil => exact .done (by simp)
  | append_singleton xs x ih =>
    rw [List.flatMap_append, List.flatMap_append, List.flatMap_singleton, List.flatMap_singleton]
    refine (ih fun pre y post hxs => h pre y (post ++ [x]) (by simp [hxs])).append fun known => ?_
    refine (h xs x [] rfl known).mono fun hx y hy => ?_
    rcases List.mem_append.mp hy with hy | hy
    · exact known y hy
    · exact List.mem_singleton.mp hy ▸ hx

theorem reads_map {α : Type} {K : α → Prop} {f f' : α → Token} {xs : List α}
    (ctx : ∀ pre x post, xs = pre ++ x :: post → (∀ y ∈ pre, K y) → context (f x) = context (f' x))
    (bit : ∀ x ∈ xs, (f x).bit = (f' x).bit → K x) :
    Reads (∀ x ∈ xs, K x) (xs.map f) (xs.map f') := by
  rw [List.map_eq_flatMap, List.map_eq_flatMap]
  exact reads_flatMap fun pre x post hxs known =>
    (reads_singleton (ctx pre x post hxs known)).mono (bit x (by simp [hxs]))

/-! Numbers: a run of ones, the bits below the top one, the sign -/

section

variable {k : TokenClass} {p b : Nat}

/-- The shorter run is closed by a zero where the longer one goes on. -/
theorem reads_unary_of_lt {K : Prop} {n n' : Nat} (h : n < n') (closed : Bool) :
    Reads K (unary k p b n true) (unary k p b n' closed) := by
  obtain ⟨j, rfl⟩ := Nat.exists_eq_add_of_lt h
  unfold unary
  rw [Nat.add_assoc, List.range_add, Nat.add_comm j 1, List.range_add, List.map_append, List.map_append,
    List.map_append, List.append_assoc, List.append_assoc]
  exact (Reads.refl trivial _).append fun _ => .part _ _ rfl (by simp)

/-- A run that needs no closing zero at its greatest length `cap` (R165). -/
theorem reads_unary {cap n n' : Nat} (hn : n ≤ cap) (hn' : n' ≤ cap) :
    Reads (n = n') (unary k p b n (n < cap)) (unary k p b n' (n' < cap)) := by
  rcases Nat.lt_trichotomy n n' with h | rfl | h
  · rw [decide_eq_true (h.trans_le hn')]
    exact reads_unary_of_lt h _
  · exact .refl rfl _
  · rw [decide_eq_true (h.trans_le hn)]
    exact (reads_unary_of_lt h _).symm

end

/-- A number is its bit length and its bits below the top one. -/
theorem eq_of_bitlen_eq_of_residualBits {a a' : Nat} (hlen : bitlen a = bitlen a')
    (hbits : ∀ k ∈ residualBits (bitlen a), a.testBit k = a'.testBit k) : a = a' := by
  by_cases h0 : a = 0
  · rw [h0, bitlen_zero] at hlen
    rw [h0, bitlen_eq_zero.mp hlen.symm]
  have h0' : a' ≠ 0 := fun h => h0 (bitlen_eq_zero.mp (hlen.trans (bitlen_eq_zero.mpr h)))
  have top {n : Nat} (hn : n ≠ 0) : n.testBit (bitlen n - 1) = true := by
    rw [bitlen_of_pos hn, Nat.add_sub_cancel]
    exact Nat.testBit_log2 hn
  refine Nat.eq_of_testBit_eq fun k => ?_
  rcases Nat.lt_trichotomy (k + 1) (bitlen a) with h | h | h
  · exact hbits k (mem_residualBits.mpr h)
  · obtain rfl : k = bitlen a - 1 := by omega
    rw [top h0, hlen, top h0']
  · have above {n : Nat} (hn : n ≠ 0) (hk : bitlen n ≤ k) : n.testBit k = false :=
      Nat.testBit_lt_two_pow ((bitlen_bounds hn).2.trans_le (Nat.pow_le_pow_right (by decide) hk))
    rw [above h0 (by omega), above h0' (by omega)]

theorem reads_residual {g g' : Nat → Token} {a a' : Nat} (hlen : bitlen a = bitlen a')
    (ctx : ∀ k, context (g k) = context (g' k)) (bit : ∀ k, (g k).bit = a.testBit k)
    (bit' : ∀ k, (g' k).bit = a'.testBit k) :
    Reads (a = a') ((residualBits (bitlen a)).map g) ((residualBits (bitlen a')).map g') := by
  rw [← hlen]
  refine (reads_map (K := fun k => a.testBit k = a'.testBit k) (fun _ k _ _ _ => ctx k) fun k _ h => ?_).mono
    (eq_of_bitlen_eq_of_residualBits hlen)
  rw [← bit, ← bit', h]

theorem reads_sign {k : TokenClass} {p b i : Nat} {v v' : Int} (h : v.natAbs = v'.natAbs) :
    Reads (v = v') [⟨k, p, b, i, v < 0⟩] [⟨k, p, b, i, v' < 0⟩] := by
  have read :=
    reads_singleton (t := ⟨k, p, b, i, v < 0⟩) (t' := ⟨k, p, b, i, v' < 0⟩) rfl
  refine read.mono fun hsign => ?_
  have : v < 0 ↔ v' < 0 := decide_eq_decide.mp hsign
  omega

/-- The decisions of a coefficient that is known not to be zero (R175, R177). -/
theorem reads_nonzero {ke ks : TokenClass} {pe be ps bs : Nat} {g g' : Nat → Token} {v v' : Int} (hv : v ≠ 0)
    (hv' : v' ≠ 0) (hle : v.natAbs ≤ 32768) (hle' : v'.natAbs ≤ 32768)
    (ctx : ∀ k, context (g k) = context (g' k)) (bit : ∀ k, (g k).bit = v.natAbs.testBit k)
    (bit' : ∀ k, (g' k).bit = v'.natAbs.testBit k) :
    Reads (v = v')
      (unary ke pe be (expClass v - 1) (expClass v < 16) ++ (residualBits (expClass v)).map g
        ++ [⟨ks, ps, bs, 0, v < 0⟩])
      (unary ke pe be (expClass v' - 1) (expClass v' < 16) ++ (residualBits (expClass v')).map g'
        ++ [⟨ks, ps, bs, 0, v' < 0⟩]) := by
  have pos {x : Int} (hx : x ≠ 0) : 1 ≤ expClass x :=
    Nat.one_le_iff_ne_zero.mpr fun h => hx (expClass_eq_zero.mp h)
  have closed {x : Int} (hx : x ≠ 0) : decide (expClass x < 16) = decide (expClass x - 1 < 15) := by
    have := pos hx
    exact decide_eq_decide.mpr (by omega)
  have h := pos hv
  have h' := pos hv'
  have hcap := expClass_le hle
  have hcap' := expClass_le hle'
  rw [closed hv, closed hv']
  refine ((reads_unary (by omega) (by omega)).append fun hlen => ?_).append reads_sign
  exact reads_residual (by unfold expClass at *; omega) ctx bit bit'

/-! The phases -/

variable {blk blk' qt : Vector Half 64} {r c : Nat}

/-- The neighbours of which a context of a sub-grid coefficient depends: left, top and top-left. -/
def neighbours (rc : Nat × Nat) : List (Nat × Nat) :=
  [(rc.1, rc.2 - 1), (rc.1 - 1, rc.2), (rc.1 - 1, rc.2 - 1)]

theorem neighbours_take : ∀ n ∈ List.range 49, ∀ y ∈ neighbours (subgrid.getD n (0, 0)),
    inSubgrid y.1 y.2 = true → y ∈ subgrid.take n := by decide

/-- A neighbour that lies in the sub-grid comes before the coefficient in zigzag order. -/
theorem neighbours_before {pre post : List (Nat × Nat)} {x y : Nat × Nat} (h : subgrid = pre ++ x :: post)
    (hy : y ∈ neighbours x) (hin : inSubgrid y.1 y.2 = true) : y ∈ pre := by
  have hlen : pre.length < 49 := by
    rw [← subgrid_length, h]
    simp
  have hx : subgrid.getD pre.length (0, 0) = x := by simp [h]
  have hpre : subgrid.take pre.length = pre := by simp [h]
  have := neighbours_take pre.length (List.mem_range.mpr hlen) y
  rw [hx, hpre] at this
  exact this hy hin

/-- What the zero flags say of a coefficient of the sub-grid. -/
def SameZero (blk blk' : Vector Half 64) (rc : Nat × Nat) : Prop :=
  coef blk rc.1 rc.2 = 0 ↔ coef blk' rc.1 rc.2 = 0

/-- What phase 3 says of one. -/
def SameCoef (blk blk' : Vector Half 64) (rc : Nat × Nat) : Prop := coef blk rc.1 rc.2 = coef blk' rc.1 rc.2

theorem nz77_eq (h : inSubgrid r c = true → SameZero blk blk' (r, c)) : nz77 blk r c = nz77 blk' r c := by
  unfold nz77
  refine if_ctx_congr ?_ (fun _ => rfl) fun _ => rfl
  simp only [Bool.and_eq_true, bne_iff_ne, ne_eq]
  exact and_congr_right fun hin => not_congr (h hin)

theorem e77_eq (h : inSubgrid r c = true → SameCoef blk blk' (r, c)) : e77 blk r c = e77 blk' r c :=
  if_ctx_congr Iff.rfl (fun hin => congrArg expClass (h hin)) fun _ => rfl

theorem s77_eq (h : inSubgrid r c = true → SameCoef blk blk' (r, c)) : s77 blk r c = s77 blk' r c :=
  if_ctx_congr Iff.rfl (fun hin => congrArg signCode (h hin)) fun _ => rfl

theorem reads_phase1 : Reads (∀ rc ∈ subgrid, SameZero blk blk' rc) (phase1 blk) (phase1 blk') := by
  refine reads_map (fun pre x post hxs known => ?_) fun x _ h => ?_
  case refine_2 =>
    have hflag : (coef blk x.1 x.2 == 0) = (coef blk' x.1 x.2 == 0) := h
    rw [SameZero, ← beq_iff_eq, hflag, beq_iff_eq]
  have flag {r c : Nat} (hy : (r, c) ∈ neighbours x) : nz77 blk r c = nz77 blk' r c :=
    nz77_eq fun hin => known (r, c) (neighbours_before hxs hy hin)
  have hleft := flag (r := x.1) (c := x.2 - 1) (by simp [neighbours])
  have htop := flag (r := x.1 - 1) (c := x.2) (by simp [neighbours])
  have hcorner := flag (r := x.1 - 1) (c := x.2 - 1) (by simp [neighbours])
  simp only [context, zeroFlag, hleft, htop, hcorner]

/-- The decisions of a DC coefficient, by its value; see `phase2_eq`. -/
def dcDecisions (v : Int) : List Token :=
  unary .dcExp 0 0 (expClass v) (expClass v < 16)
    ++ (residualBits (expClass v)).map (fun k => ⟨.dcRes, 0, 0, k, v.natAbs.testBit k⟩)
    ++ if 1 ≤ expClass v then [⟨.dcSign, 0, 0, 0, v < 0⟩] else []

theorem phase2_eq (blk : Vector Half 64) : phase2 blk = dcDecisions (coef blk 0 0) := rfl

theorem reads_dcDecisions {v v' : Int} (hcap : expClass v ≤ 16) (hcap' : expClass v' ≤ 16) :
    Reads (v = v') (dcDecisions v) (dcDecisions v') := by
  refine Reads.append (K := v.natAbs = v'.natAbs) ((reads_unary hcap hcap').append fun hlen => ?_) fun habs => ?_
  · exact reads_residual hlen (fun _ => rfl) (fun _ => rfl) fun _ => rfl
  have hclass : expClass v = expClass v' := congrArg bitlen habs
  rw [← hclass]
  split
  · exact reads_sign habs
  · next hzero =>
    have h : expClass v = 0 := by omega
    exact .done ((expClass_eq_zero.mp h).trans (expClass_eq_zero.mp (hclass ▸ h)).symm)

theorem reads_phase2 : Reads (coef blk 0 0 = coef blk' 0 0) (phase2 blk) (phase2 blk') := by
  rw [phase2_eq, phase2_eq]
  exact reads_dcDecisions (expClass_coef_le ..) (expClass_coef_le ..)

theorem context_residual77 (b t a a' k : Nat) : context (residual77 b t a k) = context (residual77 b t a' k) := by
  unfold residual77; split <;> rfl

theorem bit_residual77 (b t a k : Nat) : (residual77 b t a k).bit = a.testBit k := by
  unfold residual77; split <;> rfl

theorem reads_interior (hzero : SameZero blk blk' (r, c))
    (hleft : inSubgrid r (c - 1) = true → SameCoef blk blk' (r, c - 1))
    (htop : inSubgrid (r - 1) c = true → SameCoef blk blk' (r - 1, c)) :
    Reads (SameCoef blk blk' (r, c)) (Machine.interior blk qt r c) (Machine.interior blk' qt r c) := by
  have hz : coef blk r c = 0 ↔ coef blk' r c = 0 := hzero
  unfold Machine.interior SameCoef
  rw [e77_eq hleft, e77_eq htop, s77_eq hleft, s77_eq htop]
  by_cases h : coef blk r c = 0
  · rw [if_pos h, if_pos (hz.mp h)]
    exact .done (h.trans (hz.mp h).symm)
  · rw [if_neg h, if_neg fun h' => h (hz.mpr h')]
    exact reads_nonzero h (fun h' => h (hz.mpr h')) (coef_natAbs_le ..) (coef_natAbs_le ..)
      (fun _ => context_residual77 ..) (fun _ => bit_residual77 ..) fun _ => bit_residual77 ..

theorem reads_phase3 (hzero : ∀ rc ∈ subgrid, SameZero blk blk' rc) :
    Reads (∀ rc ∈ subgrid, SameCoef blk blk' rc) (phase3 blk qt) (phase3 blk' qt) := by
  refine reads_flatMap fun pre x post hxs known => ?_
  exact reads_interior (hzero x (by simp [hxs]))
    (fun hin => known _ (neighbours_before hxs (by simp [neighbours]) hin))
    fun hin => known _ (neighbours_before hxs (by simp [neighbours]) hin)

theorem reads_stripNonzero {v v' : Int} {pe prevE prevS : Nat} (hv : v ≠ 0) (hv' : v' ≠ 0)
    (hle : v.natAbs ≤ 32768) (hle' : v'.natAbs ≤ 32768) :
    Reads (v = v') (stripNonzero v pe prevE prevS) (stripNonzero v' pe prevE prevS) :=
  reads_nonzero hv hv' hle hle' (fun _ => rfl) (fun _ => rfl) fun _ => rfl

/-- The rest of a strip, from a position on, where the strips agree so far. -/
theorem reads_strip {l l' : List Int} (hlen : l.length = l'.length) (hl : ∀ v ∈ l, v.natAbs ≤ 32768)
    (hl' : ∀ v ∈ l', v.natAbs ≤ 32768) (pe run prevE prevS : Nat) :
    Reads (l = l') (strip l pe run prevE prevS) (strip l' pe run prevE prevS) := by
  induction l generalizing l' pe run prevE prevS with
  | nil =>
    obtain rfl : l' = [] := List.length_eq_zero_iff.mp hlen.symm
    exact .done rfl
  | cons v rest ih =>
    cases l' with
    | nil => cases hlen
    | cons v' rest' =>
      have next (pe run prevE prevS : Nat) := ih (Nat.succ.inj hlen) (fun x hx => hl x (by simp [hx]))
        (fun x hx => hl' x (by simp [hx])) pe run prevE prevS
      unfold strip
      by_cases h : v = 0 <;> by_cases h' : v' = 0 <;> simp only [h, h', if_true, if_false]
      · exact .same _ ((next ..).mono fun hrest => by rw [hrest])
      · exact .part _ _ rfl (by simp)
      · exact .part _ _ rfl (by simp)
      · refine .same _ ((reads_stripNonzero h h' (hl v (by simp)) (hl' v' (by simp))).append fun hv => ?_)
        subst hv
        exact (next ..).mono fun hrest => by rw [hrest]

theorem natAbs_le_of_mem_map {f : Nat → Int} {v : Int} {l : List Nat} (h : ∀ i, (f i).natAbs ≤ 32768)
    (hv : v ∈ l.map f) : v.natAbs ≤ 32768 := by
  obtain ⟨i, _, rfl⟩ := List.mem_map.mp hv
  exact h i

theorem natAbs_le_of_mem_rowStrip (blk : Vector Half 64) : ∀ v ∈ rowStrip blk, v.natAbs ≤ 32768 := fun _ =>
  natAbs_le_of_mem_map fun i => coef_natAbs_le blk 0 i

theorem natAbs_le_of_mem_colStrip (blk : Vector Half 64) : ∀ v ∈ colStrip blk, v.natAbs ≤ 32768 := fun _ =>
  natAbs_le_of_mem_map fun i => coef_natAbs_le blk i 0

theorem reads_phase4 :
    Reads (rowStrip blk = rowStrip blk' ∧ colStrip blk = colStrip blk') (phase4 blk) (phase4 blk') :=
  have row : Reads (rowStrip blk = rowStrip blk') _ _ :=
    reads_strip (by simp [rowStrip]) (natAbs_le_of_mem_rowStrip blk) (natAbs_le_of_mem_rowStrip blk') 0 0 0 0
  have col : Reads (colStrip blk = colStrip blk') _ _ :=
    reads_strip (by simp [colStrip]) (natAbs_le_of_mem_colStrip blk) (natAbs_le_of_mem_colStrip blk') 7 0 0 0
  row.append fun hrow => col.mono fun hcol => ⟨hrow, hcol⟩

/-! Blocks -/

/-- Every zigzag index is that of the DC coefficient, of the sub-grid or of a strip (R162). -/
theorem zigzag_cases (z : ZIndex) : z = zigzag 0 0 ∨ (∃ rc ∈ subgrid, z = zigzag rc.1 rc.2) ∨
    (∃ i ∈ [1, 2, 3, 4, 5, 6, 7], z = zigzag 0 i) ∨ ∃ i ∈ [1, 2, 3, 4, 5, 6, 7], z = zigzag i 0 := by
  revert z
  decide

theorem block_ext (hdc : coef blk 0 0 = coef blk' 0 0) (hsub : ∀ rc ∈ subgrid, SameCoef blk blk' rc)
    (hrow : rowStrip blk = rowStrip blk') (hcol : colStrip blk = colStrip blk') : blk = blk' := by
  have elem {z : ZIndex} (h : sext16 blk[z] = sext16 blk'[z]) : blk[z] = blk'[z] := BitVec.eq_of_toInt_eq h
  refine Vector.ext fun n hn => ?_
  refine elem (z := ⟨n, hn⟩) ?_
  rcases zigzag_cases ⟨n, hn⟩ with h | ⟨rc, hrc, h⟩ | ⟨i, hi, h⟩ | ⟨i, hi, h⟩ <;> rw [h]
  · exact hdc
  · exact hsub rc hrc
  · exact List.map_inj_left.mp hrow i hi
  · exact List.map_inj_left.mp hcol i hi

/-- A decoder that knows the steps reads the block from its decisions. -/
theorem reads_tokens : Reads (blk = blk') (tokens blk qt) (tokens blk' qt) := by
  have upToDC := reads_phase1 (blk := blk) (blk' := blk').append (M := (∀ rc ∈ subgrid, SameZero blk blk' rc) ∧
    coef blk 0 0 = coef blk' 0 0) fun hzero => reads_phase2.mono fun hdc => ⟨hzero, hdc⟩
  have upToInterior := upToDC.append (M := coef blk 0 0 = coef blk' 0 0 ∧ ∀ rc ∈ subgrid, SameCoef blk blk' rc)
    fun ⟨hzero, hdc⟩ => (reads_phase3 (qt := qt) hzero).mono fun hsub => ⟨hdc, hsub⟩
  exact upToInterior.append fun ⟨hdc, hsub⟩ => reads_phase4.mono fun ⟨hrow, hcol⟩ => block_ext hdc hsub hrow hcol

/-- Settles O51: under the same steps the decisions can be read side by side. -/
theorem contextsAreCausal : Obligations.ContextsAreCausal :=
  fun _ _ _ n => reads_tokens.causal n

/-- The steps choose the cells of the residual bits, not the bits (R175). -/
theorem bits_interior (blk qt qt' : Vector Half 64) (r c : Nat) :
    (Machine.interior blk qt r c).map Token.bit = (Machine.interior blk qt' r c).map Token.bit := by
  unfold Machine.interior
  dsimp only
  split
  · rfl
  · simp only [List.map_append, List.map_map, Function.comp_def, bit_residual77]

theorem bits_tokens (blk qt qt' : Vector Half 64) :
    (tokens blk qt).map Token.bit = (tokens blk qt').map Token.bit := by
  have hphase3 : (phase3 blk qt).map Token.bit = (phase3 blk qt').map Token.bit := by
    simp only [phase3, List.map_flatMap, bits_interior blk qt qt']
  simp only [tokens, List.map_append, hphase3]

/-- Settles O52: whatever the second steps, the bits are those under the first. -/
theorem decisionsDetermineTheBlock : Obligations.DecisionsDetermineTheBlock := by
  intro blk blk' qt qt' h
  exact reads_tokens.known (h.trans (bits_tokens blk' qt' qt))

end Sys2Proof.Statements
end

section
/-! What each command does where it is legal and its operands are in range, one equation a command: the tests that
every command makes first (60_exceptions.md R225) are passed, and its own pseudocode is left. -/

namespace Sys2Proof.Statements

open Sys2Proof.Machine

variable {s : State} {ch : BitVec 2} {c : Chan} {pos : BitVec 3} {cell : BitVec 13} {r : CellRef}

theorem Outside.ne_fault (h : Outside s) : s.state ≠ .fault := by
  rcases h with h | h <;> simp [h]

theorem ne_fault_of_active (h : s.state = .active) : s.state ≠ .fault := by simp [h]

theorem finished_iff : Finished s c ↔ exhausted s c = true := exhausted_iff.symm

theorem not_finished_iff : ¬ Finished s c ↔ exhausted s c = false := by rw [finished_iff, Bool.not_eq_true]

section

variable {legal : PassState → Bool} {w : Word} {body : State → Outcome}

theorem command_anyState (h : s.state ≠ .fault) : command anyState w body s = body s :=
  command_runs h (anyState_of_ne_fault h)

theorem command_outsidePass (h : Outside s) : command outsidePass w body s = body s :=
  command_runs h.ne_fault (outsidePass_iff.mpr h)

theorem command_insidePass (h : s.state = .active) : command insidePass w body s = body s :=
  command_runs (ne_fault_of_active h) (insidePass_iff.mpr h)

end

/-! Pass control -/

theorem exec_nop (h : s.state ≠ .fault) : exec .nop s = .next s := command_anyState h

theorem exec_passAbort (h : s.state ≠ .fault) : exec .passAbort s = .next { clearPass s with state := .idle } := by
  rw [exec, execPassAbort, command_anyState h]

theorem exec_csrRd (addr : BitVec 8) : exec (.csrRd addr) s = .next (resp (csrRead s addr) s) := rfl

theorem exec_outPop_empty (h : s.state ≠ .fault) (hq : s.sinkq = []) :
    exec .outPop s = .next (resp emptyPopResponse s) := by
  rw [exec, execOutPop, command_anyState h, hq]

theorem exec_outPop_symbol {x : Symbol} {rest : List Symbol} (h : s.state ≠ .fault) (hq : s.sinkq = x :: rest) :
    exec .outPop s = .next (resp (popResponse x) { s with sinkq := rest }) := by
  rw [exec, execOutPop, command_anyState h, hq]

section

variable {d : Coder}

theorem all_exhausted (hx : ∀ c, Finished s c) :
    (exhausted s 0 && exhausted s 1 && exhausted s 2) = true := by
  rw [finished_iff.mp (hx 0), finished_iff.mp (hx 1), finished_iff.mp (hx 2)]
  rfl

/-- PASS_END of a complete pass (44_pass_control.md R203). -/
theorem exec_passEnd (h : s.state = .active) (hx : ∀ c, Finished s c)
    (hd : finish s.params s.coder = .ok d) :
    exec .passEnd s = .next { sinkAll (frame s.params d.out) (s.withCoder d) with state := .done } := by
  rw [exec, execPassEnd, command_insidePass h, if_pos (all_exhausted hx), hd]

theorem exec_passEnd_overflow (h : s.state = .active) (hx : ∀ c, Finished s c)
    (hd : finish s.params s.coder = .error d) :
    exec .passEnd s = .next (raiseFault .outOverflow (encode .passEnd) (s.withCoder d)) := by
  rw [exec, execPassEnd, command_insidePass h, if_pos (all_exhausted hx), hd]

end

theorem exec_passEnd_unfinished (h : s.state = .active) (hx : ¬ Finished s c) :
    exec .passEnd s = .next (raiseFault .blockCountMismatch (encode .passEnd) s) := by
  have hx' : ¬ (exhausted s 0 && exhausted s 1 && exhausted s 2) = true := by
    have hc := not_finished_iff.mp hx
    intro hall
    simp only [Bool.and_eq_true] at hall
    obtain ⟨⟨h0, h1⟩, h2⟩ := hall
    match c with
    | 0 => exact absurd (h0.symm.trans hc) (by decide)
    | 1 => exact absurd (h1.symm.trans hc) (by decide)
    | 2 => exact absurd (h2.symm.trans hc) (by decide)
  rw [exec, execPassEnd, command_insidePass h, if_neg hx']

/-! Selector -/

theorem exec_curW (h : Outside s) (hc : ch.toNat = c.val) (imm : BitVec 16) :
    exec (.curW ch imm) s = .next (homeCursor c { s with width := s.width.set c imm }) :=
  (command_outsidePass h).trans (withChannel_of_eq hc)

theorem exec_curH (h : Outside s) (hc : ch.toNat = c.val) (imm : BitVec 16) :
    exec (.curH ch imm) s = .next (homeCursor c { s with nrows := s.nrows.set c imm }) :=
  (command_outsidePass h).trans (withChannel_of_eq hc)

theorem exec_select (h : s.state ≠ .fault) (hc : ch.toNat = c.val) : exec (.select ch) s =
    .next (resp (if exhausted s c then exhaustedResponse else selectResponse (nextPosition s c)) s) :=
  (command_anyState h).trans (withChannel_of_eq hc)

/-! Table manager -/

theorem exec_ptAddr (h : s.state ≠ .fault) (hr : cellRef? ch pos cell = some r) :
    exec (.ptAddr ch pos cell) s = .next { s with ptr := r } :=
  (command_anyState h).trans (withCell_of_eq hr)

theorem exec_ptWr (h : Outside s) (imm : BitVec 11) : exec (.ptWr imm) s =
    .next { s with pt := Memory.write s.pt s.ptr (clamp imm pMin pMax), ptr := s.ptr.stepCell } := by
  rw [exec, execPtWr, command_outsidePass h]

theorem exec_ptRd (h : s.state ≠ .fault) : exec .ptRd s =
    .next { resp (zext32 (Memory.read s.pt s.ptr)) s with ptr := s.ptr.stepCell } := by
  rw [exec, execPtRd, command_anyState h]

theorem exec_ptInit (h : Outside s) (all : Bool) : exec (.ptInit all) s =
    .next { s with pt := if all then Memory.initAll else Memory.initTable s.pt s.ptr.ch s.ptr.pos } := by
  rw [exec, execPtInit, command_outsidePass h]

/-! Coder and serializer -/

theorem exec_encBit (h : s.state = .active) (hr : cellRef? ch pos cell = some r) (bit : Bool) :
    exec (.encBit ch pos cell bit) s =
      afterCoding (encode (.encBit ch pos cell bit)) s id (encodeDecision s.params r bit s.encoder) :=
  (command_insidePass h).trans (withCell_of_eq hr)

theorem exec_qtWr (h : Outside s) (hc : ch.toNat = c.val) (idx : BitVec 6) (imm : BitVec 16) :
    exec (.qtWr ch idx imm) s = .next { s with qt := s.qt.set c (s.qt[c].set (zigzagIndex idx) imm) } :=
  (command_outsidePass h).trans (withChannel_of_eq hc)

theorem exec_blkWr (h : s.state ≠ .fault) (idx : BitVec 6) (imm : BitVec 16) :
    exec (.blkWr idx imm) s = .next { s with blk := s.blk.set (zigzagIndex idx) imm } := by
  rw [exec, execBlkWr, command_anyState h]

theorem exec_blkClr (h : s.state ≠ .fault) : exec .blkClr s = .next { s with blk := .replicate 64 0 } := by
  rw [exec, execBlkClr, command_anyState h]

theorem exec_encBlock (h : s.state = .active) (hc : ch.toNat = c.val) (hx : ¬ Finished s c) :
    exec (.encBlock ch) s = afterCoding (encode (.encBlock ch)) (recordBlock c s) (advance c)
      (serialize c (nextPosition s c) s) := by
  rw [exec, execEncBlock, command_insidePass h, withChannel_of_eq hc, not_finished_iff.mp hx]
  rfl

theorem exec_encBlock_finished (h : s.state = .active) (hc : ch.toNat = c.val) (hx : Finished s c) :
    exec (.encBlock ch) s = .next (raiseFault .cursorExhausted (encode (.encBlock ch)) s) := by
  rw [exec, execEncBlock, command_insidePass h, withChannel_of_eq hc, finished_iff.mp hx]
  rfl

end Sys2Proof.Statements
end

section
/-! One step and one command at a time: NOP, the ports, the status registers, the frame's symbols, the buffers and
the table pointer. -/

namespace Sys2Proof.Statements

open Sys2Proof.Machine

/-- Settles O5. -/
theorem stepRunsTheDecodedCommand : Obligations.StepRunsTheDecodedCommand := by
  intro s w rest i h hd
  rw [step_cons h, meetEvent, hd]

/-- Settles O10. -/
theorem silentHostChangesNothing : Obligations.SilentHostChangesNothing := fun _ => step_nil

/-- Settles O17. -/
theorem nopChangesNothing : Obligations.NopChangesNothing := fun _ => exec_nop

/-- Settles O20. -/
theorem passAbortDiscardsThePass : Obligations.PassAbortDiscardsThePass := fun _ h =>
  ⟨_, exec_passAbort h, rfl, cleared_of_start rfl rfl rfl rfl rfl, rfl⟩

/-- Settles O21. -/
theorem csrRdReadsTheMap : Obligations.CsrRdReadsTheMap := fun s addr =>
  ⟨csrRead s addr, csrRead_toNat s addr, exec_csrRd addr⟩

/-- The data byte stands below VALID (44_pass_control.md R207). -/
theorem popResponse_byte_toNat (b : Byte) : (popResponse (.byte b)).toNat = 0x200 + b.toNat := by
  have hb := b.isLt
  have h : (zext32 b).toNat = b.toNat := zext32_toNat b (by decide)
  rw [popResponse, BitVec.toNat_or, h]
  exact (Nat.two_pow_add_eq_or_of_lt (i := 9) (by omega) 1).symm

/-- Settles O22. -/
theorem outPopTakesOneSymbol : Obligations.OutPopTakesOneSymbol := fun _ h =>
  ⟨exec_outPop_empty h, fun _ hq => exec_outPop_symbol h hq,
    fun b _ hq => ⟨_, popResponse_byte_toNat b, exec_outPop_symbol h hq⟩⟩

/-- Settles O29. -/
theorem ptAddrSetsThePointer : Obligations.PtAddrSetsThePointer := fun _ _ _ _ _ h hch hpos hcell =>
  exec_ptAddr h (cellRef?_some.mpr ⟨hch, hpos, hcell⟩)

/-- Settles O31. -/
theorem ptRdReadsOneCell : Obligations.PtRdReadsOneCell := fun _ h =>
  ⟨_, _, exec_ptRd h, rfl, zext32_toNat _ (by decide), rfl, rfl, rfl⟩

/-- Settles O44. -/
theorem qtWrWritesOneStep : Obligations.QtWrWritesOneStep := by
  intro s ch c idx imm h hc
  refine ⟨_, exec_qtWr h hc idx imm, rfl, fun d z => ?_⟩
  dsimp only
  rw [chan_set]
  by_cases hd : d = c
  · subst hd
    rw [if_pos rfl, elem_set]
    simp [zigzagIndex, Fin.ext_iff]
  · simp [hd]

/-- Settles O45. -/
theorem blockBufferCommands : Obligations.BlockBufferCommands := by
  intro s idx imm h
  refine ⟨⟨_, exec_blkWr h idx imm, rfl, fun z => ?_⟩, ⟨_, exec_blkClr h, rfl, fun z => by simp⟩⟩
  dsimp only
  rw [elem_set]
  simp [zigzagIndex, Fin.ext_iff]

end Sys2Proof.Statements
end

section
/-! Faults (60_exceptions.md R221 to R225): the order of the tests says which fault a command raises, and `exec_cases`
what it has written then. -/

namespace Sys2Proof.Statements

open Sys2Proof.Machine

variable {i : Instr} {s t : State}

/-! The state test (R225 test 2) -/

theorem outside_of_ne_active (hs : s.state ≠ .fault) (hl : (s.state != .active) = true) : Outside s := by
  unfold Outside
  cases hst : s.state <;> simp_all

theorem outsidePass_eq_false (hl : (s.state != .active) = false) : outsidePass s.state = false := by
  have h : s.state = .active := by simpa using hl
  rw [h]
  rfl

theorem insidePass_eq_false (hl : (s.state == .active) = false) : insidePass s.state = false := by
  rw [← Bool.not_eq_true, insidePass_iff]
  simpa using hl

/-- Where the legality table of 44_pass_control.md R201 says IS, the state test fails. -/
theorem exec_illegalState (hs : s.state ≠ .fault) (hl : legalIn i s.state = false) :
    exec i s = .next (raiseFault .illegalState (encode i) s) := by
  cases i <;> simp only [exec, execPassBegin, execPassEnd, execCurW, execCurH, execPtWr, execPtInit, execEncBit,
    execQtWr, execEncBlock]
  case passBegin | curW | curH | ptWr | ptInit | qtWr => exact command_illegal hs (outsidePass_eq_false hl)
  case passEnd | encBit | encBlock => exact command_illegal hs (insidePass_eq_false hl)
  all_goals cases hl

/-! The operand test (R225 test 3) -/

theorem withChannel_outOfRange {ch : BitVec 2} {w : Word} {body : Chan → State → Outcome}
    (h : channelInRange ch = false) : withChannel ch w body s = .next (raiseFault .badOperand w s) := by
  have hn : channel? ch = none := by rw [← Option.not_isSome_iff_eq_none, channel?_isSome, h]; decide
  rw [withChannel, hn]

theorem withCell_outOfRange {ch : BitVec 2} {pos : BitVec 3} {cell : BitVec 13} {w : Word}
    {body : CellRef → State → Outcome}
    (h : (channelInRange ch && positionInRange pos && cellInRange cell) = false) :
    withCell ch pos cell w body s = .next (raiseFault .badOperand w s) := by
  have hn : cellRef? ch pos cell = none := by rw [← Option.not_isSome_iff_eq_none, cellRef?_isSome, h]; decide
  rw [withCell, hn]

theorem exists_chan {ch : BitVec 2} (h : channelInRange ch = true) : ∃ c : Chan, ch.toNat = c.val := by
  obtain ⟨c, hc⟩ := Option.isSome_iff_exists.mp ((channel?_isSome ch).trans h)
  exact ⟨c, channel?_some.mp hc⟩

theorem exists_cellRef {ch : BitVec 2} {pos : BitVec 3} {cell : BitVec 13}
    (h : (channelInRange ch && positionInRange pos && cellInRange cell) = true) :
    ∃ r, cellRef? ch pos cell = some r :=
  Option.isSome_iff_exists.mp ((cellRef?_isSome ch pos cell).trans h)

theorem exec_badOperand (hs : s.state ≠ .fault) (hl : legalIn i s.state = true) (hw : i.wellFormed = false) :
    exec i s = .next (raiseFault .badOperand (encode i) s) := by
  cases i
  case curW | curH | qtWr =>
    exact (command_outsidePass (outside_of_ne_active hs hl)).trans (withChannel_outOfRange hw)
  case select => exact (command_anyState hs).trans (withChannel_outOfRange hw)
  case encBlock => exact (command_insidePass (beq_iff_eq.mp hl)).trans (withChannel_outOfRange hw)
  case ptAddr => exact (command_anyState hs).trans (withCell_outOfRange hw)
  case encBit => exact (command_insidePass (beq_iff_eq.mp hl)).trans (withCell_outOfRange hw)
  all_goals cases hw

/-! Commands that pass both tests -/

/-- The faults that a command can still raise behind the two tests. -/
def laterFaults : List FaultCode := [.cursorExhausted, .blockCountMismatch, .outOverflow]

theorem afterCoding_fcode {w : Word} {u : State} {done : State → State} {c : Coded Encoder}
    (h : afterCoding w u done c = .next t) (hdone : ∀ v, (done v).fcode = v.fcode) :
    t.fcode = u.fcode ∨ t.fcode ∈ laterFaults := by
  rcases afterCoding_cases h with ⟨e, _, h⟩ | ⟨e, _, h⟩ | ⟨_, h⟩ <;> cases h
  · exact .inl (hdone _)
  · exact .inr (by simp [laterFaults])

theorem fcode_of_legal (hs : s.state ≠ .fault) (hl : legalIn i s.state = true) (hw : i.wellFormed = true)
    (h : exec i s = .next t) : t.fcode = s.fcode ∨ t.fcode ∈ laterFaults := by
  cases i
  case nop => rw [exec_nop hs] at h; cases h; exact .inl rfl
  case passBegin => rw [exec_passBegin _ (outside_of_ne_active hs hl)] at h; cases h; exact .inl rfl
  case passEnd =>
    have ha : s.state = .active := beq_iff_eq.mp hl
    by_cases hx : ∀ c, Finished s c
    · cases hd : finish s.params s.coder with
      | ok => rw [exec_passEnd ha hx hd] at h; cases h; exact .inl rfl
      | error => rw [exec_passEnd_overflow ha hx hd] at h; cases h; exact .inr (by simp [laterFaults])
    · obtain ⟨c, hc⟩ := not_forall.mp hx
      rw [exec_passEnd_unfinished ha hc] at h; cases h; exact .inr (by simp [laterFaults])
  case passAbort => rw [exec_passAbort hs] at h; cases h; exact .inl rfl
  case csrRd => cases h; exact .inl rfl
  case outPop =>
    cases hq : s.sinkq with
    | nil => rw [exec_outPop_empty hs hq] at h; cases h; exact .inl rfl
    | cons => rw [exec_outPop_symbol hs hq] at h; cases h; exact .inl rfl
  case curW =>
    obtain ⟨c, hc⟩ := exists_chan hw
    rw [exec_curW (outside_of_ne_active hs hl) hc] at h; cases h; exact .inl rfl
  case curH =>
    obtain ⟨c, hc⟩ := exists_chan hw
    rw [exec_curH (outside_of_ne_active hs hl) hc] at h; cases h; exact .inl rfl
  case select =>
    obtain ⟨c, hc⟩ := exists_chan hw
    rw [exec_select hs hc] at h; cases h; exact .inl rfl
  case ptAddr =>
    obtain ⟨r, hr⟩ := exists_cellRef hw
    rw [exec_ptAddr hs hr] at h; cases h; exact .inl rfl
  case ptWr => rw [exec_ptWr (outside_of_ne_active hs hl)] at h; cases h; exact .inl rfl
  case ptRd => rw [exec_ptRd hs] at h; cases h; exact .inl rfl
  case ptInit => rw [exec_ptInit (outside_of_ne_active hs hl)] at h; cases h; exact .inl rfl
  case encBit =>
    obtain ⟨r, hr⟩ := exists_cellRef hw
    rw [exec_encBit (beq_iff_eq.mp hl) hr] at h
    exact afterCoding_fcode h fun _ => rfl
  case qtWr =>
    obtain ⟨c, hc⟩ := exists_chan hw
    rw [exec_qtWr (outside_of_ne_active hs hl) hc] at h; cases h; exact .inl rfl
  case blkWr => rw [exec_blkWr hs] at h; cases h; exact .inl rfl
  case blkClr => rw [exec_blkClr hs] at h; cases h; exact .inl rfl
  case encBlock =>
    obtain ⟨c, hc⟩ := exists_chan hw
    have ha : s.state = .active := beq_iff_eq.mp hl
    by_cases hx : Finished s c
    · rw [exec_encBlock_finished ha hc hx] at h; cases h; exact .inr (by simp [laterFaults])
    · rw [exec_encBlock ha hc hx] at h
      exact afterCoding_fcode (u := recordBlock c s) h (advance_fcode · c)

theorem ne_of_mem_laterFaults {f : FaultCode} (h : f ∈ laterFaults) : f ≠ .illegalState ∧ f ≠ .badOperand := by
  revert f; decide

/-- Settles O11. -/
theorem illegalStateExactlyWhereTheTableSays : Obligations.IllegalStateExactlyWhereTheTableSays := by
  refine fun i s hs => ⟨exec_illegalState hs, fun t hl hf h => ?_⟩
  cases hw : i.wellFormed
  case false =>
    rw [exec_badOperand hs hl hw] at h
    cases h
    simp
  case true =>
    rcases fcode_of_legal hs hl hw h with hsame | hlater
    · exact hsame ▸ hf
    · exact (ne_of_mem_laterFaults hlater).1

/-- Settles O12. -/
theorem badOperandExactlyForIllFormed : Obligations.BadOperandExactlyForIllFormed := by
  refine fun i s hs hl => ⟨exec_badOperand hs hl, fun t hw hf h => ?_⟩
  rcases fcode_of_legal hs hl hw h with hsame | hlater
  · exact hsame ▸ hf
  · exact (ne_of_mem_laterFaults hlater).2

/-- Settles O13. -/
theorem cursorFaults : Obligations.CursorFaults := fun _ ha =>
  ⟨fun _ _ hc hx => exec_encBlock_finished ha hc hx, fun _ hx => exec_passEnd_unfinished ha hx⟩

/-! What a fault leaves (R222, R224) -/

/-- A command that completes stays in STATE or makes the transition of its own row of 44_pass_control.md R201. -/
theorem effect_state (h : Effect i s t) : t.state = s.state ∨
    (∃ warm, i = .passBegin warm ∧ Outside s ∧ t.state = .active) ∨
    (i = .passEnd ∧ s.state = .active ∧ t.state = .done) ∨ (i = .passAbort ∧ t.state = .idle) := by
  cases h
  case passBegin warm h => exact .inr (.inl ⟨warm, rfl, h, rfl⟩)
  case passEnd h _ _ => exact .inr (.inr (.inl ⟨rfl, h, rfl⟩))
  case passAbort => exact .inr (.inr (.inr ⟨rfl, rfl⟩))
  case encBlock => exact .inl (advance_state ..)
  all_goals exact .inl rfl

/-- So it does not stop the block. -/
theorem effect_ne_fault (h : Effect i s t) (hs : s.state ≠ .fault) : t.state ≠ .fault := by
  rcases effect_state h with h | ⟨_, _, _, h⟩ | ⟨_, _, h⟩ | ⟨_, h⟩ <;> rw [h]
  · exact hs
  all_goals decide

/-- What a command has written before OUT_OVERFLOW: the cells, the coder, LASTSEL and CODED_LEN. -/
theorem overflow_frame (h : Overflow i s t) : t = { s with
    pt := t.pt, low := t.low, range := t.range, cache := t.cache, pend := t.pend, out := t.out
    lastsel := t.lastsel, codedLen := t.codedLen } := by
  cases h <;> rfl

/-- The coder of a state after coding, whatever came of it, goes on from the one before. -/
theorem overflow_extends (h : Overflow i s t) : Coder.Extends s.params s.coder t.coder := by
  cases h
  case passEnd hf => exact shiftTimes_extends (.inr hf)
  case encBit he => exact (encodeDecision_extends (e := s.encoder) (.inr he)).1
  case encBlock he => exact (encodeAll_extends (e := s.encoder) (.inr he)).1

/-- Settles O14, by what a command can do (`exec_cases`). -/
theorem whatAFaultLeaves : Obligations.WhatAFaultLeaves := by
  intro i s t hs h hf
  rcases exec_cases h with ⟨hs', _⟩ | ⟨_, code, hnone, hover, rfl⟩ | ⟨_, effect⟩ | ⟨_, u, overflow, rfl⟩
  · exact absurd hs' hs
  · exact ⟨hnone, rfl, fun _ => rfl, fun h => absurd h hover⟩
  · exact absurd hf (effect_ne_fault effect hs)
  · refine ⟨by simp, rfl, fun h => absurd rfl h, fun _ => ⟨?_, (overflow_extends overflow).1⟩⟩
    have hu := overflow_frame overflow
    rw [hu]
    rfl

/-- Settles O15, by what a command can do (`exec_cases`). -/
theorem commandsMakeOnlyTheListedTransitions : Obligations.CommandsMakeOnlyTheListedTransitions := by
  intro i s t h
  rcases exec_cases h with ⟨_, _, rfl⟩ | ⟨hs, _, _, _, rfl⟩ | ⟨hs, effect⟩ | ⟨hs, _, _, rfl⟩
  · exact .inl rfl
  · exact .inr (.inl ⟨hs, rfl⟩)
  · rcases effect_state effect with same | begun | ended | ⟨rfl, aborted⟩
    · exact .inl same
    · exact .inr (.inr (.inl begun))
    · exact .inr (.inr (.inr (.inl ended)))
    · exact .inr (.inr (.inr (.inr ⟨rfl, hs.resolve_right nofun, aborted⟩)))
  · exact .inr (.inl ⟨hs, rfl⟩)

end Sys2Proof.Statements
end

section
/-! The row/position selector: what SELECT answers (41_position_selector.md R123, R129), the geometry of the positions
(R121), and the cursors (R125, R127, R128; 10_state.md R31 to R33). -/

namespace Sys2Proof.Statements

open Sys2Proof.Machine

variable {s t : State} {c : Chan} {w row col : Nat} {p q : Position}

/-! The selection function -/

theorem PositionRule.unique (h : PositionRule w row col p) (h' : PositionRule w row col q) : p = q := by
  cases h <;> cases h' <;> (try rfl) <;> omega

/-- `Select` answers the position whose rule holds. -/
theorem selectPosition_eq_iff (hcol : col < w) : selectPosition w row col = p ↔ PositionRule w row col p :=
  ⟨fun h => h ▸ selectPosition_rule hcol, (selectPosition_rule hcol).unique⟩

/-- But for TOP_EDGE, the label of a position says which neighbours the block has (90_conflicts.md C3). -/
theorem PositionRule.label (h : PositionRule w row col p) (hp : p ≠ .topEdge) (hcol : col < w) :
    p.label = ⟨decide (0 < col), decide (0 < row), decide (0 < row ∧ col + 1 < w)⟩ := by
  cases h
  case topEdge => exact absurd rfl hp
  all_goals
    simp [Position.label]
    omega

/-- Settles O26. -/
theorem positionsFollowTheGeometry : Obligations.PositionsFollowTheGeometry := by
  intro w row col _ hcol
  have rule {p : Position} := selectPosition_eq_iff (row := row) (p := p) hcol
  exact ⟨
    rule.trans ⟨fun | .corner hrow hcol => ⟨hrow, hcol⟩, fun ⟨hrow, hcol⟩ => .corner hrow hcol⟩,
    rule.trans ⟨fun | .topEdge hrow hcol => ⟨hrow, hcol.ne'⟩,
      fun ⟨hrow, hcol⟩ => .topEdge hrow (Nat.pos_of_ne_zero hcol)⟩,
    rule.trans ⟨fun | .singleColumn hw hrow => ⟨hw, hrow⟩, fun ⟨hw, hrow⟩ => .singleColumn hw hrow⟩,
    rule.trans ⟨fun | .midLeft hw hrow hcol => ⟨hrow, hcol, hw⟩, fun ⟨hrow, hcol, hw⟩ => .midLeft hw hrow hcol⟩,
    rule.trans ⟨fun | .interiorMiddle hrow hcol hlast => ⟨hrow, hcol, hlast⟩,
      fun ⟨hrow, hcol, hlast⟩ => .interiorMiddle hrow hcol hlast⟩,
    rule.trans ⟨fun | .midRight hw hrow hlast => ⟨hrow, hlast, hw⟩,
      fun ⟨hrow, hlast, hw⟩ => .midRight hw hrow hlast⟩,
    fun hp => (selectPosition_rule hcol).label hp hcol, rfl⟩

/-! SELECT -/

theorem half_eq_zero_iff {v : Half} : v.toNat = 0 ↔ v = 0 := by
  rw [← BitVec.toNat_inj]
  rfl

theorem half_succ_toNat {v : Half} (h : v.toNat + 1 < 2 ^ 16) : (v + 1).toNat = v.toNat + 1 :=
  BitVec.toNat_add_of_lt h

theorem half_eq_one_iff {v : Half} : v.toNat = 1 ↔ v = 1 := by
  rw [← BitVec.toNat_inj]
  rfl

/-- The tests of R123, on any numbers: which of them answers. -/
theorem selectPosition_of_tests (w row col : Nat) :
    (row = 0 → col = 0 → selectPosition w row col = .corner) ∧
    (w ≠ 1 → row = 0 → col ≠ 0 → selectPosition w row col = .topEdge) ∧
    (w = 1 → row ≠ 0 → selectPosition w row col = .singleColumn) ∧
    (w ≠ 1 → row ≠ 0 → col = 0 → selectPosition w row col = .midLeft) ∧
    (w ≠ 1 → row ≠ 0 → col ≠ 0 → col + 1 = w → selectPosition w row col = .midRight) ∧
    (w ≠ 1 → row ≠ 0 → col ≠ 0 → col + 1 ≠ w → selectPosition w row col = .interiorMiddle) := by
  unfold selectPosition
  refine ⟨fun hrow hcol => ?_, fun hw hrow hcol => ?_, fun hw hrow => ?_, fun hw hrow hcol => ?_,
    fun hw hrow hcol hlast => ?_, fun hw hrow hcol hlast => ?_⟩
  · simp [hrow, hcol]
  · simp [hw, hrow, hcol]
  · simp [hw, hrow]
  · simp [hw, hrow, hcol]
  · have hlast' : col = w - 1 := by omega
    rw [if_neg hw, if_neg hrow, if_neg hcol, if_pos hlast']
  · have hlast' : ¬ col = w - 1 := by omega
    rw [if_neg hw, if_neg hrow, if_neg hcol, if_neg hlast']

/-- Settles O24: the tests of R123 in their order, and the word of each position. -/
theorem selectReportsThePosition : Obligations.SelectReportsThePosition := by
  intro s ch c hs hc
  refine ⟨_, exec_select hs hc, fun hx => by rw [finished_iff.mp hx]; rfl, fun hx => ?_⟩
  rw [not_finished_iff.mp hx, if_neg (by decide)]
  simp only [← half_eq_zero_iff, ne_eq, ← half_eq_one_iff]
  obtain ⟨corner, topEdge, singleColumn, midLeft, midRight, interiorMiddle⟩ :=
    selectPosition_of_tests s.width[c].toNat s.row[c].toNat s.col[c].toNat
  exact ⟨fun hrow hcol => congrArg selectResponse (corner hrow hcol),
    fun hw hrow hcol => congrArg selectResponse (topEdge hw hrow hcol),
    fun hw hrow => congrArg selectResponse (singleColumn hw hrow),
    fun hw hrow hcol => congrArg selectResponse (midLeft hw hrow hcol),
    fun hw hrow hcol hlast => congrArg selectResponse (midRight hw hrow hcol hlast),
    fun hw hrow hcol hlast => congrArg selectResponse (interiorMiddle hw hrow hcol hlast)⟩

/-! The cursors -/

/-- CUR_W and CUR_H home the cursor of their channel only. -/
theorem homeCursor_at (s : State) (c d : Chan) :
    (homeCursor c s).row[d] = (if d = c then 0 else s.row[d]) ∧
      (homeCursor c s).col[d] = (if d = c then 0 else s.col[d]) ∧
      (homeCursor c s).blkpos[d] = if d = c then 0 else s.blkpos[d] :=
  ⟨chan_set s.row c d 0, chan_set s.col c d 0, chan_set s.blkpos c d 0⟩

/-- Settles O23. -/
theorem cursorCommandsSetAndHome : Obligations.CursorCommandsSetAndHome := fun s _ c imm h hc =>
  ⟨⟨_, exec_curW h hc imm, rfl, fun d => ⟨chan_set s.width c d imm, homeCursor_at _ c d⟩⟩,
    ⟨_, exec_curH h hc imm, rfl, fun d => ⟨chan_set s.nrows c d imm, homeCursor_at _ c d⟩⟩⟩

section

variable (s c)

theorem advance_at_of_ne {d : Chan} (hd : d ≠ c) : (advance c s).row[d] = s.row[d] ∧
    (advance c s).col[d] = s.col[d] ∧ (advance c s).blkpos[d] = s.blkpos[d] := by
  rw [advance_row, advance_col, advance_blkpos, chan_set_of_ne _ _ hd, chan_set_of_ne _ _ hd]
  refine ⟨?_, rfl, rfl⟩
  split
  · rw [chan_set_of_ne _ _ hd]
  · rfl

theorem advance_blkpos_toNat : (advance c s).blkpos[c].toNat = (s.blkpos[c].toNat + 1) % 2 ^ 32 := by
  rw [advance_blkpos, chan_set_self]
  rfl

end

/-- `Advance` inside the raster: on the last column it goes to the next row, else to the next column. -/
theorem advance_toNat (hcol : s.col[c].toNat < s.width[c].toNat) (hrow : s.row[c].toNat < s.nrows[c].toNat) :
    (s.col[c].toNat + 1 = s.width[c].toNat ∧ (advance c s).row[c].toNat = s.row[c].toNat + 1 ∧
      (advance c s).col[c].toNat = 0) ∨
    (s.col[c].toNat + 1 < s.width[c].toNat ∧ (advance c s).row[c].toNat = s.row[c].toNat ∧
      (advance c s).col[c].toNat = s.col[c].toNat + 1) := by
  have hwidth := s.width[c].isLt
  have hnrows := s.nrows[c].isLt
  have col_succ : (s.col[c] + 1).toNat = s.col[c].toNat + 1 :=
    half_succ_toNat (by omega)
  have row_succ : (s.row[c] + 1).toNat = s.row[c].toNat + 1 :=
    half_succ_toNat (by omega)
  rw [advance_row, advance_col, chan_set_self]
  by_cases hlast : s.col[c] + 1 = s.width[c]
  · refine .inl ⟨by rw [← col_succ, hlast], ?_, ?_⟩
    · rw [if_pos hlast, chan_set_self, row_succ]
    · rw [if_pos hlast]; rfl
  · have hne : s.col[c].toNat + 1 ≠ s.width[c].toNat := fun h =>
      hlast (BitVec.eq_of_toNat_eq (col_succ.trans h))
    refine .inr ⟨by omega, ?_, ?_⟩
    · rw [if_neg hlast]
    · rw [if_neg hlast, col_succ]

/-- Settles O27. -/
theorem advanceWalksTheRaster : Obligations.AdvanceWalksTheRaster := by
  intro s c hcol hrow
  have frame := And.intro (advance_blkpos_toNat s c)
    (And.intro (fun d => advance_at_of_ne s c (d := d)) (advance_fields c s))
  rcases advance_toNat hcol hrow with ⟨hlast, hrow', hcol'⟩ | ⟨hnext, hrow', hcol'⟩
  · refine ⟨?_, by omega, by omega, frame⟩
    rw [hrow', hcol', Nat.add_mul]
    omega
  · refine ⟨?_, by omega, by omega, frame⟩
    rw [hrow', hcol']
    omega

/-- A cursor inside the raster has not consumed all its blocks. -/
theorem raster_lt {n m row col : Nat} (hrow : row < m) (hcol : col < n) : row * n + col < n * m := by
  rw [Nat.mul_comm n m]
  exact digits_lt hrow hcol

/-- Settles O28: BLKPOS is the raster number of the cursor, and only the end of the raster has the number of all
blocks. -/
theorem finishedMeansEveryBlockConsumed : Obligations.FinishedMeansEveryBlockConsumed := by
  intro s c h
  obtain ⟨hcol, hrow, hend, hblkpos⟩ := h.cursor_legal c
  rw [hblkpos]
  unfold Finished
  rw [← half_eq_zero_iff]
  constructor
  · rintro (hw | hr)
    · have hcol0 : s.col[c].toNat = 0 := by
        rcases hcol with hlt | ⟨_, hzero⟩
        · omega
        · rw [hzero]; rfl
      rw [hw, hcol0]
      omega
    · have hlast : s.row[c] = s.nrows[c] := BitVec.eq_of_toNat_eq (by omega)
      rw [hend hlast, hlast, Nat.mul_comm]
      rfl
  · intro hall
    by_contra hopen
    obtain ⟨hw, hr⟩ := not_or.mp hopen
    have hcol' : s.col[c].toNat < s.width[c].toNat :=
      hcol.resolve_right fun ⟨hzero, _⟩ => hw (half_eq_zero_iff.mpr hzero)
    have := raster_lt (Nat.not_le.mp hr) hcol'
    omega

end Sys2Proof.Statements
end

section
/-! The probability table manager: PT_WR, PT_INIT and the round trip through PT_RD (40_table_manager.md R109 to R112),
and the canonical form of PT (log entry 6): the entries of a canonical list are its cells that do not hold P_INIT. -/

namespace Sys2Proof.Statements

open Sys2Proof.Machine

variable {s : State} {m n : Memory} {k : Nat} {v : Prob}

/-! Commands -/

theorem clamp_toNat (v : Prob) : (clamp v pMin pMax).toNat = min 2017 (max 31 v.toNat) := by
  have hmin : pMin.toNat = 31 := rfl
  have hmax : pMax.toNat = 2017 := rfl
  unfold clamp
  simp only [BitVec.lt_def, gt_iff_lt]
  split
  · omega
  · split <;> omega

/-- Settles O30. -/
theorem ptWrWritesOneCell : Obligations.PtWrWritesOneCell := by
  refine fun s imm h => ⟨_, exec_ptWr h imm, rfl, ?_, fun r hr => read_write_of_ne _ _ hr, rfl, rfl, rfl⟩
  rw [read_write_self, clamp_toNat]

/-- Settles O32. -/
theorem ptInitSetsCellsToTheInitialValue : Obligations.PtInitSetsCellsToTheInitialValue := by
  refine fun s all h => ⟨_, exec_ptInit h all, rfl, fun r => ?_⟩
  cases all
  case true => exact (read_initAll r).trans (if_pos (Or.inl rfl)).symm
  case false =>
    simp only [Bool.false_eq_true, false_or, if_false]
    exact read_initTable s.pt s.ptr.ch s.ptr.pos r

/-- Settles O33: the four commands one after another; the second PT_ADDR brings PTR back to the cell written. -/
theorem ptWrThenPtRdReturnsTheClampedValue : Obligations.PtWrThenPtRdReturnsTheClampedValue := by
  intro s ch pos cell imm h hw
  obtain ⟨r, hr⟩ := exists_cellRef hw
  refine ⟨_, _, _, _, exec_ptAddr h.ne_fault hr, exec_ptWr (s := { s with ptr := r }) h imm,
    exec_ptAddr h.ne_fault hr, exec_ptRd h.ne_fault, _, rfl, ?_⟩
  rw [zext32_toNat _ (by decide), read_write_self, clamp_toNat]

/-! The canonical form -/

theorem mem_of_lookup (hv : v ≠ pInit) (h : Memory.lookup k m = v) : (k, v) ∈ m := by
  induction m with
  | nil => exact absurd h.symm hv
  | cons e rest ih =>
    rw [Memory.lookup] at h
    split at h
    · next hk => exact List.mem_cons.mpr (.inl (Prod.ext hk.symm h.symm))
    · exact List.mem_cons_of_mem _ (ih h)

theorem lookup_of_mem (hm : m.Pairwise fun a b => a.1 < b.1) (h : (k, v) ∈ m) : Memory.lookup k m = v := by
  induction m with
  | nil => cases h
  | cons e rest ih =>
    obtain ⟨hlt, hrest⟩ := List.pairwise_cons.mp hm
    rw [Memory.lookup]
    rcases List.mem_cons.mp h with rfl | h
    · exact if_pos rfl
    · rw [if_neg (hlt _ h).ne, ih hrest h]

/-- Every cell number in range is that of a cell. -/
theorem exists_cellNumber (h : k < memorySize) : ∃ r, cellNumber r = k := by
  have position (x : Nat) (hx : x < 6) : ∃ p : Position, p.code = x := by
    match x with
    | 0 => exact ⟨.corner, rfl⟩
    | 1 => exact ⟨.topEdge, rfl⟩
    | 2 => exact ⟨.singleColumn, rfl⟩
    | 3 => exact ⟨.midLeft, rfl⟩
    | 4 => exact ⟨.interiorMiddle, rfl⟩
    | 5 => exact ⟨.midRight, rfl⟩
  obtain ⟨table, cell, htable, hcell, rfl⟩ := exists_digits (m := 18) (n := 4627) h
  obtain ⟨ch, code, hch, hcode, rfl⟩ := exists_digits (m := 3) (n := 6) htable
  obtain ⟨pos, rfl⟩ := position code hcode
  exact ⟨⟨⟨ch, hch⟩, pos, ⟨cell, hcell⟩⟩, rfl⟩

/-- An entry is in every list with the same cells. -/
theorem mem_of_read_eq (hm : Memory.wf m) (h : ∀ r, Memory.read m r = Memory.read n r) {e : Nat × Prob}
    (he : e ∈ m) : e ∈ n := by
  obtain ⟨hlt, hne⟩ := hm.2 e he
  obtain ⟨r, hr⟩ := exists_cellNumber hlt
  have hread : Memory.lookup e.1 m = Memory.lookup e.1 n := by
    have := h r
    unfold Memory.read at this
    rwa [hr] at this
  exact mem_of_lookup hne (hread.symm.trans (lookup_of_mem hm.1 he))

/-- Settles O36: the lists have the same entries, in rising order of their cell numbers. -/
theorem equalCellsAreEqualMemories : Obligations.EqualCellsAreEqualMemories := by
  intro m n hm hn h
  have irrefl : Std.Irrefl fun a b : Nat × Prob => a.1 < b.1 := ⟨fun a => lt_irrefl a.1⟩
  have antisymm : Std.Antisymm fun a b : Nat × Prob => a.1 < b.1 := ⟨fun _ _ h h' => absurd h' h.asymm⟩
  exact hm.1.eq_of_mem_iff hn.1 fun e => ⟨mem_of_read_eq hm h, mem_of_read_eq hn fun r => (h r).symm⟩

end Sys2Proof.Statements
end

section
/-! The arithmetic coder: the code value that `ShiftLow` and `Finish` keep (42_arithmetic_coder.md R144, R147), the
invariants of `Encode` (R146), and the frame of PASS_END (44_pass_control.md R203, R204). -/

namespace Sys2Proof.Statements

open Sys2Proof.Machine

variable {P : Params} {c d : Coder} {p : Prob} {bit : Bool} {s : State}

/-! ShiftLow and Finish -/

/-- Settles O40. -/
theorem shiftLowKeepsTheCodeValue : Obligations.ShiftLowKeepsTheCodeValue := by
  intro P c d hpend h hcarry
  exact (codeValue_shiftLow h hpend hcarry).trans (Nat.mul_comm ..)

/-- Each shift makes one byte, appended or held back, and leaves RANGE alone. -/
theorem shiftTimes_count : ∀ {n : Nat} {c d : Coder}, shiftTimes P n c = .ok d → 1 ≤ c.pend →
    d.out.length + d.pend = c.out.length + c.pend + n ∧ d.range = c.range ∧ 1 ≤ d.pend
  | 0, c, d, h, hpend => by
    cases h
    exact ⟨rfl, rfl, hpend⟩
  | n + 1, c, d, h, hpend => by
    unfold shiftTimes at h
    split at h
    · next c' hc' =>
      obtain ⟨hcount, hpend', hrange, _⟩ := shiftLow_count hc' hpend
      obtain ⟨hcount', hrange', hd⟩ := shiftTimes_count h hpend'
      exact ⟨by omega, hrange'.trans hrange, hd⟩
    · cases h

/-- The last of the shifts may find OUT full only after it. -/
theorem shiftTimes_completes : ∀ {n : Nat} {c : Coder}, c.out.length + c.pend + n ≤ P.outCap.val + 1 →
    1 ≤ c.pend → ∃ d, shiftTimes P n c = .ok d
  | 0, c, _, _ => ⟨c, rfl⟩
  | n + 1, c, hroom, hpend => by
    obtain ⟨c', hc'⟩ := shiftLow_completes P (c := c) (by omega) hpend
    obtain ⟨hcount, hpend', _⟩ := shiftLow_count hc' hpend
    obtain ⟨d, hd⟩ := shiftTimes_completes (n := n) (by omega) hpend'
    exact ⟨d, by rw [shiftTimes, hc']; exact hd⟩

theorem finish_length (h : finish P c = .ok d) (hpend : 1 ≤ c.pend) :
    d.out.length = c.out.length + c.pend + 4 := by
  obtain ⟨_, _, hd⟩ := finish_registers h hpend
  obtain ⟨hcount, _⟩ := shiftTimes_count h hpend
  omega

/-- The fifth shift appends what was held back, so there was room for it. -/
theorem finish_room (h : finish P c = .ok d) (hpend : 1 ≤ c.pend) : d.out.length ≤ P.outCap.val := by
  obtain ⟨_, _, hd⟩ := finish_registers h hpend
  obtain ⟨c', hc', hlast⟩ := shiftTimes_succ_ok h
  rcases shiftLow_ok hlast with ⟨_, hroom, rfl⟩ | ⟨_, rfl⟩
  · simpa [flushed] using hroom
  · have hone : c'.pend + 1 = 1 := hd
    obtain ⟨_, _, hpend'⟩ := shiftTimes_count hc' hpend
    omega

/-- `Finish` completes just when OUT has room for the bytes held back and four of LOW (R147). -/
theorem finish_completes_iff (hpend : 1 ≤ c.pend) :
    (∃ d, finish P c = .ok d) ↔ c.out.length + c.pend + 4 ≤ P.outCap.val := by
  constructor
  · rintro ⟨d, hd⟩
    exact finish_length hd hpend ▸ finish_room hd hpend
  · intro hroom
    exact shiftTimes_completes (by omega) hpend

/-- Settles O41. -/
theorem finishFlushesTheCoder : Obligations.FinishFlushesTheCoder := by
  intro P c d hpend h
  obtain ⟨hlow, hcache, hd⟩ := finish_registers h hpend
  exact ⟨hlow, hcache, hd, (shiftTimes_count h hpend).2.1, (shiftTimes_extends (.inl h)).1, finish_length h hpend,
    fun hcarry => (finish_writes_codeValue h hpend hcarry).1⟩

/-! PASS_END -/

/-- The four length bytes are the length, most significant first (20_memory.md R62). -/
theorem lengthBytes_value {n : Nat} (h : n < 2 ^ 32) : ∃ b3 b2 b1 b0 : Byte, lengthBytes n = [b3, b2, b1, b0] ∧
    n = 2 ^ 24 * b3.toNat + 2 ^ 16 * b2.toNat + 2 ^ 8 * b1.toNat + b0.toNat := by
  refine ⟨_, _, _, _, rfl, ?_⟩
  simp only [BitVec.extractLsb'_toNat, Nat.shiftRight_eq_div_pow, BitVec.toNat_ofNat]
  omega

/-- Settles O18. -/
theorem passEndEmitsTheFrame : Obligations.PassEndEmitsTheFrame := by
  intro s hs hx hpend hroom
  obtain ⟨d, hd⟩ := (finish_completes_iff (P := s.params) (c := s.coder) hpend).mpr hroom
  have hlength : d.out.length = s.out.length + s.pend + 4 := finish_length hd hpend
  have hcap := s.params.outCap.isLt
  obtain ⟨b3, b2, b1, b0, hbytes, hvalue⟩ := lengthBytes_value (n := d.out.length) (by omega)
  obtain ⟨hlow, hcache, hd1⟩ := finish_registers hd hpend
  have hrange : d.range = s.range := (shiftTimes_count hd hpend).2.1
  refine ⟨_, b3, b2, b1, b0, exec_passEnd hs hx hd, rfl,
    (shiftTimes_extends (.inl hd)).1, hd, hlength, hlow, hcache, hd1, hvalue, ?_, ?_⟩
  · simp [frame, hbytes]
  · rw [← hlow, ← hcache, ← hd1, ← hrange]
    rfl

/-- Settles O19. -/
theorem passEndWithoutRoomOverflows : Obligations.PassEndWithoutRoomOverflows := by
  intro s hs hx hpend hroom
  cases hd : finish s.params s.coder with
  | ok d => exact absurd ((finish_completes_iff hpend).mp ⟨d, hd⟩) (Nat.not_le.mpr hroom)
  | error d => exact ⟨_, exec_passEnd_overflow hs hx hd, rfl, rfl, rfl, rfl, rfl, rfl, rfl⟩

end Sys2Proof.Statements
end

section
/-! One decision (42_arithmetic_coder.md R145, R146, R149): the interval narrows, and if it has become narrower than 2^24
the coder shifts once. -/

namespace Sys2Proof.Statements

open Sys2Proof.Machine

variable {P : Params} {c d : Coder} {p : Prob} {bit : Bool} {e e' : Encoder} {r : CellRef}

/-! The loop after a narrowing -/

/-- The coder in the loop, before its shift: RANGE has moved up by eight bits (R145). -/
def widened (c : Coder) : Coder := { c with range := c.range <<< 8 }

/-- How the loop after a narrowing ends, whatever the number of rounds it is given: without a shift, with one, or
with OUT_OVERFLOW in it. -/
theorem normalise_narrow_cases (P : Params) (hc : c.Legal) (hp : Prob.legal p) (bit : Bool) :
    (2 ^ 24 ≤ (narrow p bit c).range.toNat ∧
      ∀ n, normalise P (n + 1) (narrow p bit c) = .done (narrow p bit c)) ∨
    ((narrow p bit c).range.toNat < 2 ^ 24 ∧ ∃ d, shiftLow P (widened (narrow p bit c)) = .ok d ∧
      ∀ n, normalise P (n + 1) (narrow p bit c) = .done d) ∨
    ((narrow p bit c).range.toNat < 2 ^ 24 ∧ ∃ d, shiftLow P (widened (narrow p bit c)) = .error d ∧
      ∀ n, normalise P (n + 1) (narrow p bit c) = .overflow d) := by
  have hge := (narrow_bounds hc hp bit).1
  by_cases hnarrow : (narrow p bit c).range.toNat < 2 ^ 24
  · have hn (n : Nat) := normalise_once (P := P) (n := n) (by omega) hnarrow
    cases hd : shiftLow P (widened (narrow p bit c)) with
    | ok d =>
      have hshift : shiftLow P { narrow p bit c with range := (narrow p bit c).range <<< 8 } = .ok d := hd
      exact .inr (.inl ⟨hnarrow, d, rfl, fun n => by rw [hn, hshift]⟩)
    | error d =>
      have hshift : shiftLow P { narrow p bit c with range := (narrow p bit c).range <<< 8 } = .error d := hd
      exact .inr (.inr ⟨hnarrow, d, rfl, fun n => by rw [hn, hshift]⟩)
  · exact .inl ⟨by omega, fun n => normalise_done (by omega)⟩

theorem legal_of_wide (hc : c.Legal) (hp : Prob.legal p) (hwide : 2 ^ 24 ≤ (narrow p bit c).range.toNat) :
    (narrow p bit c).Legal := by
  obtain ⟨_, _, hsum⟩ := narrow_bounds hc hp bit
  have hlt := hc.sum_lt
  exact ⟨hwide, by omega, by rw [narrow_pend]; exact hc.pend_pos⟩

/-- The registers after one shift of a narrowed coder, which is a legal one again. -/
theorem legal_of_shift (hc : c.Legal) (hp : Prob.legal p) (hnarrow : (narrow p bit c).range.toNat < 2 ^ 24)
    (hd : shiftLow P (widened (narrow p bit c)) = .ok d) :
    d.Legal ∧ c.out <+: d.out ∧ d.out.length + d.pend = c.out.length + c.pend + 1 := by
  obtain ⟨hge, _, _⟩ := narrow_bounds hc hp bit
  have hpend : (widened (narrow p bit c)).pend = c.pend := narrow_pend ..
  have hout : (widened (narrow p bit c)).out = c.out := narrow_out ..
  have hwidened : (widened (narrow p bit c)).range.toNat = (narrow p bit c).range.toNat * 2 ^ 8 :=
    range_shift hnarrow
  obtain ⟨hcount, hd1, hrange, hprefix, hlow, _⟩ := shiftLow_count hd (hpend ▸ hc.pend_pos)
  rw [hpend, hout] at hcount
  rw [hout] at hprefix
  refine ⟨⟨?_, ?_, hd1⟩, hprefix, hcount⟩
  · rw [hrange, hwidened]; omega
  · rw [hrange, hwidened]; omega

/-- Settles O39. -/
theorem encodeKeepsTheCoderInvariants : Obligations.EncodeKeepsTheCoderInvariants := by
  intro P c p bit hc hp
  obtain ⟨hlo, hhi⟩ := bound_bounds hc.range_ge hp
  obtain ⟨hge, _, hsum⟩ := narrow_bounds hc hp bit
  refine ⟨by omega, by omega, hsum, by omega, ?_⟩
  rcases normalise_narrow_cases P hc hp bit with ⟨hwide, hn⟩ | ⟨hnarrow, d, hd, hn⟩ | ⟨_, d, _, hn⟩
  all_goals simp only [hn]
  · refine ⟨fun _ => trivial, nofun, fun d h => ?_⟩
    obtain rfl := Coded.done.inj h
    rw [if_neg (by omega), narrow_out, narrow_pend]
    exact ⟨legal_of_wide hc hp hwide, List.prefix_refl _, rfl, by omega⟩
  · refine ⟨fun _ => trivial, nofun, fun d' h => ?_⟩
    obtain rfl := Coded.done.inj h
    obtain ⟨hlegal, hprefix, hcount⟩ := legal_of_shift hc hp hnarrow hd
    have hpend := hlegal.pend_pos
    rw [if_pos hnarrow]
    exact ⟨hlegal, hprefix, hcount, by omega⟩
  · exact ⟨fun _ => trivial, nofun, nofun⟩

/-! ENC_BIT -/

section

variable {n : Coder} {low : Nat}

/-- The test of `ShiftLow` on a number for LOW: its top byte is not 0xFF, or its carry is 1. -/
theorem settled_widened_iff (hlow : n.low.toNat = low) :
    settled (widened n) ↔ low % 2 ^ 32 < 0xFF000000 ∨ low / 2 ^ 32 = 1 := by
  have hlt := n.low.isLt
  have hwidened : (widened n).low.toNat = low := hlow
  unfold settled
  omega

/-- The bytes that a shift makes final. -/
theorem heldBytes_widened (hlow : n.low.toNat = low) : heldBytes (widened n) =
    BitVec.ofNat 8 (n.cache.toNat + low / 2 ^ 32) ::
      List.replicate (n.pend - 1) (BitVec.ofNat 8 (0xFF + low / 2 ^ 32)) := by
  have hcarry : (widened n).carry = low / 2 ^ 32 := hlow ▸ carry_eq (widened n)
  rw [heldBytes, hcarry]
  rfl

/-- The registers after the shift of a decision, as numbers (R144, R145). -/
theorem shift_registers (hlow : n.low.toNat = low) (hnarrow : n.range.toNat < 2 ^ 24) (hpend : 1 ≤ n.pend)
    (hd : shiftLow P (widened n) = .ok d) :
    d.low.toNat = low % 2 ^ 24 * 2 ^ 8 ∧ d.range.toNat = n.range.toNat * 2 ^ 8 ∧
      (settled (widened n) → d.out = n.out ++ heldBytes (widened n) ∧
        d.cache.toNat = low / 2 ^ 24 % 2 ^ 8 ∧ d.pend = 1) ∧
      (¬ settled (widened n) → d.out = n.out ∧ d.cache = n.cache ∧ d.pend = n.pend + 1) := by
  obtain ⟨_, _, hrange, _, hdlow, _⟩ := shiftLow_count hd hpend
  refine ⟨hlow ▸ hdlow, by rw [hrange]; exact range_shift hnarrow, fun h => ?_, fun h => ?_⟩
  · rcases shiftLow_ok hd with ⟨_, _, rfl⟩ | ⟨unsettled, _⟩
    · refine ⟨rfl, ?_, rfl⟩
      rw [← hlow, ← Nat.shiftRight_eq_div_pow]
      exact BitVec.extractLsb'_toNat ..
    · exact absurd h unsettled
  · rcases shiftLow_ok hd with ⟨hsettled, _⟩ | ⟨_, rfl⟩
    · exact absurd hsettled h
    · exact ⟨rfl, rfl, rfl⟩

/-- A shift raises OUT_OVERFLOW just when it has to append more bytes than fit. -/
theorem shift_overflows_iff (hpend : 1 ≤ c.pend) :
    (∃ d, shiftLow P c = .error d) ↔ settled c ∧ P.outCap.val < c.out.length + c.pend := by
  constructor
  · rintro ⟨d, hd⟩
    by_contra hno
    by_cases hs : settled c
    · rw [shiftLow_flushed hs (by omega)] at hd
      cases hd
    · rw [shiftLow_deferred hs] at hd
      cases hd
  · rintro ⟨hs, hfull⟩
    cases hd : shiftLow P c with
    | error d => exact ⟨d, rfl⟩
    | ok d =>
      rcases shiftLow_ok hd with ⟨_, hroom, _⟩ | ⟨unsettled, _⟩
      · omega
      · exact absurd hs unsettled

end

/-- The coder `n` after a narrowing of `c`, as the numbers of R145. -/
structure NarrowsTo (c : Coder) (p : Prob) (bit : Bool) (n : Coder) : Prop where
  low_eq : n.low.toNat = if bit then c.low.toNat + c.range.toNat / 2048 * p.toNat else c.low.toNat
  range_eq : n.range.toNat =
    if bit then c.range.toNat - c.range.toNat / 2048 * p.toNat else c.range.toNat / 2048 * p.toNat
  cache_eq : n.cache = c.cache
  pend_eq : n.pend = c.pend
  out_eq : n.out = c.out

theorem narrowsTo_narrow (hc : c.Legal) (hp : Prob.legal p) (bit : Bool) :
    NarrowsTo c p bit (narrow p bit c) := by
  obtain ⟨hlow, hrange⟩ := narrow_toNat hc hp bit
  rw [bound_toNat] at hlow hrange
  exact ⟨hlow, hrange, narrow_cache .., narrow_pend .., narrow_out ..⟩

/-- Where `Encode` narrows to, and how it ends from there. -/
theorem exists_narrowsTo (P : Params) (r : CellRef) (bit : Bool) (hc : e.coder.Legal)
    (hp : Prob.legal (Memory.read e.pt r)) : ∃ n pt, NarrowsTo e.coder (Memory.read e.pt r) bit n ∧
      ((2 ^ 24 ≤ n.range.toNat ∧ encodeDecision P r bit e = .done ⟨n, pt⟩) ∨
      (n.range.toNat < 2 ^ 24 ∧ ∃ d, shiftLow P (widened n) = .ok d ∧ encodeDecision P r bit e = .done ⟨d, pt⟩) ∨
      (n.range.toNat < 2 ^ 24 ∧ ∃ d, shiftLow P (widened n) = .error d ∧
        encodeDecision P r bit e = .overflow ⟨d, pt⟩)) :=
  ⟨_, _, narrowsTo_narrow hc hp bit, encodeDecision_cases hc hp⟩

/-- What a decision leaves in the cells. -/
theorem encodeDecision_cells (h : encodeDecision P r bit e = .done e' ∨ encodeDecision P r bit e = .overflow e') :
    (Memory.read e'.pt r).toNat = (if bit then (Memory.read e.pt r).toNat - (Memory.read e.pt r).toNat / 32
      else (Memory.read e.pt r).toNat + (2048 - (Memory.read e.pt r).toNat) / 32) ∧
    ∀ q, q ≠ r → Memory.read e'.pt q = Memory.read e.pt q := by
  rw [(encodeDecision_extends h).2]
  exact ⟨by rw [read_write_self, adapt_toNat], fun q hq => read_write_of_ne _ _ hq⟩

/-- Settles O37, by the three ways in which `Encode` can end. -/
theorem encBitCodesOneDecision : Obligations.EncBitCodesOneDecision := by
  intro s ch pos cell bit r hs hch hpos hcell hc hp bound low range carry hroom
  have hexec := exec_encBit hs (cellRef?_some.mpr ⟨hch, hpos, hcell⟩) bit
  obtain ⟨n, pt, narrows, ends⟩ := exists_narrowsTo (e := s.encoder) s.params r bit hc hp
  have hlow : n.low.toNat = low := narrows.low_eq
  have hrange : n.range.toNat = range := narrows.range_eq
  have hcache : n.cache = s.cache := narrows.cache_eq
  have hpend : n.pend = s.pend := narrows.pend_eq
  have hout : n.out = s.out := narrows.out_eq
  have hsettled : settled (widened n) ↔ low % 2 ^ 32 < 0xFF000000 ∨ carry = 1 := settled_widened_iff hlow
  have hpend1 : 1 ≤ n.pend := hpend ▸ hc.pend_pos
  rcases ends with ⟨hwide, he⟩ | ⟨hnarrow, d, hd, he⟩ | ⟨hnarrow, d, hd, he⟩
  · obtain ⟨hcell, hcells⟩ := encodeDecision_cells (.inl he)
    rw [he] at hexec
    exact ⟨_, hexec, rfl, hcell, hcells, fun _ => ⟨hlow, hrange, hcache, hpend, hout⟩,
      fun h => absurd (hrange ▸ hwide) (Nat.not_le.mpr h)⟩
  · obtain ⟨hcell, hcells⟩ := encodeDecision_cells (.inl he)
    obtain ⟨hdlow, hdrange, hflushed, hdeferred⟩ := shift_registers hlow hnarrow hpend1 hd
    rw [hrange] at hdrange
    rw [heldBytes_widened hlow, hcache, hpend, hout] at hflushed
    rw [hcache, hpend, hout] at hdeferred
    rw [he] at hexec
    exact ⟨_, hexec, rfl, hcell, hcells, fun h => absurd (hrange ▸ hnarrow) (Nat.not_lt.mpr h),
      fun _ => ⟨hdlow, hdrange, fun h => hflushed (hsettled.mpr h), fun h => hdeferred fun hs => h (hsettled.mp hs)⟩⟩
  · obtain ⟨hs', hfull⟩ := (shift_overflows_iff (c := widened n) hpend1).mp ⟨d, hd⟩
    have hle := hroom (hrange ▸ hnarrow) (hsettled.mp hs')
    have hlt : s.params.outCap.val < n.out.length + n.pend := hfull
    rw [hout, hpend] at hlt
    exact absurd hle (Nat.not_le.mpr hlt)

/-- Settles O38: of the three ways in which `Encode` can end, the two others have room. -/
theorem encBitWithoutRoomOverflows : Obligations.EncBitWithoutRoomOverflows := by
  intro s ch pos cell bit r hs hch hpos hcell hc hp bound low range carry hnarrow hfinal hfull
  have hexec := exec_encBit hs (cellRef?_some.mpr ⟨hch, hpos, hcell⟩) bit
  obtain ⟨n, pt, narrows, ends⟩ := exists_narrowsTo (e := s.encoder) s.params r bit hc hp
  have hlow : n.low.toNat = low := narrows.low_eq
  have hrange : n.range.toNat = range := narrows.range_eq
  have hcache : n.cache = s.cache := narrows.cache_eq
  have hpend : n.pend = s.pend := narrows.pend_eq
  have hout : n.out = s.out := narrows.out_eq
  have hsettled : settled (widened n) := (settled_widened_iff hlow).mpr hfinal
  have hpend1 : 1 ≤ n.pend := hpend ▸ hc.pend_pos
  have hfull' : s.params.outCap.val < n.out.length + n.pend := by rw [hout, hpend]; exact hfull
  obtain ⟨d', hd'⟩ := (shift_overflows_iff (P := s.params) (c := widened n) hpend1).mpr ⟨hsettled, hfull'⟩
  rcases ends with ⟨hwide, _⟩ | ⟨_, d, hd, _⟩ | ⟨hnarrow', d, hd, he⟩
  · exact absurd (hrange ▸ hwide) (Nat.not_le.mpr hnarrow)
  · cases hd.symm.trans hd'
  · obtain ⟨hcell, hcells⟩ := encodeDecision_cells (.inr he)
    obtain ⟨l, hl, rfl, hlength⟩ := shiftLow_error hd
    rw [heldBytes_widened hlow, hcache, hpend] at hl
    rw [he] at hexec
    refine ⟨_, hexec, ?_, hcell, hcells, hlow, ?_, ?_, ?_⟩
    · simp [raiseFault, State.withEncoder, State.withCoder, widened, hcache, hpend]
    · exact (range_shift hnarrow').trans (congrArg (· * 2 ^ 8) hrange)
    · exact hlength.trans (congrArg (fun o : List Byte => max o.length s.params.outCap.val) hout)
    · rw [← hout]
      exact (List.prefix_append_right_inj n.out).mpr hl

end Sys2Proof.Statements
end

section
/-! What a command leaves unchanged, register by register, from the list of all it can do (`exec_cases`): the payload
only grows (10_state.md R38), the parameters stay (00_scope.md R12), every register has its own commands
(R23, R24, R27, R28, R30, R34, R35), and the cells of other tables stay (40_table_manager.md R108). -/

namespace Sys2Proof.Statements

open Sys2Proof.Machine

variable {i : Instr} {s t : State}

/-! Faults write nothing of their own but STATE, FCODE and FINFO -/

/-- A view of the state that raising a fault leaves alone changes only where a command has its effect, or where it has
written something before OUT_OVERFLOW. -/
theorem exec_view {α : Type} (f : State → α) {C : Prop} (fault : ∀ code w u, f (raiseFault code w u) = f u)
    (effect : ∀ {t}, Effect i s t → f t = f s ∨ C) (overflow : ∀ {t}, Overflow i s t → f t = f s ∨ C)
    (h : exec i s = .next t) : f t = f s ∨ C := by
  rcases exec_cases h with ⟨_, _, rfl⟩ | ⟨_, code, _, _, rfl⟩ | ⟨_, he⟩ | ⟨_, u, hu, rfl⟩
  · exact .inl rfl
  · exact .inl (fault ..)
  · exact effect he
  · rw [fault]
    exact overflow hu

theorem exec_params (h : exec i s = .next t) : t.params = s.params := by
  refine (exec_view (·.params) (C := False) (fun _ _ _ => rfl) (fun he => .inl ?_) (fun hu => .inl ?_) h).resolve_right id
  · cases he
    case encBlock => exact advance_params ..
    all_goals rfl
  · rw [overflow_frame hu]

theorem illegalWord_params (w : Word) (s : State) : (illegalWord w s).params = s.params := by
  unfold illegalWord
  split <;> rfl

/-- Settles O56. -/
theorem noStepChangesTheParameters : Obligations.NoStepChangesTheParameters := by
  intro s t h
  rcases step_cases h with ⟨_, h⟩ | ⟨_, _, rest, _, _, h⟩ | ⟨w, rest, _, _, h⟩ | ⟨_, _, h⟩ | ⟨_, _, h⟩
  · cases h; rfl
  · exact exec_params (s := { s with inputs := rest }) h
  · cases h; exact illegalWord_params w _
  · cases h; rfl
  · cases h; rfl

/-! OUT -/

theorem effect_extends (h : Effect i s t) (hi : emptiesOut i = false) : Coder.Extends s.params s.coder t.coder := by
  cases h
  case passBegin | passAbort => cases hi
  case passEnd hf => exact shiftTimes_extends (.inl hf)
  case encBit he => exact (encodeDecision_extends (e := s.encoder) (.inl he)).1
  case encBlock he =>
    rw [advance_coder]
    exact (encodeAll_extends (e := s.encoder) (.inl he)).1
  all_goals exact Coder.Extends.refl s.params s.coder

/-- A command that does not start or abort a pass goes on from the payload as it is. -/
theorem exec_extends (h : exec i s = .next t) (hi : emptiesOut i = false) :
    Coder.Extends s.params s.coder t.coder := by
  rcases exec_cases h with ⟨_, _, rfl⟩ | ⟨_, _, _, _, rfl⟩ | ⟨_, he⟩ | ⟨_, u, hu, rfl⟩
  · exact Coder.Extends.refl ..
  · exact Coder.Extends.refl ..
  · exact effect_extends he hi
  · exact overflow_extends (t := u) hu

theorem effect_empties_out (h : Effect i s t) (hi : emptiesOut i = true) : t.out = [] := by
  cases h
  case passBegin | passAbort => rfl
  all_goals cases hi

theorem exec_empties_out (h : exec i s = .next t) (hi : emptiesOut i = true) (ht : t.state ≠ .fault) :
    t.out = [] := by
  rcases exec_cases h with ⟨hf, _, rfl⟩ | ⟨_, _, _, _, rfl⟩ | ⟨_, he⟩ | ⟨_, _, _, rfl⟩
  · exact absurd hf ht
  · exact absurd rfl ht
  · exact effect_empties_out he hi
  · exact absurd rfl ht

/-- The three commands that append to OUT are legal in ACTIVE only. -/
theorem exec_keeps_out (h : exec i s = .next t) (hi : emptiesOut i = false) (hs : s.state ≠ .active) :
    t.out = s.out := by
  refine (exec_view (·.out) (C := s.state = .active) (fun _ _ _ => rfl) (fun he => ?_) (fun hu => ?_) h).resolve_right hs
  · cases he
    case passBegin | passAbort => cases hi
    case passEnd | encBit | encBlock => right; assumption
    all_goals exact .inl rfl
  · cases hu <;> (right; assumption)

theorem exec_out_length (h : exec i s = .next t) (hs : s.out.length ≤ s.params.outCap.val) :
    t.out.length ≤ t.params.outCap.val := by
  rw [exec_params h]
  cases hi : emptiesOut i
  case false => exact (exec_extends h hi).2 hs
  case true =>
    rcases exec_cases h with ⟨_, _, rfl⟩ | ⟨_, _, _, _, rfl⟩ | ⟨_, he⟩ | ⟨_, u, hu, rfl⟩
    · exact hs
    · exact hs
    · rw [effect_empties_out he hi]
      exact Nat.zero_le _
    · exact (overflow_extends (t := u) hu).2 hs

/-- Settles O43. -/
theorem outIsAppendOnly : Obligations.OutIsAppendOnly :=
  ⟨fun _ _ _ h => ⟨fun hi => (exec_extends h hi).1, exec_keeps_out h, exec_empties_out h, exec_out_length h⟩,
    fun _ _ h => ⟨_, step_reset h, rfl⟩⟩

/-! Which commands write what -/

theorem exec_blk (h : exec i s = .next t) : t.blk = s.blk ∨ (∃ z v, i = .blkWr z v) ∨ i = .blkClr := by
  refine exec_view (·.blk) (fun _ _ _ => rfl) (fun he => ?_) (fun hu => .inl (by rw [overflow_frame hu])) h
  cases he
  case blkWr => exact .inr (.inl ⟨_, _, rfl⟩)
  case blkClr => exact .inr (.inr rfl)
  case encBlock => exact .inl (advance_blk ..)
  all_goals exact .inl rfl

theorem exec_qt (h : exec i s = .next t) : t.qt = s.qt ∨ ∃ c z v, i = .qtWr c z v := by
  refine exec_view (·.qt) (fun _ _ _ => rfl) (fun he => ?_) (fun hu => .inl (by rw [overflow_frame hu])) h
  cases he
  case qtWr => exact .inr ⟨_, _, _, rfl⟩
  case encBlock => exact .inl (advance_qt ..)
  all_goals exact .inl rfl

theorem exec_pt (h : exec i s = .next t) : t.pt = s.pt ∨ (∃ v, i = .ptWr v) ∨ (∃ all, i = .ptInit all) ∨
    i = .passBegin false ∨ (∃ c p a b, i = .encBit c p a b) ∨ ∃ c, i = .encBlock c := by
  refine exec_view (·.pt) (fun _ _ _ => rfl) (fun he => ?_) (fun hu => ?_) h
  · cases he
    case passBegin warm _ =>
      cases warm
      case false => exact .inr (.inr (.inr (.inl rfl)))
      case true => exact .inl rfl
    case ptWr => exact .inr (.inl ⟨_, rfl⟩)
    case ptInit => exact .inr (.inr (.inl ⟨_, rfl⟩))
    case encBit => exact .inr (.inr (.inr (.inr (.inl ⟨_, _, _, _, rfl⟩))))
    case encBlock => exact .inr (.inr (.inr (.inr (.inr ⟨_, rfl⟩))))
    all_goals exact .inl rfl
  · cases hu
    case passEnd => exact .inl rfl
    case encBit => exact .inr (.inr (.inr (.inr (.inl ⟨_, _, _, _, rfl⟩))))
    case encBlock => exact .inr (.inr (.inr (.inr (.inr ⟨_, rfl⟩))))

theorem exec_ptr (h : exec i s = .next t) :
    t.ptr = s.ptr ∨ (∃ c p a, i = .ptAddr c p a) ∨ (∃ v, i = .ptWr v) ∨ i = .ptRd := by
  refine exec_view (·.ptr) (fun _ _ _ => rfl) (fun he => ?_) (fun hu => .inl (by rw [overflow_frame hu])) h
  cases he
  case ptAddr => exact .inr (.inl ⟨_, _, _, rfl⟩)
  case ptWr => exact .inr (.inr (.inl ⟨_, rfl⟩))
  case ptRd => exact .inr (.inr (.inr rfl))
  case encBlock => exact .inl (advance_ptr ..)
  all_goals exact .inl rfl

theorem exec_status (h : exec i s = .next t) :
    (t.lastsel, t.codedLen) = (s.lastsel, s.codedLen) ∨ ∃ c, i = .encBlock c := by
  refine exec_view (fun u => (u.lastsel, u.codedLen)) (fun _ _ _ => rfl) (fun he => ?_) (fun hu => ?_) h
  · cases he
    case encBlock => exact .inr ⟨_, rfl⟩
    all_goals exact .inl rfl
  · cases hu
    case encBlock => exact .inr ⟨_, rfl⟩
    all_goals exact .inl rfl

theorem exec_width (h : exec i s = .next t) : t.width = s.width ∨ ∃ c v, i = .curW c v := by
  refine exec_view (·.width) (fun _ _ _ => rfl) (fun he => ?_) (fun hu => .inl (by rw [overflow_frame hu])) h
  cases he
  case curW => exact .inr ⟨_, _, rfl⟩
  case encBlock => exact .inl (advance_width ..)
  all_goals exact .inl rfl

theorem exec_nrows (h : exec i s = .next t) : t.nrows = s.nrows ∨ ∃ c v, i = .curH c v := by
  refine exec_view (·.nrows) (fun _ _ _ => rfl) (fun he => ?_) (fun hu => .inl (by rw [overflow_frame hu])) h
  cases he
  case curH => exact .inr ⟨_, _, rfl⟩
  case encBlock => exact .inl (advance_nrows ..)
  all_goals exact .inl rfl

/-- Settles O57, register by register. -/
theorem onlyTheNamedCommandsWrite : Obligations.OnlyTheNamedCommandsWrite := fun _ _ _ h =>
  ⟨(exec_blk h).resolve_left, (exec_qt h).resolve_left, (exec_pt h).resolve_left, (exec_ptr h).resolve_left,
    fun hne => (exec_status h).resolve_left fun hsame => by simp_all, (exec_width h).resolve_left,
    (exec_nrows h).resolve_left⟩

/-! Cells of other tables (40_table_manager.md R108) -/

theorem encodeDecision_other_table {P : Params} {r q : CellRef} {bit : Bool} {e d : Encoder}
    (h : encodeDecision P r bit e = .done d ∨ encodeDecision P r bit e = .overflow d)
    (hq : ¬ (q.ch = r.ch ∧ q.pos = r.pos)) : Memory.read d.pt q = Memory.read e.pt q :=
  (encodeDecision_cells h).2 q fun heq => hq (heq ▸ ⟨rfl, rfl⟩)

theorem serialize_other_table {c : Chan} {pos : Position} {q : CellRef} {d : Encoder}
    (h : serialize c pos s = .done d ∨ serialize c pos s = .overflow d) (hq : ¬ (q.ch = c ∧ q.pos = pos)) :
    Memory.read d.pt q = Memory.read s.pt q :=
  (encodeAll_extends (e := s.encoder) h).2.1 q hq

section

variable {q : CellRef} {ch : BitVec 2}

/-- A cell in no table that a command names is in another table than the one it names. -/
theorem not_mem_table {c : Chan} {pos : Position} (htable : tableOf s i ≠ some (q.ch, q.pos))
    (hnamed : tableOf s i = some (c, pos)) : ¬ (q.ch = c ∧ q.pos = pos) := by
  rintro ⟨rfl, rfl⟩
  exact htable hnamed

theorem tableOf_encBit {pos : BitVec 3} {cell : BitVec 13} {bit : Bool} {r : CellRef}
    (h : cellRef? ch pos cell = some r) : tableOf s (.encBit ch pos cell bit) = some (r.ch, r.pos) := by
  rw [tableOf, h]
  rfl

theorem tableOf_encBlock {c : Chan} (h : ch.toNat = c.val) :
    tableOf s (.encBlock ch) = some (c, nextPosition s c) := by
  rw [tableOf, channel?_some.mpr h]
  rfl

theorem effect_other_table (h : Effect i s t) (hinit : i ≠ .ptInit true) (hbegin : i ≠ .passBegin false)
    (htable : tableOf s i ≠ some (q.ch, q.pos)) : Memory.read t.pt q = Memory.read s.pt q := by
  cases h
  case passBegin warm _ =>
    cases warm
    case false => exact absurd rfl hbegin
    case true => rfl
  case ptWr => exact read_write_of_ne _ _ fun heq => not_mem_table htable rfl (heq ▸ ⟨rfl, rfl⟩)
  case ptInit all _ =>
    cases all
    case false => exact (read_initTable ..).trans (if_neg (not_mem_table htable rfl))
    case true => exact absurd rfl hinit
  case encBit hr _ he =>
    exact encodeDecision_other_table (e := s.encoder) (.inl he) (not_mem_table htable (tableOf_encBit hr))
  case encBlock hc _ _ he =>
    rw [advance_pt]
    exact serialize_other_table (.inl he) (not_mem_table htable (tableOf_encBlock hc))
  all_goals rfl

theorem overflow_other_table (h : Overflow i s t) (htable : tableOf s i ≠ some (q.ch, q.pos)) :
    Memory.read t.pt q = Memory.read s.pt q := by
  cases h
  case passEnd => rfl
  case encBit hr _ he =>
    exact encodeDecision_other_table (e := s.encoder) (.inr he) (not_mem_table htable (tableOf_encBit hr))
  case encBlock hc _ _ he => exact serialize_other_table (.inr he) (not_mem_table htable (tableOf_encBlock hc))

end

/-- Settles O58. -/
theorem codingTouchesOneTable : Obligations.CodingTouchesOneTable := fun _ _ _ h hinit hbegin q htable =>
  (exec_view (fun u => Memory.read u.pt q) (C := False) (fun _ _ _ => rfl)
    (fun he => .inl (effect_other_table he hinit hbegin htable))
    (fun hu => .inl (overflow_other_table hu htable)) h).resolve_right id

end Sys2Proof.Statements
end

section
/-! The decisions of a block: the coded length (10_state.md R35), the thresholds (43_token_serializer.md R171), the cells
of the decisions (40_table_manager.md R104) and their number (43_token_serializer.md R180). -/

namespace Sys2Proof.Statements

open Sys2Proof.Machine

variable {blk qt : Vector Half 64} {t : Token}

/-! The coded length -/

/-- One step of `codedLength` along the zigzag indices. -/
def lastNonzero (blk : Vector Half 64) (n : Nat) (z : ZIndex) : Nat := if blk[z] = 0 then n else z.val + 1

theorem codedLength_eq (blk : Vector Half 64) :
    codedLength blk = (List.finRange 64).foldl (lastNonzero blk) 0 := rfl

theorem foldl_lastNonzero_of_zero {l : List ZIndex} (h : ∀ z ∈ l, blk[z] = 0) (n : Nat) :
    l.foldl (lastNonzero blk) n = n := by
  induction l with
  | nil => rfl
  | cons z rest ih =>
    rw [List.foldl_cons, lastNonzero, if_pos (h z (by simp))]
    exact ih fun y hy => h y (by simp [hy])

theorem foldl_lastNonzero_le {l : List ZIndex} {n : Nat} (hn : n ≤ 64) :
    l.foldl (lastNonzero blk) n ≤ 64 := by
  induction l generalizing n with
  | nil => exact hn
  | cons z rest ih =>
    refine ih ?_
    unfold lastNonzero
    split
    · exact hn
    · exact z.isLt

theorem codedLength_le (blk : Vector Half 64) : codedLength blk ≤ 64 := foldl_lastNonzero_le (by decide)

/-- Behind the last nonzero coefficient the count does not move. -/
theorem codedLength_of_last {z : ZIndex} (hz : blk[z] ≠ 0) (hlast : ∀ y : ZIndex, z < y → blk[y] = 0) :
    codedLength blk = z.val + 1 := by
  obtain ⟨before, after, hsplit⟩ := List.append_of_mem (List.mem_finRange z)
  have sorted := List.pairwise_lt_finRange 64
  rw [hsplit] at sorted
  have hafter : ∀ y ∈ after, z < y := (List.pairwise_cons.mp (List.pairwise_append.mp sorted).2.1).1
  rw [codedLength_eq, hsplit, List.foldl_append, List.foldl_cons, lastNonzero, if_neg hz]
  exact foldl_lastNonzero_of_zero (fun y hy => hlast y (hafter y hy)) _

/-- Settles O47. -/
theorem codedLengthIsTheLastNonzero : Obligations.CodedLengthIsTheLastNonzero := fun blk =>
  ⟨fun h => foldl_lastNonzero_of_zero (fun z _ => h z) 0, fun _ => codedLength_of_last, codedLength_le blk⟩

/-! Thresholds -/

theorem flog2_eq {n : Nat} (h : n ≠ 0) : flog2 n = Nat.log2 n := by
  rw [flog2, bitlen_of_pos h, Nat.add_sub_cancel]

/-- A step of bit length k + 1, or the step 0 as 1, has the threshold 4 − k (R171). -/
theorem thr_eq {q : Half} {k : Nat} (hlo : 2 ^ k ≤ max q.toNat 1) (hhi : max q.toNat 1 < 2 ^ (k + 1)) :
    thr q = 4 - k := by
  have hne : max q.toNat 1 ≠ 0 := by omega
  rw [thr, flog2_eq hne, (Nat.log2_eq_iff hne).mpr ⟨hlo, hhi⟩]

/-- Settles O48. -/
theorem thresholdsOfAllSteps : Obligations.ThresholdsOfAllSteps := by
  intro q
  refine ⟨fun h => ?_, fun h h' => ?_, fun h h' => ?_, fun h h' => ?_, fun h => ?_⟩
  · exact thr_eq (k := 0) (by omega) (by omega)
  · exact thr_eq (k := 1) (by omega) (by omega)
  · exact thr_eq (k := 2) (by omega) (by omega)
  · exact thr_eq (k := 3) (by omega) (by omega)
  · have hne : max q.toNat 1 ≠ 0 := by omega
    have hlog : 4 ≤ Nat.log2 (max q.toNat 1) := (Nat.le_log2 hne).mpr (by omega)
    rw [thr, flog2_eq hne]
    omega

/-! The cells of the decisions -/

/-- The decision has a cell in the domain of R104. -/
def HasCell (t : Token) : Prop := InDomain t.cls t.p t.b t.i

theorem hasCell_mk {k : TokenClass} {p b i : Nat} {bit : Bool} (hp : p < k.shape.npos) (hb : b < k.shape.nbucket)
    (hi : i < k.shape.nidx) : HasCell ⟨k, p, b, i, bit⟩ := inDomain_iff.mpr ⟨hp, hb, hi⟩

/-- A run of ones has a cell for each index up to its closing zero. -/
theorem hasCell_unary {k : TokenClass} {p b n : Nat} {closed : Bool} (hp : p < k.shape.npos)
    (hb : b < k.shape.nbucket) (hn : n + closed.toNat ≤ k.shape.nidx) : ∀ t ∈ unary k p b n closed, HasCell t := by
  intro t ht
  rcases mem_unary.mp ht with ⟨i, hi, rfl⟩ | ⟨rfl, rfl⟩
  · exact hasCell_mk hp hb (by omega)
  · exact hasCell_mk hp hb hn

theorem hasCell_phase1 : ∀ t ∈ phase1 blk, HasCell t := by
  intro t ht
  obtain ⟨rc, hrc, rfl⟩ := List.mem_map.mp ht
  obtain ⟨_, hr, _, hc⟩ := mem_subgrid hrc
  have hleft := nz77_le blk rc.1 (rc.2 - 1)
  have htop := nz77_le blk (rc.1 - 1) rc.2
  have hcorner := nz77_le blk (rc.1 - 1) (rc.2 - 1)
  exact hasCell_mk (p77_lt hr hc) (by simp only [TokenClass.shape]; omega) (by decide)

/-- A run that stops at its cap has cells for all its indices (R165). -/
theorem closed_le {e cap : Nat} (h : e ≤ cap) : e + (decide (e < cap)).toNat ≤ cap := by
  by_cases hlt : e < cap
  · rw [decide_eq_true hlt]; exact hlt
  · rw [decide_eq_false hlt]; exact h

theorem pred_closed_le {e : Nat} (h : e ≤ 16) : e - 1 + (decide (e < 16)).toNat ≤ 15 := by
  have := closed_le h
  have := Bool.toNat_le (decide (e < 16))
  omega

theorem hasCell_dcDecisions {v : Int} (h : expClass v ≤ 16) : ∀ t ∈ dcDecisions v, HasCell t := by
  unfold dcDecisions
  simp only [List.forall_mem_append, List.forall_mem_map]
  refine ⟨⟨hasCell_unary (by decide) (by decide) (closed_le h), fun k hk => ?_⟩, fun t ht => ?_⟩
  · have := mem_residualBits.mp hk
    exact hasCell_mk (by decide) (by decide) (by simp only [TokenClass.shape]; omega)
  · split at ht
    · obtain rfl := List.mem_singleton.mp ht
      exact hasCell_mk (by decide) (by decide) (by decide)
    · cases ht

/-- A residual bit of the sub-grid has an index in the class of its side of the threshold (R175). -/
theorem hasCell_residual77 {b q a k : Nat} (hb : b < 4) (hq : q ≤ 4) (hk : k < 15) :
    HasCell (residual77 b q a k) := by
  unfold residual77
  split
  · exact hasCell_mk (by decide) hb (by simp only [TokenClass.shape]; omega)
  · exact hasCell_mk (by decide) (by decide) (by simp only [TokenClass.shape]; omega)

theorem hasCell_interior {r c : Nat} (hr : r ≤ 7) (hc : c ≤ 7) : ∀ t ∈ Machine.interior blk qt r c, HasCell t := by
  have hclass := expClass_coef_le blk r c
  have hleft := s77_le blk r (c - 1)
  have htop := s77_le blk (r - 1) c
  unfold Machine.interior
  dsimp only
  split
  · nofun
  simp only [List.forall_mem_append, List.forall_mem_map, List.forall_mem_singleton]
  refine ⟨⟨hasCell_unary (p77_lt hr hc) ?_ (pred_closed_le hclass), fun k hk => ?_⟩, ?_⟩
  · simp only [TokenClass.shape]; omega
  · have := mem_residualBits.mp hk
    exact hasCell_residual77 (by omega) (thr_le _) (by omega)
  · exact hasCell_mk (by decide) (by simp only [TokenClass.shape]; omega) (by decide)

theorem hasCell_stripNonzero {v : Int} {pe prevE prevS : Nat} (hv : expClass v ≤ 16) (hpe : pe < 14)
    (hsign : prevS ≤ 2) : ∀ t ∈ stripNonzero v pe prevE prevS, HasCell t := by
  unfold stripNonzero
  simp only [List.forall_mem_append, List.forall_mem_map, List.forall_mem_singleton]
  refine ⟨⟨hasCell_unary hpe ?_ (pred_closed_le hv), fun k hk => ?_⟩, ?_⟩
  · simp only [TokenClass.shape]; omega
  · have := mem_residualBits.mp hk
    exact hasCell_mk hpe (by decide) (by simp only [TokenClass.shape]; omega)
  · exact hasCell_mk hpe (by simp only [TokenClass.shape]; omega) (by decide)

/-- The rest of a strip: its positions end before 14, its run before 7. -/
theorem hasCell_strip {l : List Int} {pe run prevE prevS : Nat} (hl : ∀ v ∈ l, expClass v ≤ 16)
    (hpe : pe + l.length ≤ 14) (hrun : run + l.length ≤ 7) (hsign : prevS ≤ 2) :
    ∀ t ∈ strip l pe run prevE prevS, HasCell t := by
  induction l generalizing pe run prevE prevS with
  | nil => nofun
  | cons v rest ih =>
    rw [List.length_cons] at hpe hrun
    have next {run' prevE' prevS' : Nat} (hrun' : run' + rest.length ≤ 7) (hsign' : prevS' ≤ 2) :=
      ih (pe := pe + 1) (prevE := prevE') (fun x hx => hl x (by simp [hx])) (by omega) hrun' hsign'
    have flag (bit : Bool) : HasCell ⟨.zrunE, pe, run, 0, bit⟩ :=
      hasCell_mk (by simp only [TokenClass.shape]; omega) (by simp only [TokenClass.shape]; omega) (by decide)
    unfold strip
    split
    · exact List.forall_mem_cons.mpr ⟨flag _, next (by omega) (by decide)⟩
    · have here := hasCell_stripNonzero (prevE := prevE) (hl v (by simp)) (pe := pe) (by omega) hsign
      exact List.forall_mem_cons.mpr ⟨flag _, List.forall_mem_append.mpr ⟨here, next (by omega) (signCode_le v)⟩⟩

theorem rowStrip_length (blk : Vector Half 64) : (rowStrip blk).length = 7 := by simp [rowStrip]

theorem colStrip_length (blk : Vector Half 64) : (colStrip blk).length = 7 := by simp [colStrip]

/-- Settles O49, phase by phase. -/
theorem decisionsUseLegalCells : Obligations.DecisionsUseLegalCells := by
  intro blk qt t ht
  have row : ∀ v ∈ rowStrip blk, expClass v ≤ 16 := fun v hv => expClass_le (natAbs_le_of_mem_rowStrip blk v hv)
  have col : ∀ v ∈ colStrip blk, expClass v ≤ 16 := fun v hv => expClass_le (natAbs_le_of_mem_colStrip blk v hv)
  have phase3 : ∀ t ∈ phase3 blk qt, HasCell t := by
    intro t ht
    obtain ⟨rc, hrc, ht⟩ := List.mem_flatMap.mp ht
    obtain ⟨_, hr, _, hc⟩ := mem_subgrid hrc
    exact hasCell_interior hr hc t ht
  have all : ∀ t ∈ tokens blk qt, HasCell t := by
    unfold tokens phase4
    simp only [List.forall_mem_append]
    exact ⟨⟨⟨hasCell_phase1, hasCell_dcDecisions (expClass_coef_le blk 0 0)⟩, phase3⟩,
      hasCell_strip row (by rw [rowStrip_length]; decide) (by rw [rowStrip_length]) (by decide),
      hasCell_strip col (by rw [colStrip_length]) (by rw [colStrip_length]) (by decide)⟩
  exact all t ht

/-! The number of the decisions -/

/-- The decisions of a coefficient outside DC, but for its zero flag or zero-run flag; see `interior_length` and
`stripNonzero_length`. -/
def coefCount (v : Int) : Nat :=
  if v = 0 then 0
  else (expClass v - 1) + (decide (expClass v < 16)).toNat + (expClass v - 1) + 1

theorem coefCount_le {v : Int} (h : expClass v ≤ 16) : coefCount v ≤ 31 := by
  have := pred_closed_le h
  unfold coefCount
  split <;> omega

/-- The decisions of a DC coefficient. -/
theorem dcDecisions_length (v : Int) : (dcDecisions v).length =
    expClass v + (decide (expClass v < 16)).toNat + (expClass v - 1) + (decide (1 ≤ expClass v)).toNat := by
  unfold dcDecisions
  by_cases h : 1 ≤ expClass v
  · simp [h]
    omega
  · simp [h]

theorem dcDecisions_length_bounds {v : Int} (h : expClass v ≤ 16) :
    1 ≤ (dcDecisions v).length ∧ (dcDecisions v).length ≤ 32 := by
  have hclosed := closed_le h
  rw [dcDecisions_length]
  by_cases hpos : 1 ≤ expClass v
  · rw [decide_eq_true hpos, Bool.toNat_true]
    omega
  · have hzero : expClass v = 0 := by omega
    rw [hzero]
    decide

theorem strip_length (l : List Int) (pe run prevE prevS : Nat) :
    (strip l pe run prevE prevS).length = l.length + (l.map coefCount).sum := by
  induction l generalizing pe run prevE prevS with
  | nil => rfl
  | cons v rest ih =>
    unfold strip
    split
    · next hv =>
      simp [ih, coefCount, hv]
      omega
    · next hv =>
      simp [ih, coefCount, hv, stripNonzero_length]
      omega

/-- The coefficients outside DC: the sub-grid, then the strips. -/
def otherCoefs (blk : Vector Half 64) : List Int :=
  subgrid.map (fun rc => coef blk rc.1 rc.2) ++ (rowStrip blk ++ colStrip blk)

theorem tokens_length (blk qt : Vector Half 64) : (tokens blk qt).length =
    63 + (dcDecisions (coef blk 0 0)).length + ((otherCoefs blk).map coefCount).sum := by
  have hphase1 : (phase1 blk).length = 49 := by rw [phase1, List.length_map, subgrid_length]
  have hphase3 : (phase3 blk qt).length = ((subgrid.map fun rc => coef blk rc.1 rc.2).map coefCount).sum := by
    rw [phase3, List.length_flatMap, List.map_map]
    exact congrArg List.sum (List.map_congr_left fun rc _ => interior_length ..)
  have hstrips : (phase4 blk).length =
      14 + (((rowStrip blk).map coefCount).sum + ((colStrip blk).map coefCount).sum) := by
    rw [phase4, List.length_append, strip_length, strip_length, rowStrip_length, colStrip_length]
    omega
  rw [tokens, List.length_append, List.length_append, List.length_append, hphase1, hphase3, hstrips, phase2_eq,
    otherCoefs, List.map_append, List.map_append, List.sum_append, List.sum_append]
  omega

theorem otherCoefs_length (blk : Vector Half 64) : (otherCoefs blk).length = 63 := by
  simp [otherCoefs, subgrid_length, rowStrip_length, colStrip_length]

/-- What holds of every coefficient holds of those outside DC. -/
theorem forall_mem_otherCoefs {p : Int → Prop} (h : ∀ r c, p (coef blk r c)) : ∀ v ∈ otherCoefs blk, p v := by
  simp only [otherCoefs, rowStrip, colStrip, List.forall_mem_append, List.forall_mem_map]
  exact ⟨fun _ _ => h .., fun _ _ => h .., fun _ _ => h ..⟩

theorem coef_eq_of_all {u : Half} (h : ∀ z : ZIndex, blk[z] = u) (r c : Nat) : coef blk r c = sext16 u :=
  congrArg sext16 (h _)

/-- A block of one value makes the same decisions in number for each coefficient. -/
theorem tokens_length_of_all {u : Half} (h : ∀ z : ZIndex, blk[z] = u) :
    (tokens blk qt).length = 63 + (dcDecisions (sext16 u)).length + 63 * coefCount (sext16 u) := by
  have hmap : (otherCoefs blk).map coefCount = List.replicate 63 (coefCount (sext16 u)) := by
    rw [← otherCoefs_length blk]
    refine List.map_eq_replicate_iff.mpr ?_
    exact forall_mem_otherCoefs fun r c => congrArg coefCount (coef_eq_of_all h r c)
  rw [tokens_length, hmap, coef_eq_of_all h, List.sum_replicate, smul_eq_mul]

/-- Settles O50: each of 63 coefficients makes at most 31 decisions beside its flag, DC 1 to 32. -/
theorem blocksMake64To2048Decisions : Obligations.BlocksMake64To2048Decisions := by
  refine ⟨fun blk qt => ?_, fun blk qt h => ?_, fun blk qt h => ?_⟩
  · obtain ⟨hmin, hmax⟩ := dcDecisions_length_bounds (expClass_coef_le blk 0 0)
    have hsum : ((otherCoefs blk).map coefCount).sum ≤ 63 * 31 := by
      have := List.sum_le_card_nsmul ((otherCoefs blk).map coefCount) 31
        (List.forall_mem_map.mpr (forall_mem_otherCoefs fun r c => coefCount_le (expClass_coef_le blk r c)))
      rwa [List.length_map, otherCoefs_length] at this
    rw [tokens_length]
    omega
  · rw [tokens_length_of_all h]
    decide
  · rw [tokens_length_of_all h]
    decide

end Sys2Proof.Statements
end

section
/-! Coding a block (43_token_serializer.md R169): from a legal coder and legal cells every decision completes or raises
OUT_OVERFLOW, and so does a list of them. -/

namespace Sys2Proof.Statements

open Sys2Proof.Machine

variable {P : Params} {e e' d : Encoder} {r : CellRef} {bit : Bool} {ds : List (CellRef × Bool)} {s : State}
  {n m : Nat}

/-- Between decisions: the coder has R146, every cell R107. -/
structure LegalEncoder (e : Encoder) : Prop where
  coder : e.coder.Legal
  cells : Memory.legal e.pt

/-- What `n` completed decisions leave: at most `n` bytes more, appended or held back, and OUT no longer than it was
or than OUT_CAP. -/
structure DecisionsMade (P : Params) (n : Nat) (e e' : Encoder) : Prop where
  legal : LegalEncoder e'
  out_prefix : e.coder.out <+: e'.coder.out
  count_le : e'.coder.out.length + e'.coder.pend ≤ e.coder.out.length + e.coder.pend + n
  length_le : e'.coder.out.length ≤ max e.coder.out.length P.outCap.val

theorem DecisionsMade.none (he : LegalEncoder e) : DecisionsMade P 0 e e :=
  ⟨he, List.prefix_refl _, le_rfl, le_max_left ..⟩

theorem DecisionsMade.trans (h : DecisionsMade P n e d) (h' : DecisionsMade P m d e') :
    DecisionsMade P (n + m) e e' := by
  have hcount := h.count_le
  have hcount' := h'.count_le
  have hlength := h.length_le
  have hlength' := h'.length_le
  exact ⟨h'.legal, h.out_prefix.trans h'.out_prefix, by omega, by omega⟩

/-- What is left where the last of `n` decisions raises OUT_OVERFLOW: OUT is full, and it had less room than for a byte
from each decision before, beside those held back. -/
structure Overflowed (P : Params) (n : Nat) (e e' : Encoder) : Prop where
  out_prefix : e.coder.out <+: e'.coder.out
  length_eq : e'.coder.out.length = max e.coder.out.length P.outCap.val
  room_lt : P.outCap.val + 1 < e.coder.out.length + e.coder.pend + n

theorem Overflowed.after (h : DecisionsMade P n e d) (h' : Overflowed P m d e') : Overflowed P (n + m) e e' := by
  have hcount := h.count_le
  have hlength := h.length_le
  have hlength' := h'.length_eq
  have hprefix := h.out_prefix.length_le
  have hroom := h'.room_lt
  exact ⟨h.out_prefix.trans h'.out_prefix, by omega, by omega⟩

/-! One decision -/

theorem shiftLow_length_le {c d : Coder} (h : shiftLow P c = .ok d) :
    d.out.length ≤ max c.out.length P.outCap.val := by
  rcases shiftLow_ok h with ⟨_, hroom, rfl⟩ | ⟨_, rfl⟩
  · simp only [flushed, List.length_append, heldBytes_length]
    omega
  · exact le_max_left ..

/-- A decision completes or raises OUT_OVERFLOW. -/
theorem encodeDecision_outcome (P : Params) (r : CellRef) (bit : Bool) (he : LegalEncoder e) :
    (∃ e', encodeDecision P r bit e = .done e' ∧ DecisionsMade P 1 e e') ∨
    ∃ e', encodeDecision P r bit e = .overflow e' ∧ Overflowed P 1 e e' := by
  have hout := narrow_out (Memory.read e.pt r) bit e.coder
  have hpend := narrow_pend (Memory.read e.pt r) bit e.coder
  have hcells := legal_write he.cells r (legal_adapt (he.cells r) bit)
  rcases encodeDecision_cases (P := P) (bit := bit) he.coder (he.cells r) with
    ⟨hwide, heq⟩ | ⟨hnarrow, d, hd, heq⟩ | ⟨_, d, hd, heq⟩
  · refine .inl ⟨_, heq, ⟨legal_of_wide he.coder (he.cells r) hwide, hcells⟩, ?_, ?_, ?_⟩ <;> dsimp only
    · rw [hout]
    · rw [hout, hpend]; exact Nat.le_succ _
    · rw [hout]; exact le_max_left ..
  · obtain ⟨hlegal, hprefix, hcount⟩ := legal_of_shift he.coder (he.cells r) hnarrow hd
    have hlength : d.out.length ≤ max (narrow (Memory.read e.pt r) bit e.coder).out.length P.outCap.val :=
      shiftLow_length_le (c := widened (narrow (Memory.read e.pt r) bit e.coder)) hd
    rw [hout] at hlength
    exact .inl ⟨_, heq, ⟨hlegal, hcells⟩, hprefix, hcount.le, hlength⟩
  · obtain ⟨_, hfull⟩ := (shift_overflows_iff (c := widened (narrow (Memory.read e.pt r) bit e.coder))
      (hpend ▸ he.coder.pend_pos)).mp ⟨d, hd⟩
    have hfull' : P.outCap.val < (narrow (Memory.read e.pt r) bit e.coder).out.length +
      (narrow (Memory.read e.pt r) bit e.coder).pend := hfull
    obtain ⟨l, _, rfl, hlength⟩ := shiftLow_error hd
    rw [hout, hpend] at hfull'
    refine .inr ⟨_, heq, ?_, ?_, Nat.succ_lt_succ hfull'⟩ <;> dsimp only at hlength ⊢
    · rw [hout]; exact List.prefix_append ..
    · rw [hlength, hout]

theorem encodeDecision_made (he : LegalEncoder e) (h : encodeDecision P r bit e = .done e') :
    DecisionsMade P 1 e e' := by
  rcases encodeDecision_outcome P r bit he with ⟨d, hd, made⟩ | ⟨d, hd, _⟩
  · obtain rfl := Coded.done.inj (hd.symm.trans h)
    exact made
  · cases hd.symm.trans h

theorem encodeDecision_overflowed (he : LegalEncoder e) (h : encodeDecision P r bit e = .overflow e') :
    Overflowed P 1 e e' := by
  rcases encodeDecision_outcome P r bit he with ⟨d, hd, _⟩ | ⟨d, hd, overflowed⟩
  · cases hd.symm.trans h
  · obtain rfl := Coded.overflow.inj (hd.symm.trans h)
    exact overflowed

/-! Lists of decisions -/

theorem codeList_cons_done {x : CellRef × Bool} (h : encodeDecision P x.1 x.2 e = .done e') :
    codeList P (x :: ds) e = codeList P ds e' := by
  rw [codeList, h]

theorem codeList_cons_overflow {x : CellRef × Bool} (h : encodeDecision P x.1 x.2 e = .overflow e') :
    codeList P (x :: ds) e = .overflow e' := by
  rw [codeList, h]

/-- A list of decisions is coded whole, or one of them raises OUT_OVERFLOW after the ones before it are coded. -/
theorem codeList_outcome (P : Params) (ds : List (CellRef × Bool)) (he : LegalEncoder e) :
    (∃ e', codeList P ds e = .done e' ∧ DecisionsMade P ds.length e e') ∨
    ∃ e' coded x rest d, codeList P ds e = .overflow e' ∧ ds = coded ++ x :: rest ∧
      codeList P coded e = .done d ∧ encodeDecision P x.1 x.2 d = .overflow e' ∧
      Overflowed P (coded.length + 1) e e' := by
  induction ds generalizing e with
  | nil => exact .inl ⟨e, rfl, .none he⟩
  | cons x ds ih =>
    rcases encodeDecision_outcome P x.1 x.2 he with ⟨d, hd, made⟩ | ⟨d, hd, overflowed⟩
    · rw [codeList_cons_done hd]
      rcases ih made.legal with ⟨e', he', rest⟩ | ⟨e', coded, y, rest, d', he', hds, hcoded, hy, overflowed⟩
      · refine .inl ⟨e', he', ?_⟩
        rw [List.length_cons, Nat.add_comm]
        exact made.trans rest
      · refine .inr ⟨e', x :: coded, y, rest, d', he', by rw [hds]; rfl, ?_, hy, ?_⟩
        · rw [codeList_cons_done hd, hcoded]
        · rw [List.length_cons, Nat.add_comm coded.length, Nat.add_assoc]
          exact Overflowed.after made overflowed
    · exact .inr ⟨d, [], x, ds, e, codeList_cons_overflow hd, rfl, rfl, hd, overflowed⟩

theorem codeList_made (he : LegalEncoder e) (h : codeList P ds e = .done e') : DecisionsMade P ds.length e e' := by
  rcases codeList_outcome P ds he with ⟨d, hd, made⟩ | ⟨d, _, _, _, _, hd, _⟩
  · obtain rfl := Coded.done.inj (hd.symm.trans h)
    exact made
  · cases hd.symm.trans h

/-- Coding a block's decisions is coding that list. -/
theorem encodeAll_eq_codeList (ch : Chan) (pos : Position) (l : List Token) (e : Encoder) :
    encodeAll P ch pos l e = codeList P (l.map fun k => (k.ref ch pos, k.bit)) e := by
  induction l generalizing e with
  | nil => rfl
  | cons t rest ih =>
    rw [encodeAll, List.map_cons, codeList]
    cases encodeDecision P (t.ref ch pos) t.bit e <;> simp [ih]

theorem serialize_eq_codeList (c : Chan) (pos : Position) (s : State) :
    serialize c pos s = codeList s.params (decisions s c pos) s.encoder := encodeAll_eq_codeList ..

/-! ENC_BLOCK -/

/-- LASTSEL as a number (10_state.md R34). -/
theorem lastselWord_toNat (c : Chan) (p : Position) : (lastselWord c p).toNat =
    p.code + 8 * p.label.left.toNat + 16 * p.label.top.toNat + 32 * p.label.topRight.toNat + 64 * c.val := by
  have hc := c.isLt
  rw [lastselWord, toNat_concat, BitVec.toNat_ofNat, Nat.mod_eq_of_lt (by omega)]
  cases p <;> rfl

theorem codedLen_toNat (blk : Vector Half 64) : (BitVec.ofNat 7 (codedLength blk)).toNat = codedLength blk := by
  have := codedLength_le blk
  rw [BitVec.toNat_ofNat, Nat.mod_eq_of_lt (by omega)]

/-- `Advance` on a state with the cursors and widths of `s` moves them as it does in `s`. -/
theorem advance_of_same_cursors (c : Chan) (u s : State) (hwidth : u.width = s.width) (hrow : u.row = s.row)
    (hcol : u.col = s.col) (hblkpos : u.blkpos = s.blkpos) : advance c u =
      { u with row := (advance c s).row, col := (advance c s).col, blkpos := (advance c s).blkpos } := by
  rw [advance_fields c u, advance_row, advance_row, advance_col, advance_col, advance_blkpos, advance_blkpos, hwidth,
    hrow, hcol, hblkpos]

/-- Settles O46, by the two ways in which coding the block's decisions can end. -/
theorem encBlockEncodesTheBlock : Obligations.EncBlockEncodesTheBlock := by
  intro s ch c hs hc hx hlegal hcells pos ds
  have he : LegalEncoder s.encoder := ⟨hlegal, hcells⟩
  have hexec := exec_encBlock hs hc hx
  rw [serialize_eq_codeList] at hexec
  have hlength : ds.length ≤ 2048 := by
    have := (blocksMake64To2048Decisions.1 s.blk s.qt[c]).2
    rwa [← List.length_map] at this
  refine ⟨lastselWord c pos, BitVec.ofNat 7 (codedLength s.blk), lastselWord_toNat c pos, codedLen_toNat s.blk,
    fun e h => ?_, fun e h => ?_, ?_, fun hroom => ?_⟩
  · have hcode : codeList s.params (decisions s c (nextPosition s c)) s.encoder = .done e := h
    rw [hexec, hcode]
    exact congrArg Host.Outcome.next (advance_of_same_cursors c ((recordBlock c s).withEncoder e) s rfl rfl rfl rfl)
  · have hcode : codeList s.params (decisions s c (nextPosition s c)) s.encoder = .overflow e := h
    rw [hexec, hcode]
    rcases codeList_outcome s.params ds he with ⟨d, hd, _⟩ | ⟨d, coded, x, rest, e', hd, hds, hcoded, hx, overflowed⟩
    · cases hd.symm.trans h
    · obtain rfl := Coded.overflow.inj (hd.symm.trans h)
      exact ⟨rfl, ⟨coded, x, rest, e', hds, hcoded, hx⟩, overflowed.length_eq⟩
  · have cells {e : Encoder} (h : codeList s.params ds s.encoder = .done e ∨ codeList s.params ds s.encoder = .overflow e)
        (r : CellRef) (hr : ¬ (r.ch = c ∧ r.pos = pos)) : Memory.read e.pt r = Memory.read s.pt r :=
      serialize_other_table (by rw [serialize_eq_codeList]; exact h) hr
    rcases codeList_outcome s.params ds he with ⟨d, hd, made⟩ | ⟨d, _, _, _, _, hd, _, _, _, overflowed⟩
    · exact ⟨d, .inl hd, made.out_prefix, cells (.inl hd)⟩
    · exact ⟨d, .inr hd, overflowed.out_prefix, cells (.inr hd)⟩
  · rcases codeList_outcome s.params ds he with ⟨d, hd, _⟩ | ⟨_, coded, x, rest, _, _, hds, _, _, overflowed⟩
    · exact ⟨d, hd⟩
    · have hcoded : coded.length + 1 ≤ ds.length := by
        rw [hds, List.length_append, List.length_cons]
        omega
      have hlt : s.params.outCap.val + 1 < s.out.length + s.pend + (coded.length + 1) := overflowed.room_lt
      omega

end Sys2Proof.Statements
end

section
/-! The invariant of the machine (`StateInv`): each of its clauses is kept by every command, and the ports and reset
keep it too. -/

namespace Sys2Proof.Statements

open Sys2Proof.Machine

variable {i : Instr} {s t : State} {ch c d : Chan}

/-! Cursors (10_state.md R31, R32) -/

/-- A cursor is legal wherever its registers have the values of a legal one. -/
theorem cursorLegal_of_eq (h : CursorLegal s ch) (hwidth : t.width[ch] = s.width[ch])
    (hnrows : t.nrows[ch] = s.nrows[ch]) (hrow : t.row[ch] = s.row[ch]) (hcol : t.col[ch] = s.col[ch])
    (hblkpos : t.blkpos[ch] = s.blkpos[ch]) : CursorLegal t ch := by
  obtain ⟨hlt, hle, hend, hcount⟩ := h
  refine ⟨?_, ?_, ?_, ?_⟩ <;> simp only [hwidth, hnrows, hrow, hcol, hblkpos] <;> assumption

/-- A command that writes no cursor and no dimension. -/
theorem cursors_of_same (h : ∀ ch, CursorLegal s ch) (hwidth : t.width = s.width) (hnrows : t.nrows = s.nrows)
    (hrow : t.row = s.row) (hcol : t.col = s.col) (hblkpos : t.blkpos = s.blkpos) : ∀ ch, CursorLegal t ch :=
  fun ch => cursorLegal_of_eq (h ch) (by rw [hwidth]) (by rw [hnrows]) (by rw [hrow]) (by rw [hcol]) (by rw [hblkpos])

theorem cursorLegal_home (hrow : t.row[ch] = 0) (hcol : t.col[ch] = 0) (hblkpos : t.blkpos[ch] = 0) :
    CursorLegal t ch := by
  refine ⟨?_, ?_, fun _ => hcol, ?_⟩
  · rw [hcol]
    by_cases h : t.width[ch] = 0
    · exact .inr ⟨h, rfl⟩
    · exact .inl (Nat.pos_of_ne_zero fun h' => h (half_eq_zero_iff.mp h'))
  · rw [hrow]; exact Nat.zero_le _
  · rw [hrow, hcol, hblkpos]; simp

/-- CUR_W and CUR_H: the channel's cursor is home, the others stand where they stood. -/
theorem cursors_homeCursor (h : ∀ ch, CursorLegal s ch) (u : State)
    (hwidth : ∀ d, d ≠ c → u.width[d] = s.width[d]) (hnrows : ∀ d, d ≠ c → u.nrows[d] = s.nrows[d])
    (hrow : u.row = s.row) (hcol : u.col = s.col) (hblkpos : u.blkpos = s.blkpos) :
    ∀ d, CursorLegal (homeCursor c u) d := by
  intro d
  obtain ⟨hr, hc, hb⟩ := homeCursor_at u c d
  by_cases hd : d = c
  · rw [if_pos hd] at hr hc hb
    exact cursorLegal_home hr hc hb
  · rw [if_neg hd] at hr hc hb
    exact cursorLegal_of_eq (h d) (hwidth d hd) (hnrows d hd) (by rw [hr, hrow]) (by rw [hc, hcol])
      (by rw [hb, hblkpos])

theorem cursors_allHome (hrow : t.row = .replicate 3 0) (hcol : t.col = .replicate 3 0)
    (hblkpos : t.blkpos = .replicate 3 0) : ∀ ch, CursorLegal t ch := fun ch =>
  cursorLegal_home (by simp [hrow]) (by simp [hcol]) (by simp [hblkpos])

/-- `Advance` of a channel with a block left goes to the next block of the raster, or past the last one. -/
theorem cursors_advance (h : ∀ ch, CursorLegal s ch) (hx : exhausted s c = false) :
    ∀ d, CursorLegal (advance c s) d := by
  intro d
  by_cases hd : d = c
  · subst hd
    obtain ⟨hcol, hrow, _, hcount⟩ := h d
    obtain ⟨hwidth, hopen⟩ := not_exhausted_iff.mp hx
    have hcol' : s.col[d].toNat < s.width[d].toNat := hcol.resolve_right fun hz => hwidth hz.1
    have hblkpos : (advance d s).blkpos[d].toNat = s.blkpos[d].toNat + 1 := by
      have hlt := raster_lt hopen hcol'
      have hw : s.width[d].toNat ≤ 2 ^ 16 - 1 := Nat.le_sub_one_of_lt s.width[d].isLt
      have hn : s.nrows[d].toNat ≤ 2 ^ 16 - 1 := Nat.le_sub_one_of_lt s.nrows[d].isLt
      have hmul := Nat.mul_le_mul hw hn
      rw [advance_blkpos_toNat, Nat.mod_eq_of_lt (by omega)]
    obtain ⟨hraster, hcol1, hrow1, _⟩ := advanceWalksTheRaster s d hcol' hopen
    refine ⟨?_, ?_, fun hlast => ?_, ?_⟩
    · rw [advance_width]; exact .inl hcol1
    · rw [advance_nrows]; exact hrow1
    · rw [advance_nrows] at hlast
      rcases advance_toNat hcol' hopen with ⟨_, _, hzero⟩ | ⟨_, hsame, _⟩
      · exact half_eq_zero_iff.mp hzero
      · rw [hlast] at hsame
        omega
    · rw [advance_width, hblkpos, hcount, hraster]
  · obtain ⟨hr, hc, hb⟩ := advance_at_of_ne s c hd
    exact cursorLegal_of_eq (h d) (by rw [advance_width]) (by rw [advance_nrows]) hr hc hb

theorem effect_keeps_cursors (h : ∀ ch, CursorLegal s ch) (he : Effect i s t) : ∀ ch, CursorLegal t ch := by
  cases he
  case passBegin | passAbort => exact cursors_allHome rfl rfl rfl
  case curW c v _ _ =>
    exact cursors_homeCursor h _ (fun d hd => chan_set_of_ne s.width v hd) (fun _ _ => rfl) rfl rfl rfl
  case curH c v _ _ =>
    exact cursors_homeCursor h _ (fun _ _ => rfl) (fun d hd => chan_set_of_ne s.nrows v hd) rfl rfl rfl
  case encBlock c e _ _ hx _ =>
    have same : ∀ ch, CursorLegal ((recordBlock c s).withEncoder e) ch := cursors_of_same h rfl rfl rfl rfl rfl
    exact cursors_advance same hx
  all_goals exact cursors_of_same h rfl rfl rfl rfl rfl

theorem exec_keeps_cursors (hs : ∀ ch, CursorLegal s ch) (h : exec i s = .next t) : ∀ ch, CursorLegal t ch := by
  rcases exec_cases h with ⟨_, _, rfl⟩ | ⟨_, _, _, _, rfl⟩ | ⟨_, he⟩ | ⟨_, u, hu, rfl⟩
  · exact hs
  · exact cursors_of_same hs rfl rfl rfl rfl rfl
  · exact effect_keeps_cursors hs he
  · rw [overflow_frame hu]
    exact cursors_of_same hs rfl rfl rfl rfl rfl

/-! The canonical form of PT -/

theorem effect_keeps_wf (hw : Memory.wf s.pt) (h : Effect i s t) : Memory.wf t.pt := by
  cases h
  case passBegin warm _ =>
    cases warm
    case false => exact wf_initAll
    case true => exact hw
  case ptWr => exact wf_write hw ..
  case ptInit all _ =>
    cases all
    case false => exact wf_initTable hw ..
    case true => exact wf_initAll
  case encBit he =>
    rw [withEncoder_pt, (encodeDecision_extends (.inl he)).2]
    exact wf_write hw ..
  case encBlock he =>
    obtain ⟨_, _, _, keeps⟩ := encodeAll_extends (.inl he)
    rw [advance_pt]
    exact keeps hw
  all_goals exact hw

theorem overflow_keeps_wf (hw : Memory.wf s.pt) (h : Overflow i s t) : Memory.wf t.pt := by
  cases h
  case passEnd => exact hw
  case encBit he =>
    rw [withEncoder_pt, (encodeDecision_extends (.inr he)).2]
    exact wf_write hw ..
  case encBlock he =>
    obtain ⟨_, _, _, keeps⟩ := encodeAll_extends (.inr he)
    exact keeps hw

theorem exec_keeps_wf (hw : Memory.wf s.pt) (h : exec i s = .next t) : Memory.wf t.pt := by
  rcases exec_cases h with ⟨_, _, rfl⟩ | ⟨_, _, _, _, rfl⟩ | ⟨_, he⟩ | ⟨_, u, hu, rfl⟩
  · exact hw
  · exact hw
  · exact effect_keeps_wf hw he
  · exact overflow_keeps_wf (t := u) hw hu

/-! CODED_LEN and FCODE -/

theorem exec_codedLen_le (hs : s.codedLen.toNat ≤ 64) (h : exec i s = .next t) : t.codedLen.toNat ≤ 64 := by
  have recorded (c : Chan) : (recordBlock c s).codedLen.toNat ≤ 64 :=
    (codedLen_toNat s.blk).trans_le (codedLength_le s.blk)
  rcases exec_cases h with ⟨_, _, rfl⟩ | ⟨_, _, _, _, rfl⟩ | ⟨_, he⟩ | ⟨_, u, hu, rfl⟩
  · exact hs
  · exact hs
  · cases he
    case encBlock =>
      rw [advance_codedLen, withEncoder_codedLen]
      exact recorded _
    all_goals exact hs
  · cases hu
    case encBlock =>
      rw [raiseFault_codedLen, withEncoder_codedLen]
      exact recorded _
    all_goals exact hs

theorem effect_fcode (h : Effect i s t) : t.fcode = s.fcode := by
  cases h
  case encBlock => exact advance_fcode ..
  all_goals rfl

theorem exec_fcode_none (hs : s.fcode = .none ↔ s.state ≠ .fault) (h : exec i s = .next t) :
    t.fcode = .none ↔ t.state ≠ .fault := by
  rcases exec_cases h with ⟨_, _, rfl⟩ | ⟨_, code, hcode, _, rfl⟩ | ⟨hrun, he⟩ | ⟨_, _, _, rfl⟩
  · exact hs
  · simp [hcode]
  · rw [effect_fcode he, hs]
    rcases hrun with hne | ⟨a, rfl⟩
    · exact ⟨fun _ => effect_ne_fault he hne, fun _ => hne⟩
    · cases he; exact Iff.rfl
  · simp

/-! The coder (42_arithmetic_coder.md R146) -/

theorem legal_of_finish {P : Params} {c d : Coder} (hc : c.Legal) (h : finish P c = .ok d) : d.Legal := by
  obtain ⟨hlow, _, hpend⟩ := finish_registers h hc.pend_pos
  have hrange : d.range = c.range := (shiftTimes_count h hc.pend_pos).2.1
  have hge := hc.range_ge
  have hlt := c.range.isLt
  have hzero : d.low.toNat = 0 := congrArg BitVec.toNat hlow
  exact ⟨hrange ▸ hge, by rw [hzero, hrange]; omega, hpend.ge⟩

theorem effect_keeps_coder (hs : s.state ≠ .fault → s.coder.Legal) (hl : Memory.legal s.pt) (h : Effect i s t)
    (ht : t.state ≠ .fault) : t.coder.Legal := by
  cases h
  case passBegin | passAbort => exact coderInv_start.toLegal
  case passEnd ha _ hf => exact legal_of_finish (hs (ne_fault_of_active ha)) hf
  case encBit ha he => exact (encodeDecision_made (e := s.encoder) ⟨hs (ne_fault_of_active ha), hl⟩ he).legal.coder
  case encBlock ha _ he =>
    rw [serialize_eq_codeList] at he
    rw [advance_coder]
    exact (codeList_made (e := s.encoder) ⟨hs (ne_fault_of_active ha), hl⟩ he).legal.coder
  all_goals exact hs ht

/-! SINKQ (10_state.md R40; 44_pass_control.md R204, R209) -/

theorem effect_keeps_sinkq_empty (hs : s.state = .idle ∨ s.state = .active → s.sinkq = []) (h : Effect i s t)
    (ht : t.state = .idle ∨ t.state = .active) : t.sinkq = [] := by
  cases h
  case passBegin | passAbort => rfl
  case passEnd => simp at ht
  case outPop hq => exact absurd (hs ht) (by simp [hq])
  case encBlock =>
    rw [advance_state] at ht
    rw [advance_sinkq]
    exact hs ht
  all_goals exact hs ht

/-- PASS_END fills the empty SINKQ with the frame, and OUT_POP takes its head. -/
theorem effect_keeps_sinkq_frame (hempty : s.state = .idle ∨ s.state = .active → s.sinkq = [])
    (hs : s.state = .done → s.sinkq <:+ frame s.params s.out) (h : Effect i s t) (ht : t.state = .done) :
    t.sinkq <:+ frame t.params t.out := by
  cases h
  case passBegin | passAbort => simp at ht
  case passEnd c ha _ _ =>
    have hsink : (s.sinkq ++ frame s.params c.out) <:+ frame s.params c.out := by rw [hempty (.inr ha), List.nil_append]
    exact hsink
  case outPop x rest hq => exact (hq ▸ List.suffix_cons x rest).trans (hs ht)
  case encBit ha _ => exact absurd (ha.symm.trans ht) (by decide)
  case encBlock ha _ _ =>
    rw [advance_state] at ht
    exact absurd (ha.symm.trans ht) (by decide)
  all_goals exact hs ht

/-! All clauses together -/

/-- A command that does not leave the block in FAULT had its effect. -/
theorem effect_of_exec (h : exec i s = .next t) (ht : t.state ≠ .fault) : s.state ≠ .fault ∧ Effect i s t := by
  rcases exec_cases h with ⟨hs, _, rfl⟩ | ⟨_, _, _, _, rfl⟩ | ⟨hrun, he⟩ | ⟨_, _, _, rfl⟩
  · exact absurd hs ht
  · exact absurd rfl ht
  · rcases hrun with hs | ⟨_, rfl⟩
    · exact ⟨hs, he⟩
    · cases he; exact ⟨ht, .csrRd ..⟩
  · exact absurd rfl ht

/-- Every command keeps the invariant. -/
theorem exec_keeps_stateInv (hs : StateInv s) (h : exec i s = .next t) : StateInv t where
  memory_wf := exec_keeps_wf hs.memory_wf h
  memory_legal := exec_keeps_legal hs.memory_legal h
  coder_legal ht := effect_keeps_coder hs.coder_legal hs.memory_legal (effect_of_exec h ht).2 ht
  out_le := exec_out_length h hs.out_le
  cursor_legal := exec_keeps_cursors hs.cursor_legal h
  fcode_none := exec_fcode_none hs.fcode_none h
  sinkq_empty ht := by
    have hne : t.state ≠ .fault := by rcases ht with ht | ht <;> simp [ht]
    exact effect_keeps_sinkq_empty hs.sinkq_empty (effect_of_exec h hne).2 ht
  sinkq_frame ht :=
    effect_keeps_sinkq_frame hs.sinkq_empty hs.sinkq_frame (effect_of_exec h (by simp [ht])).2 ht
  codedLen_le := exec_codedLen_le hs.codedLen_le h

/-- The invariant says nothing of FINFO, BLK, QT, PTR, LASTSEL, RESPQ and the ports; a fault stops the coder
and SINKQ. -/
theorem stateInv_raiseFault {code : FaultCode} (hcode : code ≠ .none) (w : Word) (hs : StateInv s) :
    StateInv (raiseFault code w s) where
  memory_wf := hs.memory_wf
  memory_legal := hs.memory_legal
  coder_legal ht := absurd rfl ht
  out_le := hs.out_le
  cursor_legal := cursors_of_same hs.cursor_legal rfl rfl rfl rfl rfl
  fcode_none := by simp [hcode]
  sinkq_empty ht := by simp at ht
  sinkq_frame ht := by simp at ht
  codedLen_le := hs.codedLen_le

theorem stateInv_queues (inputs : List HostEvent) (respq : List Word) (hs : StateInv s) :
    StateInv { s with inputs := inputs, respq := respq } :=
  { hs with cursor_legal := cursors_of_same hs.cursor_legal rfl rfl rfl rfl rfl }

theorem stateInv_illegalWord (w : Word) (hs : StateInv s) : StateInv (illegalWord w s) := by
  by_cases hf : s.state = .fault
  · rwa [illegalWord_dropped hf]
  · rw [illegalWord, if_neg hf]
    exact stateInv_raiseFault (by decide) w hs

theorem stateInv_hardwareReset (s : State) : StateInv (hardwareReset s) where
  memory_wf := wf_initAll
  memory_legal := legal_initAll
  coder_legal _ := coderInv_start.toLegal
  out_le := Nat.zero_le _
  cursor_legal := cursors_allHome rfl rfl rfl
  fcode_none := by simp [hardwareReset, BlockState.reset]
  sinkq_empty _ := rfl
  sinkq_frame ht := by simp [hardwareReset, BlockState.reset] at ht
  codedLen_le := by simp [hardwareReset, BlockState.reset]

/-- Settles O53: the reset state is the one hardware reset leaves. -/
theorem resetHasTheInvariant : Obligations.ResetHasTheInvariant := stateInv_hardwareReset State.reset

/-- Settles O54: by the cases of a step, each command by the clauses above. -/
theorem stepKeepsTheInvariant : Obligations.StepKeepsTheInvariant := by
  intro s t hs h
  rcases step_cases h with
    ⟨_, ht⟩ | ⟨_, _, rest, _, _, hexec⟩ | ⟨w, rest, _, _, ht⟩ | ⟨rest, _, ht⟩ | ⟨rest, _, ht⟩
  · cases ht
    exact hs
  · exact exec_keeps_stateInv (stateInv_queues rest s.respq hs) hexec
  · cases ht
    exact stateInv_illegalWord w (stateInv_queues rest s.respq hs)
  · cases ht
    exact stateInv_hardwareReset _
  · cases ht
    exact (stateInv_queues rest s.respq.tail hs :)

end Sys2Proof.Statements
end

section
/-! No step stops or is refused from a state with the invariant (42_arithmetic_coder.md R150; 70_reset_and_hazards.md
R268). -/

namespace Sys2Proof.Statements

open Sys2Proof.Machine

variable {s : State}

/-! The tests before a command's own pseudocode answer a next state, or go on to it. -/

theorem command_completes {legal : PassState → Bool} {w : Word} {body : State → Outcome}
    (h : legal s.state = true → ∃ t, body s = .next t) : ∃ t, command legal w body s = .next t := by
  by_cases hf : s.state = .fault
  · exact ⟨s, command_dropped hf⟩
  by_cases hl : legal s.state = true
  · rw [command_runs hf hl]
    exact h hl
  · exact ⟨_, command_illegal hf (Bool.eq_false_iff.mpr hl)⟩

theorem withChannel_completes {ch : BitVec 2} {w : Word} {body : Chan → State → Outcome}
    (h : ∀ c, ∃ t, body c s = .next t) : ∃ t, withChannel ch w body s = .next t := by
  unfold withChannel
  cases channel? ch
  case none => exact ⟨_, rfl⟩
  case some c => exact h c

theorem withCell_completes {ch : BitVec 2} {pos : BitVec 3} {cell : BitVec 13} {w : Word}
    {body : CellRef → State → Outcome} (h : ∀ r, ∃ t, body r s = .next t) :
    ∃ t, withCell ch pos cell w body s = .next t := by
  unfold withCell
  cases cellRef? ch pos cell
  case none => exact ⟨_, rfl⟩
  case some r => exact h r

theorem afterCoding_completes {w : Word} {done : State → State} {x : Coded Encoder} (h : x ≠ .stuck) :
    ∃ t, afterCoding w s done x = .next t := by
  cases x
  case stuck => exact absurd rfl h
  all_goals exact ⟨_, rfl⟩

/-! With the invariant the coder is total. -/

theorem legalEncoder_of_stateInv (hs : StateInv s) (ha : s.state = .active) : LegalEncoder s.encoder :=
  ⟨hs.coder_legal (ne_fault_of_active ha), hs.memory_legal⟩

theorem encodeDecision_ne_stuck {e : Encoder} (he : LegalEncoder e) (P : Params) (r : CellRef) (bit : Bool) :
    encodeDecision P r bit e ≠ .stuck := by
  rcases encodeDecision_outcome P r bit he with ⟨_, h, _⟩ | ⟨_, h, _⟩ <;> simp [h]

theorem serialize_ne_stuck (he : LegalEncoder s.encoder) (c : Chan) (pos : Position) :
    serialize c pos s ≠ .stuck := by
  rw [serialize_eq_codeList]
  rcases codeList_outcome s.params (decisions s c pos) he with ⟨_, h, _⟩ | ⟨_, _, _, _, _, h, _⟩ <;> simp [h]

theorem exec_completes (hs : StateInv s) (i : Instr) : ∃ t, exec i s = .next t := by
  cases i <;> simp only [exec, execNop, execPassBegin, execPassEnd, execPassAbort, execOutPop, execCurW,
    execCurH, execSelect, execPtAddr, execPtWr, execPtRd, execPtInit, execEncBit, execQtWr, execBlkWr,
    execBlkClr, execEncBlock]
  case csrRd => exact ⟨_, rfl⟩
  case passEnd =>
    refine command_completes fun _ => ?_
    split
    · split <;> exact ⟨_, rfl⟩
    · exact ⟨_, rfl⟩
  case outPop => exact command_completes fun _ => by split <;> exact ⟨_, rfl⟩
  case curW | curH | select | qtWr => exact command_completes fun _ => withChannel_completes fun _ => ⟨_, rfl⟩
  case ptAddr => exact command_completes fun _ => withCell_completes fun _ => ⟨_, rfl⟩
  case encBit =>
    refine command_completes fun hl => withCell_completes fun r => afterCoding_completes ?_
    exact encodeDecision_ne_stuck (legalEncoder_of_stateInv hs (insidePass_iff.mp hl)) _ _ _
  case encBlock =>
    refine command_completes fun hl => withChannel_completes fun c => ?_
    split
    · exact ⟨_, rfl⟩
    · exact afterCoding_completes
        (serialize_ne_stuck (legalEncoder_of_stateInv hs (insidePass_iff.mp hl)) c _)
  all_goals exact command_completes fun _ => ⟨_, rfl⟩

/-- Settles O55: by the host's event; a command word by `exec_completes`. -/
theorem stepAlwaysCompletes : Obligations.StepAlwaysCompletes := by
  intro s hs
  rcases hi : s.inputs with _ | ⟨e, rest⟩
  · exact ⟨s, step_nil hi⟩
  rw [step_cons hi]
  cases e
  case word w =>
    rcases hd : decode w with _ | i
    · exact ⟨illegalWord w { s with inputs := rest }, by simp [meetEvent, hd]⟩
    · obtain ⟨t, ht⟩ := exec_completes (stateInv_queues rest s.respq hs) i
      exact ⟨t, by simpa [meetEvent, hd] using ht⟩
  all_goals exact ⟨_, rfl⟩

end Sys2Proof.Statements
end

section
/-! The first byte of a payload (42_arithmetic_coder.md R148): while nothing is appended no carry can come, because the
whole interval lies below 2^32, and so the first byte appended is the CACHE of the start. -/

namespace Sys2Proof.Statements

open Sys2Proof.Machine

variable {P : Params} {c d : Coder} {e e' : Encoder} {r : CellRef} {bit : Bool} {i : Instr} {s t : State}

theorem payloadStart_start : PayloadStart Coder.start := .inl (by decide)

/-- Nothing is appended yet, and no carry is pending. -/
structure Unwritten (c : Coder) : Prop where
  out_nil : c.out = []
  cache_zero : c.cache = 0
  low_lt : c.low.toNat < 2 ^ 32

theorem head_of_flushed (h : Unwritten c) : (flushed c).out.head? = some 0 := by
  have hcarry : c.carry = 0 := (carry_eq c).trans (Nat.div_eq_of_lt h.low_lt)
  rw [flushed, heldBytes, h.out_nil, h.cache_zero, hcarry]
  rfl

theorem head_of_prefix {l m : List Byte} {b : Byte} (h : l <+: m) (hl : l.head? = some b) : m.head? = some b := by
  obtain ⟨k, rfl⟩ := h
  rw [List.head?_append, hl]
  rfl

/-- A shift appends the byte 0 first, or holds a byte more back. -/
theorem shiftLow_start (h : shiftLow P c = .ok d) (hc : Unwritten c ∨ c.out.head? = some 0) :
    (¬ settled c ∧ Unwritten c ∧ d = deferred c) ∨ d.out.head? = some 0 := by
  rcases hc with hc | hc
  · rcases shiftLow_ok h with ⟨_, _, rfl⟩ | ⟨unsettled, rfl⟩
    · exact .inr (head_of_flushed hc)
    · exact .inl ⟨unsettled, hc, rfl⟩
  · exact .inr (head_of_prefix (shiftLow_ok_extends h).1 hc)

theorem shiftTimes_start : ∀ {n : Nat} {c d : Coder}, shiftTimes P n c = .ok d →
    Unwritten c ∨ c.out.head? = some 0 → Unwritten d ∨ d.out.head? = some 0
  | 0, c, d, h, hc => by
    cases h
    exact hc
  | n + 1, c, d, h, hc => by
    unfold shiftTimes at h
    split at h
    · next c' hc' =>
      refine shiftTimes_start h ?_
      rcases shiftLow_start hc' hc with ⟨_, hstart, rfl⟩ | hhead
      · refine .inl ⟨hstart.out_nil, hstart.cache_zero, ?_⟩
        have hlow : (deferred c).low.toNat = c.low.toNat % 2 ^ 24 * 2 ^ 8 := shiftedLow_toNat c
        omega
      · exact .inr hhead
    · cases h

theorem unwritten_or_head (h : PayloadStart c) : Unwritten c ∨ c.out.head? = some 0 := by
  rcases h with ⟨hout, hcache, hsum⟩ | hhead
  · exact .inl ⟨hout, hcache, by omega⟩
  · exact .inr hhead

/-- `Finish` appends at least one byte, so the payload it leaves has its first byte. -/
theorem head_of_finish (hc : c.Legal) (hstart : PayloadStart c) (h : finish P c = .ok d) : d.out.head? = some 0 := by
  rcases shiftTimes_start h (unwritten_or_head hstart) with hd | hd
  · have hlength := finish_length h hc.pend_pos
    rw [hd.out_nil, List.length_nil] at hlength
    omega
  · exact hd

theorem payloadStart_narrow {p : Prob} (hc : c.Legal) (hp : Prob.legal p) (bit : Bool) (h : PayloadStart c) :
    PayloadStart (narrow p bit c) := by
  obtain ⟨_, _, hsum⟩ := narrow_bounds hc hp bit
  unfold PayloadStart
  rw [narrow_out, narrow_cache]
  exact h.imp_left fun ⟨hout, hcache, hlt⟩ => ⟨hout, hcache, by omega⟩

/-- The shift of a decision keeps the interval below 2^32: with a top byte 0xFF in LOW, what is above LOW is below
2^24. -/
theorem payloadStart_shift {n : Coder} (hnarrow : n.range.toNat < 2 ^ 24) (h : PayloadStart n)
    (hd : shiftLow P (widened n) = .ok d) : PayloadStart d := by
  have hn : Unwritten (widened n) ∨ (widened n).out.head? = some 0 := by
    rcases h with ⟨hout, hcache, hsum⟩ | hhead
    · exact .inl ⟨hout, hcache, by simp only [widened]; omega⟩
    · exact .inr hhead
  rcases shiftLow_start hd hn with ⟨unsettled, hstart, rfl⟩ | hhead
  · rcases h with ⟨_, _, hsum⟩ | hhead
    · refine .inl ⟨hstart.out_nil, hstart.cache_zero, ?_⟩
      have hlow : (deferred (widened n)).low.toNat = n.low.toNat % 2 ^ 24 * 2 ^ 8 := shiftedLow_toNat (widened n)
      have hrange : (deferred (widened n)).range.toNat = n.range.toNat * 2 ^ 8 := range_shift hnarrow
      have hff := (settled_widened_iff (n := n) rfl).not.mp unsettled
      omega
    · exact .inr hhead
  · exact .inr hhead

theorem encodeDecision_keeps_payloadStart (he : LegalEncoder e) (hstart : PayloadStart e.coder)
    (h : encodeDecision P r bit e = .done e') : PayloadStart e'.coder := by
  have hn := payloadStart_narrow he.coder (he.cells r) bit hstart
  rcases encodeDecision_cases (P := P) (bit := bit) he.coder (he.cells r) with
    ⟨_, heq⟩ | ⟨hnarrow, d, hd, heq⟩ | ⟨_, d, _, heq⟩
  · cases heq.symm.trans h
    exact hn
  · cases heq.symm.trans h
    exact payloadStart_shift hnarrow hn hd
  · cases heq.symm.trans h

theorem serialize_keeps_payloadStart {ch : Chan} {pos : Position} (he : LegalEncoder s.encoder)
    (hstart : PayloadStart s.coder) (h : serialize ch pos s = .done e') : PayloadStart e'.coder :=
  (encodeAll_keeps (fun e => LegalEncoder e ∧ PayloadStart e.coder)
    (fun _ _ _ _ hd _ _ hcode =>
      ⟨(encodeDecision_made hd.1 hcode).legal, encodeDecision_keeps_payloadStart hd.1 hd.2 hcode⟩)
    ⟨he, hstart⟩ h).2

/-! The commands -/

theorem effect_keeps_payloadStart (hs : StateInv s) (hstart : s.state = .active → PayloadStart s.coder)
    (h : Effect i s t) (ht : t.state = .active) : PayloadStart t.coder := by
  cases h
  case passBegin => exact payloadStart_start
  case passEnd | passAbort => simp at ht
  case encBit ha he =>
    exact encodeDecision_keeps_payloadStart (e := s.encoder) (legalEncoder_of_stateInv hs ha) (hstart ha) he
  case encBlock ha _ he =>
    rw [advance_coder]
    exact serialize_keeps_payloadStart (legalEncoder_of_stateInv hs ha) (hstart ha) he
  all_goals exact hstart ht

theorem effect_keeps_payload_head (hs : StateInv s) (hstart : s.state = .active → PayloadStart s.coder)
    (hdone : s.state = .done → s.out.head? = some 0) (h : Effect i s t) (ht : t.state = .done) :
    t.out.head? = some 0 := by
  cases h
  case passBegin | passAbort => simp at ht
  case passEnd ha _ hf => exact head_of_finish (hs.coder_legal (ne_fault_of_active ha)) (hstart ha) hf
  case encBit ha _ => exact absurd (ha.symm.trans ht) (by decide)
  case encBlock ha _ _ =>
    rw [advance_state] at ht
    exact absurd (ha.symm.trans ht) (by decide)
  all_goals exact hdone ht

/-- Settles O59: a command that leaves the block in ACTIVE or DONE had its effect; an illegal word and reset leave it in
neither state. -/
theorem firstPayloadByteStaysZero : Obligations.FirstPayloadByteStaysZero := by
  intro s t hs hstart hdone h
  rcases step_cases h with
    ⟨_, ht⟩ | ⟨_, _, rest, _, _, hexec⟩ | ⟨w, rest, _, _, ht⟩ | ⟨_, _, ht⟩ | ⟨_, _, ht⟩
  · cases ht
    exact ⟨hstart, hdone⟩
  · have hs' := stateInv_queues rest s.respq hs
    exact ⟨fun ht => effect_keeps_payloadStart hs' hstart (effect_of_exec hexec (by simp [ht])).2 ht,
      fun ht => effect_keeps_payload_head hs' hstart hdone (effect_of_exec hexec (by simp [ht])).2 ht⟩
  · cases ht
    have hf : (illegalWord w { s with inputs := rest }).state = .fault := by
      unfold illegalWord
      split
      · assumption
      · rfl
    exact ⟨fun ht => absurd (hf.symm.trans ht) (by decide), fun ht => absurd (hf.symm.trans ht) (by decide)⟩
  · cases ht
    exact ⟨nofun, nofun⟩
  · cases ht
    exact ⟨hstart, hdone⟩

end Sys2Proof.Statements
end

section
/-! A cold pass does not depend on what earlier passes left (40_table_manager.md R113). `forgetStatus` puts the
registers that no command but CSR_RD reads at fixed values; what a step and a run leave of the pass is the same
with and without it. -/

namespace Sys2Proof.Statements

open Sys2Proof.Machine

variable {s t : State} {o : Outcome}

/-- `s` without what it records beside the pass: the fault registers, LASTSEL, CODED_LEN and RESPQ. -/
def forgetStatus (s : State) : State :=
  { s with fcode := .none, finfo := 0, lastsel := 0, codedLen := 0, respq := [] }

theorem samePass_of_forgetStatus (h : forgetStatus s = forgetStatus t) : SamePass s t :=
  ⟨congrArg (·.state) h, congrArg (·.blk) h, congrArg (·.qt) h, congrArg (·.pt) h, congrArg (·.ptr) h,
    congrArg (·.width) h, congrArg (·.nrows) h, congrArg (·.row) h, congrArg (·.col) h, congrArg (·.blkpos) h,
    congrArg (·.coder) h, congrArg (·.sinkq) h, congrArg (·.params) h, congrArg (·.inputs) h⟩

/-- The pass of the state that an outcome answers. -/
def passOf : Host.Outcome State Fault Refusal → Option State
  | .next s => some (forgetStatus s)
  | _ => none

theorem passOf_eq_some : passOf o = some t ↔ ∃ s, o = .next s ∧ forgetStatus s = t := by
  cases o <;> simp [passOf]

/-! The tests of a command read STATE and the operands only. -/

theorem passOf_command {legal : PassState → Bool} {w : Word} {body : State → Outcome}
    (h : passOf (body s) = passOf (body (forgetStatus s))) :
    passOf (command legal w body s) = passOf (command legal w body (forgetStatus s)) := by
  have hstate : (forgetStatus s).state = s.state := rfl
  unfold command
  rw [hstate]
  split
  · rfl
  split
  · exact h
  · rfl

theorem passOf_withChannel {ch : BitVec 2} {w : Word} {body : Chan → State → Outcome}
    (h : ∀ c, passOf (body c s) = passOf (body c (forgetStatus s))) :
    passOf (withChannel ch w body s) = passOf (withChannel ch w body (forgetStatus s)) := by
  unfold withChannel
  cases channel? ch
  case none => rfl
  case some c => exact h c

theorem passOf_withCell {ch : BitVec 2} {pos : BitVec 3} {cell : BitVec 13} {w : Word}
    {body : CellRef → State → Outcome} (h : ∀ r, passOf (body r s) = passOf (body r (forgetStatus s))) :
    passOf (withCell ch pos cell w body s) = passOf (withCell ch pos cell w body (forgetStatus s)) := by
  unfold withCell
  cases cellRef? ch pos cell
  case none => rfl
  case some r => exact h r

theorem forgetStatus_advance (c : Chan) (s : State) : forgetStatus (advance c s) = advance c (forgetStatus s) := by
  by_cases hlast : s.col[c] + 1 = s.width[c]
  · have hlast' : (forgetStatus s).col[c] + 1 = (forgetStatus s).width[c] := hlast
    simp only [advance, if_pos hlast, if_pos hlast']
    rfl
  · have hlast' : ¬ (forgetStatus s).col[c] + 1 = (forgetStatus s).width[c] := hlast
    simp only [advance, if_neg hlast, if_neg hlast']
    rfl

theorem passOf_exec (i : Instr) (s : State) : passOf (exec i s) = passOf (exec i (forgetStatus s)) := by
  cases i <;> simp only [exec, execNop, execPassBegin, execPassEnd, execPassAbort, execOutPop, execCurW,
    execCurH, execSelect, execPtAddr, execPtWr, execPtRd, execPtInit, execEncBit, execQtWr, execBlkWr,
    execBlkClr, execEncBlock]
  case csrRd => rfl
  case passEnd =>
    refine passOf_command ?_
    have hexhausted (c : Chan) : exhausted (forgetStatus s) c = exhausted s c := rfl
    have hfinish : finish (forgetStatus s).params (forgetStatus s).coder = finish s.params s.coder := rfl
    simp only [hexhausted, hfinish]
    split
    · cases finish s.params s.coder <;> rfl
    · rfl
  case outPop =>
    refine passOf_command ?_
    have hsinkq : (forgetStatus s).sinkq = s.sinkq := rfl
    rw [hsinkq]
    cases s.sinkq <;> rfl
  case curW | curH | select | qtWr => exact passOf_command (passOf_withChannel fun _ => rfl)
  case ptAddr => exact passOf_command (passOf_withCell fun _ => rfl)
  case encBit ch pos cell bit =>
    refine passOf_command (passOf_withCell fun r => ?_)
    have hcode : encodeDecision (forgetStatus s).params r bit (forgetStatus s).encoder =
      encodeDecision s.params r bit s.encoder := rfl
    rw [hcode]
    cases encodeDecision s.params r bit s.encoder <;> rfl
  case encBlock =>
    refine passOf_command (passOf_withChannel fun c => ?_)
    have hexhausted : exhausted (forgetStatus s) c = exhausted s c := rfl
    have hcode : serialize c (nextPosition (forgetStatus s) c) (forgetStatus s) =
      serialize c (nextPosition s c) s := rfl
    rw [hexhausted, hcode]
    split
    · rfl
    · cases serialize c (nextPosition s c) s
      case done e =>
        have hcoded : forgetStatus ((recordBlock c s).withEncoder e) =
          forgetStatus ((recordBlock c (forgetStatus s)).withEncoder e) := rfl
        simp only [afterCoding, passOf, forgetStatus_advance, hcoded]
      all_goals rfl
  all_goals exact passOf_command rfl

theorem passOf_step (s : State) : passOf (step s) = passOf (step (forgetStatus s)) := by
  rcases hi : s.inputs with _ | ⟨e, rest⟩
  · have hi' : (forgetStatus s).inputs = [] := hi
    rw [step_nil hi, step_nil hi']
    rfl
  · have hi' : (forgetStatus s).inputs = e :: rest := hi
    rw [step_cons hi, step_cons hi']
    cases e
    case word w =>
      have hillegal : forgetStatus (illegalWord w { s with inputs := rest }) =
          forgetStatus (illegalWord w { forgetStatus s with inputs := rest }) := by
        have hstate : (forgetStatus s).state = s.state := rfl
        unfold illegalWord
        rw [hstate]
        split <;> rfl
      rcases hd : decode w with _ | i <;> simp only [meetEvent, hd]
      · exact congrArg some hillegal
      · exact passOf_exec i { s with inputs := rest }
    all_goals rfl

theorem passOf_step_congr (h : forgetStatus s = forgetStatus t) : passOf (step s) = passOf (step t) :=
  (passOf_step s).trans (h ▸ (passOf_step t).symm)

/-! Runs -/

theorem run_succ_eq_next {M : Host.Core} {s t : M.State} {k : Nat} :
    M.run (k + 1) s = .next t ↔ ∃ u, M.step s = .next u ∧ M.run k u = .next t := by
  rw [Host.Core.run]
  cases M.step s <;> simp

/-- Runs from two states with one pass end in two states with one pass. -/
theorem run_keeps_samePass {k : Nat} {s' : State} (h : forgetStatus s = forgetStatus t)
    (hrun : Host.Core.run Sys2Proof.core k s = .next s') :
    ∃ t', Host.Core.run Sys2Proof.core k t = .next t' ∧ forgetStatus s' = forgetStatus t' := by
  induction k generalizing s t with
  | zero =>
    cases hrun
    exact ⟨t, rfl, h⟩
  | succ k ih =>
    obtain ⟨u, hu, hrest⟩ := run_succ_eq_next.mp hrun
    obtain ⟨v, hv, huv⟩ := passOf_eq_some.mp ((passOf_step_congr h).symm.trans (congrArg passOf hu))
    obtain ⟨t', ht', hsame⟩ := ih huv.symm hrest
    exact ⟨t', run_succ_eq_next.mpr ⟨v, hv, ht'⟩, hsame⟩

theorem decode_coldBegin : decode 0x04000000 = some (.passBegin false) := by decide

theorem step_coldBegin {rest : List HostEvent} (h : Outside s) (hi : s.inputs = .word 0x04000000 :: rest) :
    step s = .next (passBegun false { s with inputs := rest }) := by
  have hout : Outside { s with inputs := rest } := h
  rw [step_cons hi, meetEvent, decode_coldBegin]
  exact exec_passBegin false hout

/-- Settles O60: a cold PASS_BEGIN leaves one pass in both states, and the rest of the run keeps it one. -/
theorem coldPassesAreDeterministic : Obligations.ColdPassesAreDeterministic := by
  intro s t rest k s' hs ht hi hi' hblk hqt hptr hwidth hnrows hparams hrun
  have hbegun : forgetStatus (passBegun false { s with inputs := rest }) =
      forgetStatus (passBegun false { t with inputs := rest }) := by
    simp only [forgetStatus, passBegun, clearPass, homeAllCursors, State.withCoder, hblk, hqt, hptr, hwidth, hnrows,
      hparams]
    rfl
  obtain ⟨u, hu, hrest⟩ := run_succ_eq_next.mp hrun
  obtain rfl : passBegun false { s with inputs := rest } = u :=
    Host.Outcome.next.inj ((step_coldBegin hs hi).symm.trans hu)
  obtain ⟨t', ht', hsame⟩ := run_keeps_samePass hbegun hrest
  exact ⟨t', run_succ_eq_next.mpr ⟨_, step_coldBegin ht (hi'.trans hi), ht'⟩, samePass_of_forgetStatus hsame⟩

end Sys2Proof.Statements
end
